-- ==== Sys2Proof/Word.lean ====
section
/-! DEFINITION. The bit-vector and table types of the ECE. Widths are those of rule R7. -/

namespace Sys2Proof

/-- A host-visible register (`REG_W` = 32), a count (`CNT_W` = 32), a P-bit bound (P = 32). Rule R7. -/
abbrev Word := BitVec 32

/-- A byte of `BSMEM` (rule R80), a code length (rule R34), a field of the command word (rule R121). -/
abbrev Byte := BitVec 8

/-- A symbol 0..255 (rules R7 `NSYMBOLS`, R15). -/
abbrev Sym := BitVec 8

/-- `TOTAL` and each `CUM[s]` (`TOT_W` = 64). Rule R7. -/
abbrev DWord := BitVec 64

/-- One `CODE[s]` (`MAXLEN_ARCH` = 255). Rule R7. -/
abbrev CodeWord := BitVec 255

/-- A table with one entry for each of the 256 symbols (rules R29, R31, R34). -/
abbrev Table (α : Type) := Vector α 256

end Sys2Proof
end

