-- ==== Sys2Proof/Syntax.lean ====
section
/-! DEFINITION. The 28 commands of opcode_table.json, one constructor each (rule R125). -/

namespace Sys2Proof

/-- A command. `s` is the `SYM` operand, `n` and `k` the `IMM` operand (rule R123). -/
inductive Instr where
  /-- `NOP` (R353) -/
  | nop
  /-- `CTL.RESET` (R354) -/
  | ctlReset
  /-- `CTL.CLRERR` (R355) -/
  | ctlClrerr
  /-- `CTR.MODE tag` (R356) -/
  | ctrMode (tag : Byte)
  /-- `BS.WINIT` (R153) -/
  | bsWinit
  /-- `BS.WR n` (R154) -/
  | bsWr (n : Nat)
  /-- `BS.FLUSH` (R155) -/
  | bsFlush
  /-- `BS.RINIT` (R156) -/
  | bsRinit
  /-- `BS.RD n` (R157) -/
  | bsRd (n : Nat)
  /-- `FT.CLR` (R200) -/
  | ftClr
  /-- `FT.ACC s` (R201) -/
  | ftAcc (s : Sym)
  /-- `FT.LD s` (R202) -/
  | ftLd (s : Sym)
  /-- `FT.RD s` (R203) -/
  | ftRd (s : Sym)
  /-- `FT.CUM` (R204) -/
  | ftCum
  /-- `FT.CRD s` (R205) -/
  | ftCrd (s : Sym)
  /-- `HUF.BUILD` (R251) -/
  | hufBuild
  /-- `HUF.LDLEN s, n` (R254) -/
  | hufLdlen (s : Sym) (n : Byte)
  /-- `HUF.CANON` (R253) -/
  | hufCanon
  /-- `HUF.RDLEN s` (R255) -/
  | hufRdlen (s : Sym)
  /-- `HUF.RDCODE s, k` (R256) -/
  | hufRdcode (s : Sym) (k : Nat)
  /-- `HUF.ENC s` (R257) -/
  | hufEnc (s : Sym)
  /-- `HUF.DEC` (R258) -/
  | hufDec
  /-- `AC.EINIT` (R306) -/
  | acEinit
  /-- `AC.ENC s` (R307) -/
  | acEnc (s : Sym)
  /-- `AC.EFIN` (R308) -/
  | acEfin
  /-- `AC.DINIT` (R311) -/
  | acDinit
  /-- `AC.DEC` (R312) -/
  | acDec
  /-- `AC.DFIN` (R313) -/
  | acDfin
  deriving DecidableEq, Repr

end Sys2Proof
end

