-- ==== Sys2Proof/WellFormed.lean ====
section
/-! DEFINITION. Which terms of `Instr` are commands: the `IMM` ranges of rule R124. -/

namespace Sys2Proof

/-- The legal `IMM` ranges of rule R124. Symbols, tags and code lengths are 8-bit fields whose every value is
legal (rules R123, R124), so their type is the whole check. -/
def Instr.wellFormed : Instr → Bool
  | .bsWr n => n ≤ 32
  | .bsRd n => n ≤ 32
  | .hufRdcode _ k => k ≤ 7
  | .nop => true
  | .ctlReset => true
  | .ctlClrerr => true
  | .ctrMode _ => true
  | .bsWinit => true
  | .bsFlush => true
  | .bsRinit => true
  | .ftClr => true
  | .ftAcc _ => true
  | .ftLd _ => true
  | .ftRd _ => true
  | .ftCum => true
  | .ftCrd _ => true
  | .hufBuild => true
  | .hufLdlen _ _ => true
  | .hufCanon => true
  | .hufRdlen _ => true
  | .hufEnc _ => true
  | .hufDec => true
  | .acEinit => true
  | .acEnc _ => true
  | .acEfin => true
  | .acDinit => true
  | .acDec => true
  | .acDfin => true

end Sys2Proof
end

