-- ==== Sys2Proof/Decode.lean ====
section
/-! DEFINITION. The decoder and the encoder of the 32-bit command word (30_encoding.md, rules R120 to R129). A
command is one 32-bit register write, so it has no byte order (rule R88): bit 0 of the table is bit 0 of the
word (log 16). -/

namespace Sys2Proof

/-! ## Fields (rule R121) -/

/-- `OPC` = w[7:0]. -/
def fieldOpc (w : Word) : Byte := w.extractLsb' 0 8
/-- `SYM` = w[15:8]. -/
def fieldSym (w : Word) : Byte := w.extractLsb' 8 8
/-- `IMM` = w[23:16]. -/
def fieldImm (w : Word) : Byte := w.extractLsb' 16 8
/-- `RSV` = w[31:24], which must be 0. -/
def fieldRsv (w : Word) : Byte := w.extractLsb' 24 8

/-! ## Formats (rule R122): a field the format does not use must be 0 -/

/-- Format `F0`: neither `SYM` nor `IMM`. -/
def formF0 (sym imm : Byte) (i : Instr) : Option Instr :=
  if sym = 0 ∧ imm = 0 then some i else none

/-- Format `FS`: `SYM` only. -/
def formFS (imm : Byte) (i : Instr) : Option Instr :=
  if imm = 0 then some i else none

/-- Format `FI`: `IMM` only, at most `top` (rule R124). -/
def formFI (sym imm : Byte) (top : Nat) (i : Instr) : Option Instr :=
  if sym = 0 ∧ imm.toNat ≤ top then some i else none

/-- Format `FSI`: `SYM` and `IMM`, the latter at most `top` (rule R124). -/
def formFSI (imm : Byte) (top : Nat) (i : Instr) : Option Instr :=
  if imm.toNat ≤ top then some i else none

/-! ## The decoder (rules R125 to R127) -/

/-- The opcode map of rule R125. An opcode it does not list is reserved. -/
def decodeFields (opc : Nat) (s n : Byte) : Option Instr :=
  match opc with
  | 0x00 => formF0 s n .nop
  | 0x01 => formF0 s n .ctlReset
  | 0x02 => formF0 s n .ctlClrerr
  | 0x03 => formFS n (.ctrMode s)
  | 0x10 => formF0 s n .bsWinit
  | 0x11 => formFI s n 32 (.bsWr n.toNat)
  | 0x12 => formF0 s n .bsFlush
  | 0x13 => formF0 s n .bsRinit
  | 0x14 => formFI s n 32 (.bsRd n.toNat)
  | 0x20 => formF0 s n .ftClr
  | 0x21 => formFS n (.ftAcc s)
  | 0x22 => formFS n (.ftLd s)
  | 0x23 => formFS n (.ftRd s)
  | 0x24 => formF0 s n .ftCum
  | 0x25 => formFS n (.ftCrd s)
  | 0x30 => formF0 s n .hufBuild
  | 0x31 => formFSI n 255 (.hufLdlen s n)
  | 0x32 => formF0 s n .hufCanon
  | 0x33 => formFS n (.hufRdlen s)
  | 0x34 => formFSI n 7 (.hufRdcode s n.toNat)
  | 0x35 => formFS n (.hufEnc s)
  | 0x36 => formF0 s n .hufDec
  | 0x40 => formF0 s n .acEinit
  | 0x41 => formFS n (.acEnc s)
  | 0x42 => formF0 s n .acEfin
  | 0x43 => formF0 s n .acDinit
  | 0x44 => formF0 s n .acDec
  | 0x45 => formF0 s n .acDfin
  | _ => none

/-- The command a word stands for, or `none` where `Legal(w)` is false (rules R126, R127). -/
def decode (w : Word) : Option Instr :=
  if fieldRsv w = 0 then decodeFields (fieldOpc w).toNat (fieldSym w) (fieldImm w) else none

/-- `Legal(w)` (rule R127). -/
def legal (w : Word) : Bool := (decode w).isSome

/-! ## The encoder (rule R129) -/

/-- OPC | (s << 8) | (n << 16), with `RSV` = 0. -/
def packWord (opc s n : Byte) : Word := 0#8 ++ n ++ s ++ opc

/-- The word of a command (rules R125, R129). -/
def encode : Instr → Word
  | .nop => packWord 0x00 0 0
  | .ctlReset => packWord 0x01 0 0
  | .ctlClrerr => packWord 0x02 0 0
  | .ctrMode tag => packWord 0x03 tag 0
  | .bsWinit => packWord 0x10 0 0
  | .bsWr n => packWord 0x11 0 (BitVec.ofNat 8 n)
  | .bsFlush => packWord 0x12 0 0
  | .bsRinit => packWord 0x13 0 0
  | .bsRd n => packWord 0x14 0 (BitVec.ofNat 8 n)
  | .ftClr => packWord 0x20 0 0
  | .ftAcc s => packWord 0x21 s 0
  | .ftLd s => packWord 0x22 s 0
  | .ftRd s => packWord 0x23 s 0
  | .ftCum => packWord 0x24 0 0
  | .ftCrd s => packWord 0x25 s 0
  | .hufBuild => packWord 0x30 0 0
  | .hufLdlen s n => packWord 0x31 s n
  | .hufCanon => packWord 0x32 0 0
  | .hufRdlen s => packWord 0x33 s 0
  | .hufRdcode s k => packWord 0x34 s (BitVec.ofNat 8 k)
  | .hufEnc s => packWord 0x35 s 0
  | .hufDec => packWord 0x36 0 0
  | .acEinit => packWord 0x40 0 0
  | .acEnc s => packWord 0x41 s 0
  | .acEfin => packWord 0x42 0 0
  | .acDinit => packWord 0x43 0 0
  | .acDec => packWord 0x44 0 0
  | .acDfin => packWord 0x45 0 0

/-! ## The table's numbering -/

/-- The command read from an instruction whose `nbits` bits are `w`, numbered as opcode_table.json numbers them.
Every command is 32 bits (rule R120), so a word with a bit above bit 31 is no command. -/
def decodeTableWord (nbits w : Nat) : Option Instr :=
  if w % 2 ^ nbits < 2 ^ 32 then decode (BitVec.ofNat 32 (w % 2 ^ nbits)) else none

end Sys2Proof
end

