-- ==== Sys2Proof/Config.lean ====
section
/-! DEFINITION. The parameters of rule R7, the two open ones as data (`Config`), and the one free value the
model needs. -/

namespace Sys2Proof

/-- The open parameters of an ECE instance (rule R7; 92_eei_decisions.md D4, D21). They are fixed for one
machine: no step changes them. -/
structure Config where
  /-- `BS_CAP`: size of `BSMEM` in bytes. -/
  bsCap : Nat
  /-- `ECE_BASE`: where the 256-byte register space stands in the host's address space (rule R92). -/
  eceBase : Nat
  deriving DecidableEq, Repr

namespace Config

/-- Rule R7: 1 ≤ `BS_CAP` ≤ 2^28. -/
abbrev wf (c : Config) : Prop := 1 ≤ c.bsCap ∧ c.bsCap ≤ 2 ^ 28

/-- The configuration of `State.reset`: `BS_CAP` = 4096 as in 95_test_vectors.md, `ECE_BASE` = 0.
DESIGN CHOICE, unsafe for claims about `State.reset` alone (log 1, log 2). -/
def vectors : Config := { bsCap := 4096, eceBase := 0 }

/-- The capacity in bits, 8·`BS_CAP`. -/
def capBits (c : Config) : Nat := 8 * c.bsCap

/-- The free value of the n-th read of a register other than `ID` and `STATUS` while `BUSY` = 1
(rules R25, R481; 93_implementation_defined.md I4): any 32 bits, and each occurrence may differ. Nothing is
known of it (log 6). Safe. -/
opaque unspecifiedRead : Nat → Word

end Config

/-- The constant of register `ID` (rule R21), the ASCII codes of "ECE1". -/
def idWord : Word := 0x45434531

/-- `P`, `ARC_PRECISION` (rule R7). -/
def arcPrecision : Nat := 32

/-- `MAX` = 2^P − 1 (rules R7, R301). -/
def arcMax : Nat := 2 ^ arcPrecision - 1

/-- `HALF` = 2^(P−1) (rules R7, R301). -/
def half : Nat := 2 ^ (arcPrecision - 1)

/-- `QUARTER` = 2^(P−2) (rules R7, R301). -/
def quarter : Nat := 2 ^ (arcPrecision - 2)

/-- The largest 32-bit count: 2^32 − 1 (rules R201, R305, R308). -/
def countMax : Nat := 2 ^ 32 - 1

/-- What a byte of `BSMEM` that the memory does not list reads as. The spec leaves the power-on contents
unspecified (rules R39, R471); `State.powerOn` takes any contents, and `State.reset` lists none.
DESIGN CHOICE, unsafe for claims about `State.reset` alone (log 3). -/
def unlistedByte : Byte := 0

end Sys2Proof
end

