-- ==== Sys2Proof/Machine/State.lean ====
section
/-! DEFINITION. The state of one ECE: everything 10_state.md gives the machine, as plain data, beside the host's
remaining accesses (the model's own fields, log 5). -/

namespace Sys2Proof.Machine

/-! ## Named alternatives -/

/-- `STATUS.MODE` (rules R23, R24). -/
inductive Mode where
  | huffman
  | arithmetic
  deriving DecidableEq, Repr

/-- `STATUS.AC_STATE` (rule R23): the value 3 never occurs (93_implementation_defined.md I14). -/
inductive AcState where
  | idle
  | enc
  | dec
  deriving DecidableEq, Repr

/-- The error codes of rule R420; 11 to 15 are never raised (93_implementation_defined.md I13). -/
inductive ErrCode where
  | none
  | outOfData
  | corruptStream
  | emptyAlphabet
  | unsupportedMode
  | illegalCmd
  | badState
  | absentSymbol
  | countOverflow
  | modelTooLarge
  | bufferFull
  deriving DecidableEq, Repr

/-- Why the machine stops. Each stands for an operation the spec gives no meaning to and that no state a machine
reaches from power-on can meet (`Safety`). All are safe: the model stops. -/
inductive Fault where
  /-- `MemRead` or `MemWrite` at an address ≥ `BS_CAP`: rule R81 defines neither there and says no rule calls
  them so. Raised by the bit primitives (log 8). Safe. -/
  | bsmemAddress (address : Nat)
  /-- `a div b` with b ≤ 0, which rule R9 does not define. Raised by `Narrow` for `TOTAL` = 0 and by `AC.DEC`
  for an empty range (log 9). Safe. -/
  | divisorNotPositive
  /-- "the s with FREQ[s] > 0" (rules R306, R311) or "the unique symbol" of rule R312 where there is none. Raised
  by `AC.EINIT`, `AC.DINIT` and `AC.DEC` (log 9). Safe. -/
  | noSuchSymbol
  deriving DecidableEq, Repr

/-- What the model gives no meaning to. -/
inductive Refusal where
  /-- An instruction whose meaning is not written. Raised by no arm. Safe. -/
  | notModelled (mnemonic : String)
  /-- A host access that is not 32 bits wide or not 4-byte-aligned: rule R85 says a model refuses it
  (93_implementation_defined.md I5, log 7). Raised by the host's turn of the step. Safe. -/
  | registerAccessShape
  /-- A host access outside the 256 bytes at `ECE_BASE`: it goes to another device (rule R92, log 7). Raised by
  the host's turn of the step. Safe. -/
  | outsideRegisterSpace
  deriving DecidableEq, Repr

/-- What can end the pseudocode of a command before its last line: `raise E` (rule R11), or a fault. -/
inductive Stop where
  | raise (e : ErrCode)
  | fault (f : Fault)
  deriving DecidableEq, Repr

/-- The result of a piece of pseudocode. -/
abbrev Res (α : Type) := Except Stop α

/-! ## Memory -/

/-- `BSMEM` (rule R80): the listed bytes, addresses strictly rising, none equal to `unlistedByte`. -/
abbrev Memory := List Host.Cell

/-- The canonical form, so that equal memories are equal lists. -/
abbrev Memory.wf (m : Memory) : Prop :=
  m.Pairwise (fun a b => a.1 < b.1) ∧ ∀ c ∈ m, c.2 ≠ unlistedByte

/-- Every listed address is below `cap`. -/
abbrev Memory.below (m : Memory) (cap : Nat) : Prop := ∀ c ∈ m, c.1 < cap

/-! ## The host's side (the model's own, log 5) -/

/-- The width of a host access. Only `word` is permitted (rule R85). -/
inductive AccessSize where
  | byte
  | halfword
  | word
  deriving DecidableEq, Repr

/-- One entry of the host's program (rules R128, R130). Addresses are the host's: `ECE_BASE` + offset. -/
inductive HostOp where
  /-- `WR`: write `value` at `addr`. -/
  | write (size : AccessSize) (addr : Nat) (value : Word)
  /-- `RD`: read at `addr`; the value is appended to `HostSide.seen`. -/
  | read (size : AccessSize) (addr : Nat)
  /-- `WAIT`: read `STATUS` repeatedly until `BUSY` = 0. -/
  | wait
  /-- `CHECK`: `RD STATUS`; the program stops if `ERR` = 1. -/
  | check
  deriving DecidableEq, Repr

/-- The host agent of rule R20 as data: what it will do, what it has read, and how its accesses interleave with
the engine steps (rules R94, R490). -/
structure HostSide where
  /-- The accesses still to be made, in program order. -/
  script : List HostOp
  /-- The values read, oldest first. -/
  seen : List Word
  /-- For each coming accepted `CMD` write, the number of host accesses before its engine step (rule R490: any
  finite number, zero allowed). An empty list means zero. -/
  delays : List Nat
  /-- Host accesses still to come before the pending engine step. -/
  wait : Nat
  /-- How many unspecified reads have happened (the argument of `Config.unspecifiedRead`). -/
  drawn : Nat
  deriving DecidableEq, Repr

/-- No access to make, nothing read, no delay. -/
def HostSide.empty : HostSide := { script := [], seen := [], delays := [], wait := 0, drawn := 0 }

/-! ## The state -/

/-- The state of the machine, field by field as 10_state.md names it. -/
structure State where
  /-- The parameters of this instance (rule R7); `BS_CAPR` reads `config.bsCap`. -/
  config : Config
  /-- `ARG0` (R26) -/
  arg0 : Word
  /-- `RES` (R26) -/
  res : Word
  /-- `RESHI` (R26) -/
  resHi : Word
  /-- `STATUS.BUSY` (R23) -/
  busy : Bool
  /-- `STATUS.ERR` (R23) -/
  err : Bool
  /-- `STATUS.LOST` (R23) -/
  lost : Bool
  /-- `STATUS.ERRCODE` (R23, R420) -/
  errCode : ErrCode
  /-- `STATUS.MODE` (R23, R24) -/
  mode : Mode
  /-- `STATUS.CUM_VALID` (R32) -/
  cumValid : Bool
  /-- `STATUS.CT_VALID` (R35) -/
  ctValid : Bool
  /-- `STATUS.AC_STATE` (R23, R37) -/
  acState : AcState
  /-- `STATUS.AC_SINGLE` (R23, R37) -/
  acSingle : Bool
  /-- `ERRCMD` (R43, R422) -/
  errCmd : Word
  /-- `ERRPOS` (R43, R422) -/
  errPos : Word
  /-- `BS_WPOS` (R40) -/
  bsWpos : Word
  /-- `BS_RPOS` (R40) -/
  bsRpos : Word
  /-- `BS_RLIMIT` (R40) -/
  bsRlimit : Word
  /-- `BS_RLEN` (R41) -/
  bsRlen : Word
  /-- `MEMADDR` (R41) -/
  memAddr : Word
  /-- `FREQ` (R29) -/
  freq : Table Word
  /-- `TOTAL` (R30) -/
  total : DWord
  /-- `CUM` (R31) -/
  cum : Table DWord
  /-- `FT_NSYM` (R33) -/
  ftNsym : BitVec 9
  /-- `LEN` (R34) -/
  len : Table Byte
  /-- `CODE` (R34) -/
  code : Table CodeWord
  /-- `HUF_NSYM` (R36) -/
  hufNsym : BitVec 9
  /-- `HUF_MAXLEN` (R36) -/
  hufMaxlen : Byte
  /-- `AC_LOW` (R37) -/
  acLow : Word
  /-- `AC_HIGH` (R37) -/
  acHigh : Word
  /-- `AC_CODE` (R37) -/
  acCode : Word
  /-- `AC_PEND` (R37) -/
  acPend : Word
  /-- `AC_SYM` (R37) -/
  acSym : Sym
  /-- `BSMEM` (R39) -/
  bsmem : Memory
  /-- `PENDCMD` (R42) -/
  pendCmd : Word
  /-- The host agent (the model's own, log 5). -/
  host : HostSide
  deriving DecidableEq, Repr

/-- The power-on state of rule R470 for a configuration and the contents `BSMEM` happens to hold (rule R471: any
bytes). `PENDCMD` is 0 (rule R42: irrelevant; DESIGN CHOICE, log 4). -/
def State.powerOn (c : Config) (contents : Memory) : State where
  config := c
  arg0 := 0
  res := 0
  resHi := 0
  busy := false
  err := false
  lost := false
  errCode := .none
  mode := .huffman
  cumValid := true
  ctValid := false
  acState := .idle
  acSingle := false
  errCmd := 0
  errPos := 0
  bsWpos := 0
  bsRpos := 0
  bsRlimit := 0
  bsRlen := 0
  memAddr := 0
  freq := Vector.replicate 256 0
  total := 0
  cum := Vector.replicate 256 0
  ftNsym := 0
  len := Vector.replicate 256 0
  code := Vector.replicate 256 0
  hufNsym := 0
  hufMaxlen := 0
  acLow := 0
  acHigh := 0xFFFFFFFF
  acCode := 0
  acPend := 0
  acSym := 0
  bsmem := contents
  pendCmd := 0
  host := HostSide.empty

/-- The machine right after power-on (rules R470, R471), with the configuration of the vectors and nothing listed
in `BSMEM` (log 1, log 2, log 3). -/
def State.reset : State := State.powerOn Config.vectors []

end Sys2Proof.Machine
end

