-- ==== Sys2Proof/Machine/Tables.lean ====
section
/-! DEFINITION. The 256-entry tables by symbol (rules R29, R31, R34): reading, writing, building, searching. -/

namespace Sys2Proof.Machine

/-- All symbols, ascending (rule R15). -/
def allSyms : List Sym := (List.range 256).map (BitVec.ofNat 8)

/-- The entry of symbol `s`. -/
def tget {α : Type} (t : Table α) (s : Sym) : α := t[s.toNat]'s.isLt

/-- The table with the entry of `s` replaced. -/
def tset {α : Type} (t : Table α) (s : Sym) (v : α) : Table α := t.set s.toNat v s.isLt

/-- The table whose entry of `s` is `f s`. -/
def tmake {α : Type} (f : Sym → α) : Table α := ⟨⟨allSyms.map f⟩, by simp [allSyms]⟩

/-- The table with the same entry everywhere. -/
def tfill {α : Type} (v : α) : Table α := Vector.replicate 256 v

/-- The entries in ascending order of symbol. -/
def entries {α : Type} (t : Table α) : List (Sym × α) := allSyms.zip t.toList

/-- The smallest symbol with property `p`. -/
def findSym (p : Sym → Bool) : Option Sym := allSyms.find? p

/-- How many symbols have an entry that is not 0. -/
def countNonzero {w : Nat} (t : Table (BitVec w)) : Nat := t.toList.countP (· != 0)

end Sys2Proof.Machine
end

