-- ==== Sys2Proof/Machine/Operands.lean ====
section
/-! DEFINITION. The operands of the commands (rules R123, R124, R302) and what they name in the state. The `SYM`
and `IMM` operands stand in the constructor of `Instr`; the decoder assembled them. -/

namespace Sys2Proof.Machine

/-- The pattern operand of `BS.WR`: `ARG0` as a number (rules R26, R154). -/
def State.patternOperand (s : State) : Nat := s.arg0.toNat

/-- The count operand of `FT.LD`: `ARG0` (rules R26, R202). -/
def State.countOperand (s : State) : Word := s.arg0

/-- The mode a tag selects: 0 = Huffman, 1 = Arithmetic, no other (rules R24, R123, R356). -/
def modeOfTag (tag : Byte) : Option Mode :=
  if tag = 0 then some .huffman else if tag = 1 then some .arithmetic else none

/-- `T` = `TOTAL` (rule R302). -/
def State.totalCount (s : State) : Int := s.total.toNat

/-- `cumHigh(x)` = `CUM[x]` (rule R302). -/
def State.cumHigh (s : State) (x : Sym) : Int := (tget s.cum x).toNat

/-- `cumLow(x)` = `CUM[x]` − `FREQ[x]` (rule R302). -/
def State.cumLow (s : State) (x : Sym) : Int := s.cumHigh x - (tget s.freq x).toNat

/-- Whether the count of `x` is nonzero. -/
def State.present (s : State) (x : Sym) : Bool := tget s.freq x != 0

/-- "the s with FREQ[s] > 0" of a single-symbol model (rules R306, R311). -/
def State.loneSymbol (s : State) : Option Sym := findSym s.present

/-- The symbol of nonzero count whose interval contains `v` (rules R302, R312; 90_conflicts.md C14). -/
def State.symbolAt (s : State) (v : Int) : Option Sym :=
  findSym fun x => s.present x && decide (s.cumLow x ≤ v) && decide (v < s.cumHigh x)

/-- The first stream position after the last byte: 8·`BS_CAP` (rule R40). -/
def State.capBits (s : State) : Nat := s.config.capBits

end Sys2Proof.Machine
end

