-- ==== Sys2Proof/Machine/Flags.lean ====
section
/-! DEFINITION. The `STATUS` word and its fields (rule R23), the error codes (rule R420), and the gates that read
flags (rule R359). -/

namespace Sys2Proof.Machine

/-! ## Field values -/

/-- `STATUS.ERRCODE` (rule R420). -/
def ErrCode.bits : ErrCode → BitVec 4
  | .none => 0
  | .outOfData => 1
  | .corruptStream => 2
  | .emptyAlphabet => 3
  | .unsupportedMode => 4
  | .illegalCmd => 5
  | .badState => 6
  | .absentSymbol => 7
  | .countOverflow => 8
  | .modelTooLarge => 9
  | .bufferFull => 10

/-- `STATUS.MODE` (rules R23, R24). -/
def Mode.bits : Mode → BitVec 1
  | .huffman => 0
  | .arithmetic => 1

/-- `STATUS.AC_STATE` (rule R23). -/
def AcState.bits : AcState → BitVec 2
  | .idle => 0
  | .enc => 1
  | .dec => 2

/-- The `STATUS` register, most significant field first (rule R23). Bits 3 and 31:14 read 0. -/
def State.statusWord (s : State) : Word :=
  0#18 ++ BitVec.ofBool s.acSingle ++ s.acState.bits ++ BitVec.ofBool s.ctValid ++ BitVec.ofBool s.cumValid
    ++ s.mode.bits ++ s.errCode.bits ++ 0#1 ++ BitVec.ofBool s.lost ++ BitVec.ofBool s.err
    ++ BitVec.ofBool s.busy

/-! ## Gates (rules R359, R425) -/

/-- `if c is false then raise e`. -/
def guardRaise (c : Bool) (e : ErrCode) : Res Unit := if c then .ok () else .error (.raise e)

/-- The mode gate (rules R250, R300). -/
def State.requireMode (m : Mode) (s : State) : Res Unit := guardRaise (s.mode == m) .badState

/-- The session gate (rules R206, R306 to R313, R356). -/
def State.requireSession (a : AcState) (s : State) : Res Unit := guardRaise (s.acState == a) .badState

/-- The validity gate of the cumulative table (rules R205, R303). -/
def State.requireCum (s : State) : Res Unit := guardRaise s.cumValid .badState

/-- The validity gate of the code table (rules R256 to R258). -/
def State.requireCodes (s : State) : Res Unit := guardRaise s.ctValid .badState

end Sys2Proof.Machine
end

