-- ==== Sys2Proof/Machine/Ops.lean ====
section
/-! DEFINITION. The shared operations: `BSMEM` and its bits (20_memory.md, 41_bitstream.md section 1), result
registers, raising an error and returning from one (60_exceptions.md), and the end of a command's pseudocode. -/

namespace Sys2Proof.Machine

/-! ## Bytes -/

/-- The byte at an address; an address the list does not hold reads as `unlistedByte`. -/
def Memory.read : Memory → Nat → Byte
  | [], _ => unlistedByte
  | c :: m, a => if c.1 = a then c.2 else Memory.read m a

/-- The memory with the byte at `a` set to `v`, in canonical form. -/
def Memory.write : Memory → Nat → Byte → Memory
  | [], a, v => if v = unlistedByte then [] else [(a, v)]
  | c :: m, a, v =>
    if a < c.1 then (if v = unlistedByte then c :: m else (a, v) :: c :: m)
    else if a = c.1 then (if v = unlistedByte then m else (a, v) :: m)
    else c :: Memory.write m a v

/-- `MemRead(a, 1)` (rule R81), defined for a < `BS_CAP` only (log 8). -/
def memRead (a : Nat) (s : State) : Res Byte :=
  if a < s.config.bsCap then .ok (s.bsmem.read a) else .error (.fault (.bsmemAddress a))

/-- `MemWrite(a, 1, v)` (rule R81), defined for a < `BS_CAP` only (log 8). -/
def memWrite (a : Nat) (v : Byte) (s : State) : Res State :=
  if a < s.config.bsCap then .ok { s with bsmem := s.bsmem.write a v } else .error (.fault (.bsmemAddress a))

/-! ## Bits (rules R86, R87, R150 to R152) -/

/-- Bit position `p` of a memory: bit 7 − (p mod 8) of byte p div 8 (rule R86). -/
def Memory.bit (m : Memory) (p : Nat) : Bool := (m.read (p / 8)).getLsbD (7 - p % 8)

/-- `PutBit(b)` (rule R150). -/
def putBit (b : Bool) (s : State) : Res State := do
  let a := s.bsWpos.toNat / 8
  let o := s.bsWpos.toNat % 8
  let s ← if o = 0 then memWrite a 0 s else .ok s
  let s ← if b then (do let v ← memRead a s; memWrite a (v ||| (0x80#8 >>> o)) s) else .ok s
  .ok { s with bsWpos := s.bsWpos + 1 }

/-- `for i from k-1 down to 0: PutBit(v[i])` (rule R151). -/
def putBits (v : Nat) : Nat → State → Res State
  | 0, s => .ok s
  | i + 1, s => do putBits v i (← putBit (v.testBit i) s)

/-- `repeat k times: PutBit(b)` (rule R305). -/
def putRepeat (b : Bool) : Nat → State → Res State
  | 0, s => .ok s
  | k + 1, s => do putRepeat b k (← putBit b s)

/-- Whether `k` more bits fit (rules R151, R305). -/
def State.fits (k : Nat) (s : State) : Bool := decide (s.bsWpos.toNat + k ≤ s.capBits)

/-- `WriteBits(v, k)` (rule R151): the `k` low bits of `v`, most significant first, or nothing. -/
def writeBits (v k : Nat) (s : State) : Res State := do
  guardRaise (s.fits k) .bufferFull
  putBits v k s

/-- `GetBit(p)` (rule R151). -/
def getBit (p : Nat) (s : State) : Res Bool := do
  let v ← memRead (p / 8) s
  .ok (v.getLsbD (7 - p % 8))

/-- v <- (v << 1) | b on exact integers (rules R157, R258). -/
def shiftIn (v : Nat) (b : Bool) : Nat := 2 * v + b.toNat

/-- `k` bits from position `p` on, the first one most significant, after those already in `v` (rule R157). -/
def readBits (s : State) : Nat → Nat → Nat → Res Nat
  | 0, _, v => .ok v
  | k + 1, p, v => do readBits s k (p + 1) (shiftIn v (← getBit p s))

/-- `GetBitZF()` (rule R152): the next bit, or a 0 past the limit with the cursor left alone. -/
def getBitZF (s : State) : Res (Bool × State) :=
  if s.bsRpos.toNat < s.bsRlimit.toNat then do
    let b ← getBit s.bsRpos.toNat s
    .ok (b, { s with bsRpos := s.bsRpos + 1 })
  else .ok (false, s)

/-- trunc_P((r << 1) | b) (rules R305, R309). -/
def shiftWord (r : Word) (b : Bool) : Word := (r <<< 1) ||| (BitVec.ofBool b).setWidth 32

/-! ## Results (rule R26) -/

/-- A 32-bit result: `RES` <- v, `RESHI` <- 0. -/
def State.setResult (s : State) (v : Word) : State := { s with res := v, resHi := 0 }

/-- A 64-bit result: the low half in `RES`, the high half in `RESHI` (rule R88). -/
def State.setResult64 (s : State) (v : DWord) : State :=
  { s with res := v.extractLsb' 0 32, resHi := v.extractLsb' 32 32 }

/-! ## Errors (rules R420 to R424, R428) -/

/-- What `ERRPOS` records for an error (rules R420, R421). -/
def errorPosition (e : ErrCode) (s : State) : Word :=
  match e with
  | .outOfData => s.bsRpos
  | .corruptStream => s.bsRpos
  | .bufferFull => s.bsWpos
  | .none => 0
  | .emptyAlphabet => 0
  | .unsupportedMode => 0
  | .illegalCmd => 0
  | .badState => 0
  | .absentSymbol => 0
  | .countOverflow => 0
  | .modelTooLarge => 0

/-- `RaiseError(E, w)` with w = `PENDCMD`, on the state before the command (rules R421, R424): taking an
exception. -/
def raiseError (e : ErrCode) (s : State) : State :=
  { s with err := true, errCode := e, errCmd := s.pendCmd, errPos := errorPosition e s, busy := false }

/-- The return from an error (rules R355, R428): the latch is cleared, the record is kept. -/
def clearError (s : State) : State := { s with err := false, errCode := .none }

/-- The end of a command's pseudocode (rules R11, R350): its final state, or the error taken on the state `s` the
command started from, which undoes every write it made (rule R424). -/
def conclude (s : State) : Res State → Host.Outcome State Fault Refusal
  | .ok t => .next t
  | .error (.raise e) => .next (raiseError e s)
  | .error (.fault f) => .fault f

end Sys2Proof.Machine
end

