-- ==== Sys2Proof/Machine/Arithmetic.lean ====
section
/-! DEFINITION. The arithmetic range coder commands (44_arithmetic.md). Intermediate values are exact integers
(rule R9); a value is truncated to its register's width only where it is stored (log 10). -/

namespace Sys2Proof.Machine

/-! ## Model checks and session start (rules R303, R306, R311) -/

/-- `ModelCheck()` (rule R303). -/
def modelCheck (s : State) : Res Unit := do
  s.requireCum
  guardRaise (s.total != 0) .emptyAlphabet
  guardRaise (decide (s.total.toNat ≤ quarter)) .modelTooLarge

/-- Whether the model has exactly one symbol: `FT_NSYM` = 1 (rule R310). -/
def State.singleModel (s : State) : Bool := s.ftNsym == 1

/-- `AC_SYM` at session start: the lone symbol of a single-symbol model, else 0 (rules R306, R310, R311). -/
def sessionSymbol (s : State) : Res Sym :=
  if s.singleModel then
    match s.loneSymbol with
    | some x => .ok x
    | none => .error (.fault .noSuchSymbol)
  else .ok 0

/-- What `AC.EINIT` and `AC.DINIT` share: the gates, and the full interval (rules R306, R311). -/
def openSession (a : AcState) (s : State) : Res State := do
  s.requireMode .arithmetic
  s.requireSession .idle
  modelCheck s
  let x ← sessionSymbol s
  .ok { s with
    acLow := 0
    acHigh := BitVec.ofNat 32 arcMax
    acPend := 0
    acCode := 0
    acSingle := s.singleModel
    acSym := x
    acState := a }

/-! ## Narrowing (rule R304) -/

/-- range = `AC_HIGH` − `AC_LOW` + 1, exact (rule R304). -/
def State.acRange (s : State) : Int := s.acHigh.toNat - s.acLow.toNat + 1

/-- low + (range·c) div T for a cumulative count `c`: the scaled bound of rule R304. -/
def State.scaled (s : State) (c : Int) : Int := s.acLow.toNat + s.acRange * c / s.totalCount

/-- `Narrow(x)` (rule R304): both bounds from the old ones. -/
def narrow (x : Sym) (s : State) : Res State :=
  if 0 < s.totalCount then
    .ok { s with
      acHigh := BitVec.ofInt 32 (s.scaled (s.cumHigh x) - 1)
      acLow := BitVec.ofInt 32 (s.scaled (s.cumLow x)) }
  else .error (.fault .divisorNotPositive)

/-! ## Renormalization (rules R305, R309, R315) -/

/-- The three cases of rule R305. -/
inductive RenormCase where
  | e1
  | e2
  | e3
  deriving DecidableEq, Repr

/-- Which case applies to the bounds, tested in the order E1, E2, E3; none ends the loop (rules R305, R309). -/
def renormCase (low high : Word) : Option RenormCase :=
  if high.toNat < half then some .e1
  else if half ≤ low.toNat then some .e2
  else if quarter ≤ low.toNat ∧ high.toNat < 3 * quarter then some .e3
  else none

/-- XOR with `QUARTER`: "complement the second bit" (rules R305, R309). -/
def flipSecond (r : Word) : Word := r ^^^ BitVec.ofNat 32 quarter

/-- The shift of both bounds, `AC_LOW` refilled with 0 and `AC_HIGH` with 1 (rule R305). -/
def shiftBounds (s : State) : State :=
  { s with acLow := shiftWord s.acLow false, acHigh := shiftWord s.acHigh true }

/-- `Emit(b)` (rule R305). -/
def emit (b : Bool) (s : State) : Res State := do
  guardRaise (s.fits (1 + s.acPend.toNat)) .bufferFull
  let t ← putRepeat (!b) s.acPend.toNat (← putBit b s)
  .ok { t with acPend := 0 }

/-- `AC_PEND` <- `AC_PEND` + 1, or `COUNT_OVERFLOW` (rules R305, R308). -/
def addPending (s : State) : Res State := do
  guardRaise (decide (s.acPend.toNat ≠ countMax)) .countOverflow
  .ok { s with acPend := s.acPend + 1 }

/-- The part of one `EncRenorm` iteration before the shift (rule R305). -/
def encCase (c : RenormCase) (s : State) : Res State :=
  match c with
  | .e1 => emit false s
  | .e2 => emit true s
  | .e3 => do
    let t ← addPending s
    .ok { t with acLow := flipSecond t.acLow, acHigh := flipSecond t.acHigh }

/-- `EncRenorm()` (rule R305). After 32 shifts the bounds are 0 and `MAX`, where no case applies, so `fuel` = P is
enough iterations from any bounds. -/
def encRenorm : Nat → State → Res State
  | 0, s => .ok s
  | fuel + 1, s =>
    match renormCase s.acLow s.acHigh with
    | none => .ok s
    | some c => do encRenorm fuel (shiftBounds (← encCase c s))

/-- `AC_CODE` <- trunc_P((`AC_CODE` << 1) | `GetBitZF()`) (rules R309, R311). -/
def shiftCode (s : State) : Res State := do
  let (b, t) ← getBitZF s
  .ok { t with acCode := shiftWord t.acCode b }

/-- The part of one `DecRenorm` iteration before the shift (rule R309). -/
def decCase (c : RenormCase) (s : State) : State :=
  match c with
  | .e1 => s
  | .e2 => s
  | .e3 => { s with acLow := flipSecond s.acLow, acHigh := flipSecond s.acHigh, acCode := flipSecond s.acCode }

/-- `DecRenorm()` (rule R309), with the fuel of `encRenorm`. -/
def decRenorm : Nat → State → Res State
  | 0, s => .ok s
  | fuel + 1, s =>
    match renormCase s.acLow s.acHigh with
    | none => .ok s
    | some c => do decRenorm fuel (← shiftCode (shiftBounds (decCase c s)))

/-- `repeat k times: AC_CODE <- (AC_CODE << 1) | GetBitZF()` (rule R311). -/
def loadCode : Nat → State → Res State
  | 0, s => .ok s
  | k + 1, s => do loadCode k (← shiftCode s)

/-- value = ((`AC_CODE` − `AC_LOW` + 1)·T − 1) div range, exact (rule R312). -/
def codeValue (s : State) : Res Int :=
  if 0 < s.acRange then .ok (((s.acCode.toNat - s.acLow.toNat + 1) * s.totalCount - 1) / s.acRange)
  else .error (.fault .divisorNotPositive)

/-! ## The commands -/

/-- `AC.EINIT` (rule R306). -/
def execAcEinit (s : State) : Host.Outcome State Fault Refusal := conclude s (openSession .enc s)

/-- `AC.ENC x` (rule R307). -/
def execAcEnc (x : Sym) (s : State) : Host.Outcome State Fault Refusal := conclude s do
  s.requireMode .arithmetic
  s.requireSession .enc
  guardRaise (s.present x) .absentSymbol
  if s.acSingle then .ok s
  else encRenorm arcPrecision (← narrow x s)

/-- `AC.EFIN` (rule R308). -/
def execAcEfin (s : State) : Host.Outcome State Fault Refusal := conclude s do
  s.requireMode .arithmetic
  s.requireSession .enc
  if s.acSingle then .ok { s with acState := .idle }
  else do
    let t ← emit (!decide (s.acLow.toNat < quarter)) (← addPending s)
    .ok { t with acState := .idle }

/-- `AC.DINIT` (rule R311). -/
def execAcDinit (s : State) : Host.Outcome State Fault Refusal := conclude s do
  let t ← openSession .dec s
  if t.acSingle then .ok t
  else loadCode arcPrecision t

/-- `AC.DEC` (rule R312). -/
def execAcDec (s : State) : Host.Outcome State Fault Refusal := conclude s do
  s.requireMode .arithmetic
  s.requireSession .dec
  if s.acSingle then .ok (s.setResult (s.acSym.setWidth 32))
  else do
    let v ← codeValue s
    guardRaise (decide (0 ≤ v) && decide (v < s.totalCount)) .corruptStream
    match s.symbolAt v with
    | none => .error (.fault .noSuchSymbol)
    | some x => do
      let t ← decRenorm arcPrecision (← narrow x s)
      .ok (t.setResult (x.setWidth 32))

/-- `AC.DFIN` (rule R313). -/
def execAcDfin (s : State) : Host.Outcome State Fault Refusal := conclude s do
  s.requireMode .arithmetic
  s.requireSession .dec
  .ok { s with acState := .idle }

end Sys2Proof.Machine
end

