-- ==== Sys2Proof/Machine/BitStream.lean ====
section
/-! DEFINITION. The bit-stream commands (41_bitstream.md section 2). -/

namespace Sys2Proof.Machine

/-- The position `p` rounded up to the next byte boundary: 8·((p + 7) div 8) (rule R155). -/
def padToByte (p : Nat) : Nat := 8 * ((p + 7) / 8)

/-- `BS.WINIT` (rule R153). -/
def execBsWinit (s : State) : Host.Outcome State Fault Refusal := conclude s (.ok { s with bsWpos := 0 })

/-- `BS.WR n` (rule R154). -/
def execBsWr (n : Nat) (s : State) : Host.Outcome State Fault Refusal :=
  conclude s (writeBits s.patternOperand n s)

/-- `BS.FLUSH` (rule R155). -/
def execBsFlush (s : State) : Host.Outcome State Fault Refusal :=
  let p := padToByte s.bsWpos.toNat
  conclude s (.ok ({ s with bsWpos := BitVec.ofNat 32 p }.setResult (BitVec.ofNat 32 (p / 8))))

/-- `BS.RINIT` (rule R156). -/
def execBsRinit (s : State) : Host.Outcome State Fault Refusal :=
  conclude s (.ok { s with bsRpos := 0, bsRlimit := BitVec.ofNat 32 (8 * s.bsRlen.toNat) })

/-- `BS.RD n` (rule R157). -/
def execBsRd (n : Nat) (s : State) : Host.Outcome State Fault Refusal := conclude s do
  guardRaise (decide (s.bsRpos.toNat + n ≤ s.bsRlimit.toNat)) .outOfData
  let v ← readBits s n s.bsRpos.toNat 0
  .ok ({ s with bsRpos := s.bsRpos + BitVec.ofNat 32 n }.setResult (BitVec.ofNat 32 v))

end Sys2Proof.Machine
end

