-- ==== Sys2Proof/Machine/Control.lean ====
section
/-! DEFINITION. The control commands (45_control.md section 2): NOP, CTL.RESET, CTL.CLRERR, CTR.MODE. -/

namespace Sys2Proof.Machine

/-- Every piece of state of rule R470 at its reset value, except `BSMEM` (rules R354, R472). The parameters and the
host's own side are no state of rule R470. -/
def engineReset (s : State) : State := { State.powerOn s.config s.bsmem with host := s.host }

/-- `NOP` (rule R353). -/
def execNop (s : State) : Host.Outcome State Fault Refusal := conclude s (.ok s)

/-- `CTL.RESET` (rules R354, R472). -/
def execCtlReset (s : State) : Host.Outcome State Fault Refusal := conclude s (.ok (engineReset s))

/-- `CTL.CLRERR` (rules R355, R428). -/
def execCtlClrerr (s : State) : Host.Outcome State Fault Refusal := conclude s (.ok (clearError s))

/-- `CTR.MODE tag` (rule R356). -/
def execCtrMode (tag : Byte) (s : State) : Host.Outcome State Fault Refusal := conclude s do
  s.requireSession .idle
  match modeOfTag tag with
  | some m => .ok { s with mode := m }
  | none => .error (.raise .unsupportedMode)

end Sys2Proof.Machine
end

