-- ==== Sys2Proof/Machine/Frequency.lean ====
section
/-! DEFINITION. The frequency-table commands (42_frequency.md). -/

namespace Sys2Proof.Machine

/-- The running sums of a list of counts, from `acc` on: the loop of rule R204. -/
def prefixSums (acc : Nat) : List Word → List DWord
  | [] => []
  | f :: fs => BitVec.ofNat 64 (acc + f.toNat) :: prefixSums (acc + f.toNat) fs

theorem prefixSums_length (fs : List Word) : ∀ acc, (prefixSums acc fs).length = fs.length := by
  induction fs with
  | nil => intro acc; rfl
  | cons f fs ih => intro acc; simp [prefixSums, ih]

/-- The cumulative table of a frequency table: `CUM[s]` = Σ_{t ≤ s} `FREQ[t]` (rules R31, R204). -/
def cumTable (freq : Table Word) : Table DWord :=
  ⟨⟨prefixSums 0 freq.toList⟩, by simp [prefixSums_length]⟩

/-- The number of symbols with a nonzero count (rules R33, R204). -/
def nonzeroCounts (freq : Table Word) : Nat := countNonzero freq

/-- `FT.CLR` (rule R200). -/
def execFtClr (s : State) : Host.Outcome State Fault Refusal := conclude s do
  s.requireSession .idle
  .ok { s with freq := tfill 0, cum := tfill 0, total := 0, ftNsym := 0, cumValid := true }

/-- `FT.ACC x` (rule R201). -/
def execFtAcc (x : Sym) (s : State) : Host.Outcome State Fault Refusal := conclude s do
  s.requireSession .idle
  guardRaise (decide ((tget s.freq x).toNat ≠ countMax)) .countOverflow
  .ok { s with freq := tset s.freq x (tget s.freq x + 1), total := s.total + 1, cumValid := false }

/-- `FT.LD x` (rule R202). -/
def execFtLd (x : Sym) (s : State) : Host.Outcome State Fault Refusal := conclude s do
  s.requireSession .idle
  let c := s.countOperand
  .ok { s with
    total := s.total - (tget s.freq x).setWidth 64 + c.setWidth 64
    freq := tset s.freq x c
    cumValid := false }

/-- `FT.RD x` (rule R203). -/
def execFtRd (x : Sym) (s : State) : Host.Outcome State Fault Refusal :=
  conclude s (.ok (s.setResult (tget s.freq x)))

/-- `FT.CUM` (rule R204). -/
def execFtCum (s : State) : Host.Outcome State Fault Refusal :=
  conclude s (.ok { s with
    cum := cumTable s.freq
    ftNsym := BitVec.ofNat 9 (nonzeroCounts s.freq)
    cumValid := true })

/-- `FT.CRD x` (rule R205). -/
def execFtCrd (x : Sym) (s : State) : Host.Outcome State Fault Refusal := conclude s do
  s.requireCum
  .ok (s.setResult64 (tget s.cum x))

end Sys2Proof.Machine
end

