-- ==== Sys2Proof/Machine/Huffman.lean ====
section
/-! DEFINITION. The Huffman commands (43_huffman.md): building code lengths from counts, canonical codes from
lengths, encoding and decoding symbols. -/

namespace Sys2Proof.Machine

/-! ## BuildLengths (rule R251) -/

/-- A node of the tree; transient, not state (rules R16, R34). -/
inductive HuffNode where
  | leaf (sym : Sym) (weight : Nat)
  | internal (weight : Nat) (left right : HuffNode) (seqno : Nat)
  deriving DecidableEq, Repr

/-- The weight of a node. -/
def HuffNode.weight : HuffNode → Nat
  | .leaf _ w => w
  | .internal w _ _ _ => w

/-- Whether `a` comes out of the queue before `b`: the keys (w, 0, s) of a leaf and (w, 1, q) of an internal node,
compared lexicographically (rule R251). Leaves come before internal nodes of the same weight
(93_implementation_defined.md I1). -/
def HuffNode.before : HuffNode → HuffNode → Bool
  | .leaf s w, .leaf s' w' => decide (w < w' ∨ (w = w' ∧ s.toNat < s'.toNat))
  | .leaf _ w, .internal w' _ _ _ => decide (w ≤ w')
  | .internal w _ _ _, .leaf _ w' => decide (w < w')
  | .internal w _ _ q, .internal w' _ _ q' => decide (w < w' ∨ (w = w' ∧ q < q'))

/-- `RemoveMin(Q)`: the node of smallest key and the rest, or `none` for an empty queue (rule R251). -/
def removeMin : List HuffNode → Option (HuffNode × List HuffNode)
  | [] => none
  | n :: ns =>
    match removeMin ns with
    | none => some (n, [])
    | some (m, rest) => if n.before m then some (n, ns) else some (m, n :: rest)

/-- `while |Q| > 1`: merge the two smallest nodes (rule R251). Each round makes the queue one shorter, so `fuel`
= |Q| is enough rounds. -/
def mergeAll : Nat → Nat → List HuffNode → List HuffNode
  | 0, _, q => q
  | fuel + 1, seq, q =>
    match removeMin q with
    | none => q
    | some (a, q₁) =>
      match removeMin q₁ with
      | none => q
      | some (b, q₂) => mergeAll fuel (seq + 1) (.internal (a.weight + b.weight) a b seq :: q₂)

/-- The number of edges from a node at depth `d` down to each leaf below it. -/
def HuffNode.depths (d : Nat) : HuffNode → List (Sym × Nat)
  | .leaf s _ => [(s, d)]
  | .internal _ l r _ => l.depths (d + 1) ++ r.depths (d + 1)

/-- The initial queue: a leaf for every symbol of nonzero count (rule R251). -/
def leafQueue (freq : Table Word) : List HuffNode :=
  ((entries freq).filter fun e => e.2 != 0).map fun e => .leaf e.1 e.2.toNat

/-- The depth of every present symbol: 1 for a lone symbol, otherwise its depth in the tree (rule R251). -/
def symbolDepths (freq : Table Word) : List (Sym × Nat) :=
  match leafQueue freq with
  | [] => []
  | [n] => n.depths 1
  | q => (mergeAll q.length 0 q).flatMap (HuffNode.depths 0)

/-- `BuildLengths(F)` (rule R251). Every depth is at most 255 (rule R259). -/
def buildLengths (freq : Table Word) : Table Byte :=
  let ds := symbolDepths freq
  tmake fun x => BitVec.ofNat 8 ((ds.lookup x).getD 0)

/-! ## Canon (rule R252) -/

/-- (length, symbol) of every symbol with a code, in ascending order of length, then symbol. -/
def codeOrder (len : Table Byte) : List (Nat × Sym) :=
  (((entries len).filter fun e => e.2 != 0).map fun e => (e.2.toNat, e.1)).insertionSort
    fun a b => a.1 < b.1 ∨ (a.1 = b.1 ∧ a.2.toNat ≤ b.2.toNat)

/-- The loop of rule R252 without its FAIL test: (symbol, length, code) for each entry; `prev` is the code and
length before the first. -/
def assignCodes : Option (Nat × Nat) → List (Nat × Sym) → List (Sym × Nat × Nat)
  | _, [] => []
  | prev, (l, x) :: rest =>
    let c := match prev with
      | none => 0
      | some (c, lprev) => (c + 1) <<< (l - lprev)
    (x, l, c) :: assignCodes (some (c, l)) rest

/-- The codes of a length table, 0 for an absent symbol. -/
def canonCodes (len : Table Byte) : Table CodeWord :=
  let cs := assignCodes none (codeOrder len)
  tmake fun x => BitVec.ofNat 255 (((cs.lookup x).map Prod.snd).getD 0)

/-- No code of the table passes the code space of its length: the negation of the FAIL test of rule R252. -/
def codesFit (len : Table Byte) : Bool :=
  (assignCodes none (codeOrder len)).all fun e => decide (e.2.2 < 2 ^ e.2.1)

/-- `Canon(L)` (rule R252): the code table, or `none` for FAIL. -/
def canon (len : Table Byte) : Option (Table CodeWord) := if codesFit len then some (canonCodes len) else none

/-- #{ s : L[s] > 0 } (rules R36, R251, R253). -/
def nonzeroLengths (len : Table Byte) : Nat := countNonzero len

/-- max(L[0..255]) (rules R36, R251, R253). -/
def maxLength (len : Table Byte) : Nat := len.toList.foldl (fun m l => max m l.toNat) 0

/-- `CODE`, `HUF_NSYM`, `HUF_MAXLEN` and `CT_VALID` for the code table `codes` of the current `LEN` (rules R251,
R253). -/
def State.withCodes (s : State) (codes : Table CodeWord) : State :=
  { s with
    code := codes
    hufNsym := BitVec.ofNat 9 (nonzeroLengths s.len)
    hufMaxlen := BitVec.ofNat 8 (maxLength s.len)
    ctValid := true }

/-! ## Decoding (rule R258) -/

/-- "there is an s with LEN[s] = l and CODE[s] = v" (rule R258). -/
def State.symbolOfCode (s : State) (l v : Nat) : Option Sym :=
  findSym fun x => decide ((tget s.len x).toNat = l) && decide ((tget s.code x).toNat = v)

/-- The decode walk of rule R258 after `l` bits with value `v`; `fuel` = `HUF_MAXLEN` − l. The result is the symbol
and its code's length. -/
def decodeWalk (s : State) : Nat → Nat → Nat → Res (Sym × Nat)
  | 0, _, _ => .error (.raise .corruptStream)
  | fuel + 1, l, v => do
    guardRaise (decide (s.bsRpos.toNat + l < s.bsRlimit.toNat)) .outOfData
    let v := shiftIn v (← getBit (s.bsRpos.toNat + l) s)
    match s.symbolOfCode (l + 1) v with
    | some x => .ok (x, l + 1)
    | none => decodeWalk s fuel (l + 1) v

/-! ## The commands -/

/-- `HUF.BUILD` (rule R251): "never FAIL for these L", so the codes are stored without the test (log 11). -/
def execHufBuild (s : State) : Host.Outcome State Fault Refusal := conclude s do
  s.requireMode .huffman
  let lens := buildLengths s.freq
  .ok ({ s with len := lens }.withCodes (canonCodes lens))

/-- `HUF.LDLEN x, n` (rule R254). -/
def execHufLdlen (x : Sym) (n : Byte) (s : State) : Host.Outcome State Fault Refusal := conclude s do
  s.requireMode .huffman
  .ok { s with len := tset s.len x n, ctValid := false }

/-- `HUF.CANON` (rule R253). -/
def execHufCanon (s : State) : Host.Outcome State Fault Refusal := conclude s do
  s.requireMode .huffman
  match canon s.len with
  | none => .error (.raise .corruptStream)
  | some codes => .ok (s.withCodes codes)

/-- `HUF.RDLEN x` (rule R255). -/
def execHufRdlen (x : Sym) (s : State) : Host.Outcome State Fault Refusal := conclude s do
  s.requireMode .huffman
  .ok (s.setResult ((tget s.len x).setWidth 32))

/-- `HUF.RDCODE x, k` (rule R256). -/
def execHufRdcode (x : Sym) (k : Nat) (s : State) : Host.Outcome State Fault Refusal := conclude s do
  s.requireMode .huffman
  s.requireCodes
  .ok (s.setResult ((tget s.code x).extractLsb' (32 * k) 32))

/-- `HUF.ENC x` (rule R257). -/
def execHufEnc (x : Sym) (s : State) : Host.Outcome State Fault Refusal := conclude s do
  s.requireMode .huffman
  s.requireCodes
  guardRaise (tget s.len x != 0) .absentSymbol
  writeBits (tget s.code x).toNat (tget s.len x).toNat s

/-- `HUF.DEC` (rule R258). -/
def execHufDec (s : State) : Host.Outcome State Fault Refusal := conclude s do
  s.requireMode .huffman
  s.requireCodes
  let (x, l) ← decodeWalk s s.hufMaxlen.toNat 0 0
  .ok ({ s with bsRpos := s.bsRpos + BitVec.ofNat 32 l }.setResult (x.setWidth 32))

end Sys2Proof.Machine
end

