-- ==== Sys2Proof/Machine/Dispatch.lean ====
section
/-! DEFINITION. `Execute` of rule R350: one arm per command, each one call of its meaning. -/

namespace Sys2Proof.Machine

def exec (i : Instr) (s : State) : Host.Outcome State Fault Refusal :=
  match i with
  | .nop => Sys2Proof.Machine.execNop s
  | .ctlReset => Sys2Proof.Machine.execCtlReset s
  | .ctlClrerr => Sys2Proof.Machine.execCtlClrerr s
  | .ctrMode tag => Sys2Proof.Machine.execCtrMode tag s
  | .bsWinit => Sys2Proof.Machine.execBsWinit s
  | .bsWr n => Sys2Proof.Machine.execBsWr n s
  | .bsFlush => Sys2Proof.Machine.execBsFlush s
  | .bsRinit => Sys2Proof.Machine.execBsRinit s
  | .bsRd n => Sys2Proof.Machine.execBsRd n s
  | .ftClr => Sys2Proof.Machine.execFtClr s
  | .ftAcc x => Sys2Proof.Machine.execFtAcc x s
  | .ftLd x => Sys2Proof.Machine.execFtLd x s
  | .ftRd x => Sys2Proof.Machine.execFtRd x s
  | .ftCum => Sys2Proof.Machine.execFtCum s
  | .ftCrd x => Sys2Proof.Machine.execFtCrd x s
  | .hufBuild => Sys2Proof.Machine.execHufBuild s
  | .hufLdlen x n => Sys2Proof.Machine.execHufLdlen x n s
  | .hufCanon => Sys2Proof.Machine.execHufCanon s
  | .hufRdlen x => Sys2Proof.Machine.execHufRdlen x s
  | .hufRdcode x k => Sys2Proof.Machine.execHufRdcode x k s
  | .hufEnc x => Sys2Proof.Machine.execHufEnc x s
  | .hufDec => Sys2Proof.Machine.execHufDec s
  | .acEinit => Sys2Proof.Machine.execAcEinit s
  | .acEnc x => Sys2Proof.Machine.execAcEnc x s
  | .acEfin => Sys2Proof.Machine.execAcEfin s
  | .acDinit => Sys2Proof.Machine.execAcDinit s
  | .acDec => Sys2Proof.Machine.execAcDec s
  | .acDfin => Sys2Proof.Machine.execAcDfin s

end Sys2Proof.Machine
end

