-- ==== Sys2Proof/Machine/Engine.lean ====
section
/-! DEFINITION. The engine step (rule R350): sticky discard, legality, execution, and the end of `BUSY`. -/

namespace Sys2Proof.Machine

/-- The two commands the engine accepts while `ERR` = 1 (rules R350, R352). -/
def acceptedUnderError (i : Instr) : Bool := i == .ctlReset || i == .ctlClrerr

/-- `BUSY` <- 0 (rule R350). -/
def endCommand (s : State) : State := { s with busy := false }

/-- `BUSY` <- 0 after a command that gave a next state. -/
def finishCommand : Host.Outcome State Fault Refusal → Host.Outcome State Fault Refusal
  | .next t => .next (endCommand t)
  | .fault f => .fault f
  | .refused r => .refused r

/-- `EngineStep()` (rule R350). A word that is not `Legal` raises `ILLEGAL_CMD`; under the sticky error it is
discarded like any other (rule R352). -/
def engineStep (s : State) : Host.Outcome State Fault Refusal :=
  match decode s.pendCmd with
  | none => .next (endCommand (if s.err then s else raiseError .illegalCmd s))
  | some i => if s.err && !acceptedUnderError i then .next (endCommand s) else finishCommand (exec i s)

end Sys2Proof.Machine
end

