-- ==== Sys2Proof/Machine/HostPort.lean ====
section
/-! DEFINITION. The host's side of the machine: the register map (rule R21), the effect of each register access
(rules R22, R83, R84, R351, R357, R480, R481), and one turn of the host agent. -/

namespace Sys2Proof.Machine

/-! ## The register map (rule R21) -/

/-- The named registers of rule R21. -/
inductive Reg where
  | id | cmd | arg0 | res | resHi | status | errCmd | errPos
  | bsWpos | bsRpos | bsRlimit | bsRlen | memAddr | memData | bsCapr
  | totalLo | totalHi | ftNsym | hufNsym | hufMaxlen
  | acLow | acHigh | acCode | acPend | acSym
  deriving DecidableEq, Repr

/-- The offset of a register (rule R21). -/
def Reg.offset : Reg → Nat
  | .id => 0x00
  | .cmd => 0x04
  | .arg0 => 0x08
  | .res => 0x0C
  | .resHi => 0x10
  | .status => 0x14
  | .errCmd => 0x18
  | .errPos => 0x1C
  | .bsWpos => 0x20
  | .bsRpos => 0x24
  | .bsRlimit => 0x28
  | .bsRlen => 0x2C
  | .memAddr => 0x30
  | .memData => 0x34
  | .bsCapr => 0x38
  | .totalLo => 0x3C
  | .totalHi => 0x40
  | .ftNsym => 0x44
  | .hufNsym => 0x48
  | .hufMaxlen => 0x4C
  | .acLow => 0x50
  | .acHigh => 0x54
  | .acCode => 0x58
  | .acPend => 0x5C
  | .acSym => 0x60

/-- The registers in the order of their offsets. -/
def Reg.all : List Reg :=
  [.id, .cmd, .arg0, .res, .resHi, .status, .errCmd, .errPos, .bsWpos, .bsRpos, .bsRlimit, .bsRlen, .memAddr,
   .memData, .bsCapr, .totalLo, .totalHi, .ftNsym, .hufNsym, .hufMaxlen, .acLow, .acHigh, .acCode, .acPend, .acSym]

/-- The register at an offset; none at a reserved offset (rules R21, R92). -/
def regAt (offset : Nat) : Option Reg := Reg.all.find? fun r => r.offset == offset

/-! ## Reads (rules R83, R357, R481) -/

/-- What the window reads: the byte at `MEMADDR`, or 0 from `BS_CAP` on (rule R83). -/
def State.windowByte (s : State) : Byte :=
  if s.memAddr.toNat < s.config.bsCap then s.bsmem.read s.memAddr.toNat else 0

/-- The value of a register while `BUSY` = 0 (rules R21, R88). -/
def State.regValue (s : State) : Reg → Word
  | .id => idWord
  | .cmd => 0
  | .arg0 => s.arg0
  | .res => s.res
  | .resHi => s.resHi
  | .status => s.statusWord
  | .errCmd => s.errCmd
  | .errPos => s.errPos
  | .bsWpos => s.bsWpos
  | .bsRpos => s.bsRpos
  | .bsRlimit => s.bsRlimit
  | .bsRlen => s.bsRlen
  | .memAddr => s.memAddr
  | .memData => s.windowByte.setWidth 32
  | .bsCapr => BitVec.ofNat 32 s.config.bsCap
  | .totalLo => s.total.extractLsb' 0 32
  | .totalHi => s.total.extractLsb' 32 32
  | .ftNsym => s.ftNsym.setWidth 32
  | .hufNsym => s.hufNsym.setWidth 32
  | .hufMaxlen => s.hufMaxlen.setWidth 32
  | .acLow => s.acLow
  | .acHigh => s.acHigh
  | .acCode => s.acCode
  | .acPend => s.acPend
  | .acSym => s.acSym.setWidth 32

/-- `MEMADDR` <- trunc_32(`MEMADDR` + 1) (rules R83, R84). -/
def State.nextWindow (s : State) : State := { s with memAddr := s.memAddr + 1 }

/-- The read of an unspecified value (rules R25, R481): a fresh free value, no side effect (log 6). -/
def State.unspecified (s : State) : Word × State :=
  (Config.unspecifiedRead s.host.drawn, { s with host := { s.host with drawn := s.host.drawn + 1 } })

/-- A host read at an aligned offset (rules R83, R357, R481): the value and the state after it. While `BUSY` = 1
only `ID` and `STATUS` are exact; every other offset is unspecified, reserved ones too (log 6). -/
def hostRead (offset : Nat) (s : State) : Word × State :=
  match regAt offset with
  | some .id => (idWord, s)
  | some .status => (s.statusWord, s)
  | some r =>
    if s.busy then s.unspecified
    else if r = .memData then (s.regValue r, s.nextWindow)
    else (s.regValue r, s)
  | none => if s.busy then s.unspecified else (0, s)

/-! ## Writes (rules R84, R351, R357, R480) -/

/-- A write discarded because `BUSY` = 1 (rules R351, R480). -/
def State.loseWrite (s : State) : State := { s with lost := true }

/-- An accepted `CMD` write (rules R22, R351). The number of host accesses before its engine step comes from the
list of delays (rule R490, log 5). -/
def State.acceptCommand (w : Word) (s : State) : State :=
  { s with
    pendCmd := w
    busy := true
    host := { s.host with wait := s.host.delays.headD 0, delays := s.host.delays.tail } }

/-- The window write (rule R84): bits w[31:8] are ignored, and an address ≥ `BS_CAP` stores nothing. -/
def State.windowWrite (w : Word) (s : State) : State :=
  if s.memAddr.toNat < s.config.bsCap then
    { s with bsmem := s.bsmem.write s.memAddr.toNat (w.setWidth 8) }.nextWindow
  else s.nextWindow

/-- What a `BS_RLEN` write of `w` stores: min(w, `BS_CAP`) (rules R41, R357). -/
def clampLength (c : Config) (w : Word) : Word := BitVec.ofNat 32 (min w.toNat c.bsCap)

/-- A host write at an aligned offset (rule R357). -/
def hostWrite (offset : Nat) (w : Word) (s : State) : State :=
  match regAt offset with
  | some .status => if w.getLsbD 2 then { s with lost := false } else s
  | some .cmd => if s.busy then s.loseWrite else s.acceptCommand w
  | some .arg0 => if s.busy then s.loseWrite else { s with arg0 := w }
  | some .bsRlen => if s.busy then s.loseWrite else { s with bsRlen := clampLength s.config w }
  | some .memAddr => if s.busy then s.loseWrite else { s with memAddr := w }
  | some .memData => if s.busy then s.loseWrite else s.windowWrite w
  | some _ => s
  | none => s

/-! ## One turn of the host agent (rules R94, R128, R130) -/

/-- The offset an access of this size at this host address has in the register space, or why the model refuses it
(rules R85, R92; log 7). -/
def accessOffset (c : Config) (size : AccessSize) (addr : Nat) : Except Refusal Nat :=
  if addr < c.eceBase ∨ c.eceBase + 256 ≤ addr then .error .outsideRegisterSpace
  else if size = .word ∧ (addr - c.eceBase) % 4 = 0 then .ok (addr - c.eceBase)
  else .error .registerAccessShape

/-- The host's program goes on with `ops`. -/
def State.withScript (s : State) (ops : List HostOp) : State := { s with host := { s.host with script := ops } }

/-- The host has read `v`. -/
def State.recordRead (s : State) (v : Word) : State := { s with host := { s.host with seen := s.host.seen ++ [v] } }

/-- One host access has passed while a command is pending (rule R490, log 5). -/
def State.countAccess (s : State) : State :=
  if s.busy then { s with host := { s.host with wait := s.host.wait - 1 } } else s

/-- One access of the host's program, or nothing where the program is at its end (rule R437: all state is kept
while idle). The access is counted before its effect, so that a `CMD` write starts its own delay. -/
def hostTurn (s : State) : Host.Outcome State Fault Refusal :=
  match s.host.script with
  | [] => .next s
  | .write size addr v :: ops =>
    match accessOffset s.config size addr with
    | .ok off => .next (hostWrite off v (s.countAccess.withScript ops))
    | .error r => .refused r
  | .read size addr :: ops =>
    match accessOffset s.config size addr with
    | .ok off => let (v, t) := hostRead off (s.countAccess.withScript ops); .next (t.recordRead v)
    | .error r => .refused r
  | .wait :: ops => .next (if s.busy then s.countAccess else s.withScript ops)
  | .check :: ops => .next ((s.countAccess.withScript (if s.err then [] else ops)).recordRead s.statusWord)

/-- One event of the interleaving of rule R94: the engine step of a pending command once its delay has passed (or
the host has nothing more to do, so that every accepted command finishes, rule R358), otherwise the host's turn. -/
def machineStep (s : State) : Host.Outcome State Fault Refusal :=
  if s.busy && (s.host.wait == 0 || s.host.script.isEmpty) then engineStep s else hostTurn s

end Sys2Proof.Machine
end

