-- ==== Sys2Proof/Machine/Step.lean ====
section
/-! DEFINITION. The step of the machine, and the placing of a command where it fetches. -/

namespace Sys2Proof.Machine

/-- One step: one atomic event of rule R94. -/
def step : State → Host.Outcome State Fault Refusal := fun s => machineStep s

/-- `s` with a command of `nbits` bits `w` latched in `PENDCMD` and its engine step next: what an accepted `CMD`
write with no delay leaves (rules R22, R351; log 5). The engine takes its next command from `PENDCMD` alone. -/
def State.withFetchWord (s : State) (nbits w : Nat) : State :=
  { s with
    pendCmd := BitVec.ofNat 32 (w % 2 ^ nbits)
    busy := true
    host := { s.host with wait := 0 } }

end Sys2Proof.Machine
end

