-- ==== Sys2Proof/Laws/Decode.lean ====
section
/-! SUPPORT. The fields of the words the encoder packs, and what each format accepts. -/

namespace Sys2Proof

theorem packWord_toNat (opc s n : Byte) : (packWord opc s n).toNat = opc.toNat + 256 * s.toNat + 65536 * n.toNat := by
  have h1 := opc.isLt
  have h2 := s.isLt
  have h3 := n.isLt
  simp only [packWord, BitVec.toNat_append, BitVec.toNat_ofNat, Nat.zero_mod, Nat.zero_shiftLeft, Nat.zero_or]
  rw [← Nat.shiftLeft_add_eq_or_of_lt h2, ← Nat.shiftLeft_add_eq_or_of_lt h1]
  simp only [Nat.shiftLeft_eq]
  omega

@[simp] theorem fieldOpc_packWord (opc s n : Byte) : fieldOpc (packWord opc s n) = opc := by
  have h1 := opc.isLt
  apply BitVec.eq_of_toNat_eq
  simp only [fieldOpc, BitVec.extractLsb'_toNat, packWord_toNat, Nat.shiftRight_eq_div_pow]
  omega

@[simp] theorem fieldSym_packWord (opc s n : Byte) : fieldSym (packWord opc s n) = s := by
  have h1 := opc.isLt
  have h2 := s.isLt
  apply BitVec.eq_of_toNat_eq
  simp only [fieldSym, BitVec.extractLsb'_toNat, packWord_toNat, Nat.shiftRight_eq_div_pow]
  omega

@[simp] theorem fieldImm_packWord (opc s n : Byte) : fieldImm (packWord opc s n) = n := by
  have h1 := opc.isLt
  have h2 := s.isLt
  have h3 := n.isLt
  apply BitVec.eq_of_toNat_eq
  simp only [fieldImm, BitVec.extractLsb'_toNat, packWord_toNat, Nat.shiftRight_eq_div_pow]
  omega

@[simp] theorem fieldRsv_packWord (opc s n : Byte) : fieldRsv (packWord opc s n) = 0 := by
  have h1 := opc.isLt
  have h2 := s.isLt
  have h3 := n.isLt
  have h0 : (0 : Byte).toNat = 0 := rfl
  apply BitVec.eq_of_toNat_eq
  simp only [fieldRsv, BitVec.extractLsb'_toNat, packWord_toNat, Nat.shiftRight_eq_div_pow, h0]
  omega

/-- A word is its four fields. -/
theorem word_of_fields (w : Word) (h : fieldRsv w = 0) : w = packWord (fieldOpc w) (fieldSym w) (fieldImm w) := by
  have hw := w.isLt
  have h0 : (0 : Byte).toNat = 0 := rfl
  have h := congrArg BitVec.toNat h
  apply BitVec.eq_of_toNat_eq
  simp only [fieldRsv, fieldOpc, fieldSym, fieldImm, packWord_toNat, BitVec.extractLsb'_toNat,
    Nat.shiftRight_eq_div_pow, h0] at h ⊢
  omega

theorem formF0_eq_some {s n : Byte} {i j : Instr} : formF0 s n i = some j ↔ (s = 0 ∧ n = 0) ∧ i = j := by
  simp [formF0]

theorem formFS_eq_some {n : Byte} {i j : Instr} : formFS n i = some j ↔ n = 0 ∧ i = j := by
  simp [formFS]

theorem formFI_eq_some {s n : Byte} {top : Nat} {i j : Instr} :
    formFI s n top i = some j ↔ (s = 0 ∧ n.toNat ≤ top) ∧ i = j := by
  simp [formFI]

theorem formFSI_eq_some {n : Byte} {top : Nat} {i j : Instr} :
    formFSI n top i = some j ↔ n.toNat ≤ top ∧ i = j := by
  simp [formFSI]

/-- Decoding a packed word looks at its fields only. -/
theorem decode_packWord (opc s n : Byte) : decode (packWord opc s n) = decodeFields opc.toNat s n := by
  simp [decode]

end Sys2Proof
end

