-- ==== Sys2Proof/Laws/PerInstr.lean ====
section
/-! SUPPORT. One family of statements, a lemma for each constructor of `Instr`: the word of a command keeps `RSV` at
0 and carries the command's opcode (rules R121, R125). -/

namespace Sys2Proof.Laws

/-- The opcode of a command (rule R125). -/
def opcodeOf : Instr → Byte
  | .nop => 0x00
  | .ctlReset => 0x01
  | .ctlClrerr => 0x02
  | .ctrMode _ => 0x03
  | .bsWinit => 0x10
  | .bsWr _ => 0x11
  | .bsFlush => 0x12
  | .bsRinit => 0x13
  | .bsRd _ => 0x14
  | .ftClr => 0x20
  | .ftAcc _ => 0x21
  | .ftLd _ => 0x22
  | .ftRd _ => 0x23
  | .ftCum => 0x24
  | .ftCrd _ => 0x25
  | .hufBuild => 0x30
  | .hufLdlen _ _ => 0x31
  | .hufCanon => 0x32
  | .hufRdlen _ => 0x33
  | .hufRdcode _ _ => 0x34
  | .hufEnc _ => 0x35
  | .hufDec => 0x36
  | .acEinit => 0x40
  | .acEnc _ => 0x41
  | .acEfin => 0x42
  | .acDinit => 0x43
  | .acDec => 0x44
  | .acDfin => 0x45

/-- The reserved field is 0 and the opcode field is the command's. -/
def EncodeFields.Statement (i : Instr) : Prop := fieldRsv (encode i) = 0 ∧ fieldOpc (encode i) = opcodeOf i

namespace EncodeFields

theorem nop : Statement .nop := by simp [Statement, encode, opcodeOf]
theorem ctlReset : Statement .ctlReset := by simp [Statement, encode, opcodeOf]
theorem ctlClrerr : Statement .ctlClrerr := by simp [Statement, encode, opcodeOf]
theorem ctrMode (tag : Byte) : Statement (.ctrMode tag) := by simp [Statement, encode, opcodeOf]
theorem bsWinit : Statement .bsWinit := by simp [Statement, encode, opcodeOf]
theorem bsWr (n : Nat) : Statement (.bsWr n) := by simp [Statement, encode, opcodeOf]
theorem bsFlush : Statement .bsFlush := by simp [Statement, encode, opcodeOf]
theorem bsRinit : Statement .bsRinit := by simp [Statement, encode, opcodeOf]
theorem bsRd (n : Nat) : Statement (.bsRd n) := by simp [Statement, encode, opcodeOf]
theorem ftClr : Statement .ftClr := by simp [Statement, encode, opcodeOf]
theorem ftAcc (s : Sym) : Statement (.ftAcc s) := by simp [Statement, encode, opcodeOf]
theorem ftLd (s : Sym) : Statement (.ftLd s) := by simp [Statement, encode, opcodeOf]
theorem ftRd (s : Sym) : Statement (.ftRd s) := by simp [Statement, encode, opcodeOf]
theorem ftCum : Statement .ftCum := by simp [Statement, encode, opcodeOf]
theorem ftCrd (s : Sym) : Statement (.ftCrd s) := by simp [Statement, encode, opcodeOf]
theorem hufBuild : Statement .hufBuild := by simp [Statement, encode, opcodeOf]
theorem hufLdlen (s : Sym) (n : Byte) : Statement (.hufLdlen s n) := by simp [Statement, encode, opcodeOf]
theorem hufCanon : Statement .hufCanon := by simp [Statement, encode, opcodeOf]
theorem hufRdlen (s : Sym) : Statement (.hufRdlen s) := by simp [Statement, encode, opcodeOf]
theorem hufRdcode (s : Sym) (k : Nat) : Statement (.hufRdcode s k) := by simp [Statement, encode, opcodeOf]
theorem hufEnc (s : Sym) : Statement (.hufEnc s) := by simp [Statement, encode, opcodeOf]
theorem hufDec : Statement .hufDec := by simp [Statement, encode, opcodeOf]
theorem acEinit : Statement .acEinit := by simp [Statement, encode, opcodeOf]
theorem acEnc (s : Sym) : Statement (.acEnc s) := by simp [Statement, encode, opcodeOf]
theorem acEfin : Statement .acEfin := by simp [Statement, encode, opcodeOf]
theorem acDinit : Statement .acDinit := by simp [Statement, encode, opcodeOf]
theorem acDec : Statement .acDec := by simp [Statement, encode, opcodeOf]
theorem acDfin : Statement .acDfin := by simp [Statement, encode, opcodeOf]

end EncodeFields

end Sys2Proof.Laws
end

