-- ==== Sys2Proof/Safety.lean ====
section
/-! DEFINITION. What counts as a safe run, and the terms the claims about the machine use: the invariants of the
spec's own prose, what a command may write (rule R45), and what the writer leaves in the bit stream. -/

namespace Sys2Proof.Machine

/-! ## Safe steps -/

/-- The next step does not stop with a fault. -/
def Safe (s : State) : Prop := ∀ f, step s ≠ .fault f

/-- A command that ran to its end: it answers `t`, whose error latch is as it was. -/
def Completes (i : Instr) (s t : State) : Prop := exec i s = .next t ∧ t.err = s.err

/-- A command that raised `e` (rules R421, R424). -/
def Raises (i : Instr) (s : State) (e : ErrCode) : Prop := exec i s = .next (raiseError e s)

/-! ## Legal words (rules R122, R124, R125, R127) -/

/-- A format of rule R122: whether it uses `SYM`, and the largest `IMM` where it uses `IMM` (rule R124). -/
structure Format where
  usesSym : Bool
  immTop : Option Nat
  deriving DecidableEq, Repr

/-- The format of an opcode as rule R125 lists it; `none` for a reserved opcode. -/
def opcodeFormat (opc : Nat) : Option Format :=
  if opc ∈ [0x00, 0x01, 0x02, 0x10, 0x12, 0x13, 0x20, 0x24, 0x30, 0x32, 0x36, 0x40, 0x42, 0x43, 0x44, 0x45] then
    some ⟨false, none⟩
  else if opc ∈ [0x03, 0x21, 0x22, 0x23, 0x25, 0x33, 0x35, 0x41] then some ⟨true, none⟩
  else if opc ∈ [0x11, 0x14] then some ⟨false, some 32⟩
  else if opc = 0x31 then some ⟨true, some 255⟩
  else if opc = 0x34 then some ⟨true, some 7⟩
  else none

/-- The mask of rule R126 for a format. -/
def Format.mask (f : Format) : Word :=
  match f.usesSym, f.immTop with
  | false, none => 0xFFFFFFFF
  | true, none => 0xFFFF00FF
  | false, some _ => 0xFF00FFFF
  | true, some _ => 0xFF0000FF

/-! ## Whose turn it is (rules R94, R350) -/

/-- The next step runs the latched command `i`. -/
def Runs (s : State) (i : Instr) : Prop :=
  s.busy = true ∧ (s.host.wait = 0 ∨ s.host.script = []) ∧ decode s.pendCmd = some i

/-- The next step is the host's write of `w` to the register at offset `off`. -/
def HostWrites (s : State) (off : Nat) (w : Word) : Prop :=
  ¬ (s.busy = true ∧ (s.host.wait = 0 ∨ s.host.script = [])) ∧
    off < 256 ∧ off % 4 = 0 ∧ ∃ ops, s.host.script = .write .word (s.config.eceBase + off) w :: ops

/-- The `AC.*` commands. -/
def isAcCommand (i : Instr) : Prop :=
  i = .acEinit ∨ (∃ x, i = .acEnc x) ∨ i = .acEfin ∨ i = .acDinit ∨ i = .acDec ∨ i = .acDfin

/-- The `HUF.*` commands. -/
def isHufCommand (i : Instr) : Prop :=
  i = .hufBuild ∨ (∃ x n, i = .hufLdlen x n) ∨ i = .hufCanon ∨ (∃ x, i = .hufRdlen x) ∨
    (∃ x k, i = .hufRdcode x k) ∨ (∃ x, i = .hufEnc x) ∨ i = .hufDec

/-! ## The bit stream -/

/-- The memory after the writer has put the bits `bs` at positions `p`, `p` + 1, … of `m` (rules R86, R150, R151):
earlier positions keep their bits; a written position holds its bit, joined by "or" with the old bit where its byte
had been started before `p`; the rest of a byte started here is 0; every other position keeps its bit. -/
def BitsWritten (m m' : Memory) (p : Nat) (bs : List Bool) : Prop :=
  m'.wf ∧ ∀ q, m'.bit q =
    if q < p then m.bit q
    else if q < p + bs.length then bs.getD (q - p) false || (decide (8 * (q / 8) < p) && m.bit q)
    else if p ≤ 8 * (q / 8) ∧ 8 * (q / 8) < p + bs.length then false
    else m.bit q

/-- The `k` low bits of `v`, most significant first (rule R87). -/
def bitsOf (v : Nat) : Nat → List Bool
  | 0 => []
  | k + 1 => v.testBit k :: bitsOf v k

/-- The unwritten bits of the writer's partial byte are 0 (rules R40, R44, R150). -/
def CleanTail (s : State) : Prop :=
  ∀ q, s.bsWpos.toNat % 8 ≠ 0 → q / 8 = s.bsWpos.toNat / 8 → s.bsWpos.toNat ≤ q → s.bsmem.bit q = false

/-- The number that `k` stream bits from `p` on stand for, first bit most significant (rule R87). -/
def streamValue (m : Memory) (p : Nat) : Nat → Nat
  | 0 => 0
  | k + 1 => 2 * streamValue m p k + (m.bit (p + k)).toNat

/-- Stream position `p` as `GetBitZF` reads it (rule R152): 0 from the limit on. -/
def zeroFilled (m : Memory) (limit p : Nat) : Bool := decide (p < limit) && m.bit p

/-- The number that `k` zero-filled bits from `p` on stand for (rule R311). -/
def zeroFilledValue (m : Memory) (limit p : Nat) : Nat → Nat
  | 0 => 0
  | k + 1 => 2 * zeroFilledValue m limit p k + (zeroFilled m limit (p + k)).toNat

/-! ## Sums of counts (rules R30, R31) -/

/-- Σ_s `FREQ[s]`. -/
def sumCounts (freq : Table Word) : Nat := (allSyms.map fun x => (tget freq x).toNat).sum

/-- Σ_{t ≤ x} `FREQ[t]`. -/
def sumUpTo (freq : Table Word) (x : Sym) : Nat :=
  ((allSyms.filter fun y => decide (y.toNat ≤ x.toNat)).map fun y => (tget freq y).toNat).sum

/-! ## The Kraft sum (rules R252, R259) -/

/-- 2^255 · Σ_{L[s] > 0} 2^(−L[s]), a whole number since every length is at most 255. -/
def kraftSum (len : Table Byte) : Nat :=
  ((allSyms.filter fun x => tget len x != 0).map fun x => 2 ^ (255 - (tget len x).toNat)).sum

/-- The code of `x` is the first part of the code of `y`: the top `LEN[x]` of `LEN[y]` bits are the same. -/
def CodePrefix (len : Table Byte) (code : Table CodeWord) (x y : Sym) : Prop :=
  (tget len x).toNat ≤ (tget len y).toNat ∧
    (tget code y).toNat / 2 ^ ((tget len y).toNat - (tget len x).toNat) = (tget code x).toNat

/-! ## Renormalization as a path of cases (rules R305, R309) -/

/-- The bounds after one iteration, whichever the coder: for E3 the second bit of both is complemented, then both
are shifted, the low one refilled with 0 and the high one with 1. -/
def RenormCase.bounds (c : RenormCase) (low high : Word) : Word × Word :=
  match c with
  | .e1 => (shiftWord low false, shiftWord high true)
  | .e2 => (shiftWord low false, shiftWord high true)
  | .e3 => (shiftWord (flipSecond low) false, shiftWord (flipSecond high) true)

/-- The cases met from the bounds on, tested again after every shift, at most `fuel` of them. -/
def renormPath : Nat → Word → Word → List RenormCase
  | 0, _, _ => []
  | fuel + 1, low, high =>
    match renormCase low high with
    | none => []
    | some c => c :: renormPath fuel (c.bounds low high).1 (c.bounds low high).2

/-- The bounds at the end of a path. -/
def pathBounds : List RenormCase → Word × Word → Word × Word
  | [], b => b
  | c :: cs, b => pathBounds cs (c.bounds b.1 b.2)

/-- The bits a path emits when `pend` bits are pending at its start (rule R305): for E1 a 0, for E2 a 1, each
followed by the pending opposite bits; E3 emits none. -/
def pathBits : List RenormCase → Nat → List Bool
  | [], _ => []
  | .e1 :: cs, pend => false :: (List.replicate pend true ++ pathBits cs 0)
  | .e2 :: cs, pend => true :: (List.replicate pend false ++ pathBits cs 0)
  | .e3 :: cs, pend => pathBits cs (pend + 1)

/-- The pending bits at the end of a path. -/
def pathPend : List RenormCase → Nat → Nat
  | [], pend => pend
  | .e1 :: cs, _ => pathPend cs 0
  | .e2 :: cs, _ => pathPend cs 0
  | .e3 :: cs, pend => pathPend cs (pend + 1)

/-- The first error a path meets (rules R305, R425) with `pend` bits pending and the writer at `wpos` of a stream of
`cap` bits; none where all its bits fit. -/
def pathError (cap : Nat) : List RenormCase → Nat → Nat → Option ErrCode
  | [], _, _ => none
  | .e1 :: cs, pend, wpos =>
    if cap < wpos + 1 + pend then some .bufferFull else pathError cap cs 0 (wpos + 1 + pend)
  | .e2 :: cs, pend, wpos =>
    if cap < wpos + 1 + pend then some .bufferFull else pathError cap cs 0 (wpos + 1 + pend)
  | .e3 :: cs, pend, wpos => if pend = countMax then some .countOverflow else pathError cap cs (pend + 1) wpos

/-- The decoder's code value at the end of a path (rule R309), reading zero-filled bits from position `p` on. -/
def pathCode (m : Memory) (limit : Nat) : List RenormCase → Nat → Word → Word
  | [], _, code => code
  | .e1 :: cs, p, code => pathCode m limit cs (p + 1) (shiftWord code (zeroFilled m limit p))
  | .e2 :: cs, p, code => pathCode m limit cs (p + 1) (shiftWord code (zeroFilled m limit p))
  | .e3 :: cs, p, code => pathCode m limit cs (p + 1) (shiftWord (flipSecond code) (zeroFilled m limit p))

/-- value = ((`AC_CODE` − `AC_LOW` + 1)·T − 1) div range (rule R312), exact. -/
def State.decodedValue (s : State) : Int :=
  ((s.acCode.toNat - s.acLow.toNat + 1) * s.totalCount - 1) / s.acRange

/-- The bounds after `Narrow(x)` (rule R304), low one first, both from the old bounds. -/
def State.narrowed (s : State) (x : Sym) : Word × Word :=
  (BitVec.ofInt 32 (s.scaled (s.cumLow x)), BitVec.ofInt 32 (s.scaled (s.cumHigh x) - 1))

/-- The path of renormalization after `Narrow(x)`. -/
def State.symbolPath (s : State) (x : Sym) : List RenormCase :=
  renormPath arcPrecision (s.narrowed x).1 (s.narrowed x).2

/-- The path has come to its end: no case applies to the bounds there (rule R305's "exit loop"). -/
def PathEnds (low high : Word) (cs : List RenormCase) : Prop :=
  renormCase (pathBounds cs (low, high)).1 (pathBounds cs (low, high)).2 = none

/-! ## Invariants -/

/-- The cursors and `BSMEM` are where rules R39 to R41 and R80 say they are. -/
structure Placed (s : State) : Prop where
  config : s.config.wf
  memory : s.bsmem.wf
  below : s.bsmem.below s.config.bsCap
  wpos : s.bsWpos.toNat ≤ s.capBits
  rpos : s.bsRpos.toNat ≤ s.bsRlimit.toNat
  rlimit : s.bsRlimit.toNat ≤ s.capBits
  rlimitBytes : s.bsRlimit.toNat % 8 = 0
  rlen : s.bsRlen.toNat ≤ s.config.bsCap

/-- `TOTAL`, and while `CUM_VALID` = 1 also `CUM` and `FT_NSYM`, agree with `FREQ` (rules R30 to R33, R207). -/
structure CountsAgree (s : State) : Prop where
  total : s.total.toNat = sumCounts s.freq
  cum : s.cumValid = true → ∀ x, (tget s.cum x).toNat = sumUpTo s.freq x
  nsym : s.cumValid = true → s.ftNsym.toNat = nonzeroCounts s.freq

/-- While `CT_VALID` = 1 the code table, `HUF_NSYM` and `HUF_MAXLEN` are those of the current `LEN` (rules R35,
R36). -/
structure CodesAgree (s : State) : Prop where
  codes : s.ctValid = true → canon s.len = some s.code
  nsym : s.ctValid = true → s.hufNsym.toNat = nonzeroLengths s.len
  maxlen : s.ctValid = true → s.hufMaxlen.toNat = maxLength s.len

/-- `ERRCODE` is 0 exactly while `ERR` = 0 (rules R23, R420). -/
def ErrorLatch (s : State) : Prop := s.err = true ↔ s.errCode ≠ .none

/-- The headroom of rule R314 item 2. -/
def Headroom (low high : Word) : Prop :=
  (low.toNat < quarter ∧ half ≤ high.toNat) ∨ (low.toNat < half ∧ 3 * quarter ≤ high.toNat)

/-- What holds of an open session (rules R38, R37, R310, R314). -/
structure OpenSession (s : State) : Prop where
  mode : s.mode = .arithmetic
  cumValid : s.cumValid = true
  totalLow : 1 ≤ s.total.toNat
  totalHigh : s.total.toNat ≤ quarter
  single : s.acSingle = s.singleModel
  symbol : if s.acSingle then s.present s.acSym = true else s.acSym = 0
  headroom : s.acSingle = false → Headroom s.acLow s.acHigh
  code : s.acSingle = false → s.acState = .dec →
    s.acLow.toNat ≤ s.acCode.toNat ∧ s.acCode.toNat ≤ s.acHigh.toNat

/-- The session invariant: nothing is asked while `AC_STATE` = IDLE. -/
def SessionOk (s : State) : Prop := s.acState ≠ .idle → OpenSession s

/-- All of them together: what every state a machine can reach from power-on has. -/
structure Inv (s : State) : Prop where
  placed : Placed s
  counts : CountsAgree s
  codes : CodesAgree s
  latch : ErrorLatch s
  session : SessionOk s

/-! ## What each command may write (rule R45) -/

/-- `s` with the state that the command `i` may write taken from `t`: the table of rule R45, row by row. -/
def frameOf (i : Instr) (s t : State) : State :=
  match i with
  | .nop => s
  | .ctlReset => { t with config := s.config, bsmem := s.bsmem, host := s.host }
  | .ctlClrerr => { s with err := t.err, errCode := t.errCode }
  | .ctrMode _ => { s with mode := t.mode }
  | .bsWinit => { s with bsWpos := t.bsWpos }
  | .bsWr _ => { s with bsmem := t.bsmem, bsWpos := t.bsWpos }
  | .bsFlush => { s with bsWpos := t.bsWpos, res := t.res, resHi := t.resHi }
  | .bsRinit => { s with bsRpos := t.bsRpos, bsRlimit := t.bsRlimit }
  | .bsRd _ => { s with bsRpos := t.bsRpos, res := t.res, resHi := t.resHi }
  | .ftClr =>
    { s with freq := t.freq, total := t.total, cum := t.cum, ftNsym := t.ftNsym, cumValid := t.cumValid }
  | .ftAcc x => { s with freq := tset s.freq x (tget t.freq x), total := t.total, cumValid := t.cumValid }
  | .ftLd x => { s with freq := tset s.freq x (tget t.freq x), total := t.total, cumValid := t.cumValid }
  | .ftRd _ => { s with res := t.res, resHi := t.resHi }
  | .ftCum => { s with cum := t.cum, ftNsym := t.ftNsym, cumValid := t.cumValid }
  | .ftCrd _ => { s with res := t.res, resHi := t.resHi }
  | .hufBuild =>
    { s with
      len := t.len, code := t.code, hufNsym := t.hufNsym, hufMaxlen := t.hufMaxlen, ctValid := t.ctValid }
  | .hufLdlen x _ => { s with len := tset s.len x (tget t.len x), ctValid := t.ctValid }
  | .hufCanon =>
    { s with code := t.code, hufNsym := t.hufNsym, hufMaxlen := t.hufMaxlen, ctValid := t.ctValid }
  | .hufRdlen _ => { s with res := t.res, resHi := t.resHi }
  | .hufRdcode _ _ => { s with res := t.res, resHi := t.resHi }
  | .hufEnc _ => { s with bsmem := t.bsmem, bsWpos := t.bsWpos }
  | .hufDec => { s with bsRpos := t.bsRpos, res := t.res, resHi := t.resHi }
  | .acEinit =>
    { s with
      acLow := t.acLow, acHigh := t.acHigh, acPend := t.acPend, acCode := t.acCode, acState := t.acState,
      acSingle := t.acSingle, acSym := t.acSym }
  | .acEnc _ =>
    { s with acLow := t.acLow, acHigh := t.acHigh, acPend := t.acPend, bsmem := t.bsmem, bsWpos := t.bsWpos }
  | .acEfin => { s with acPend := t.acPend, bsmem := t.bsmem, bsWpos := t.bsWpos, acState := t.acState }
  | .acDinit =>
    { s with
      acLow := t.acLow, acHigh := t.acHigh, acPend := t.acPend, acCode := t.acCode, acState := t.acState,
      acSingle := t.acSingle, acSym := t.acSym, bsRpos := t.bsRpos }
  | .acDec =>
    { s with
      acLow := t.acLow, acHigh := t.acHigh, acCode := t.acCode, bsRpos := t.bsRpos, res := t.res,
      resHi := t.resHi }
  | .acDfin => { s with acState := t.acState }

/-- The commands that use the writer: the only ones that store to `BSMEM` (rule R45). -/
def storesBits : Instr → Bool
  | .bsWr _ => true
  | .hufEnc _ => true
  | .acEnc _ => true
  | .acEfin => true
  | .nop => false
  | .ctlReset => false
  | .ctlClrerr => false
  | .ctrMode _ => false
  | .bsWinit => false
  | .bsFlush => false
  | .bsRinit => false
  | .bsRd _ => false
  | .ftClr => false
  | .ftAcc _ => false
  | .ftLd _ => false
  | .ftRd _ => false
  | .ftCum => false
  | .ftCrd _ => false
  | .hufBuild => false
  | .hufLdlen _ _ => false
  | .hufCanon => false
  | .hufRdlen _ => false
  | .hufRdcode _ _ => false
  | .hufDec => false
  | .acEinit => false
  | .acDinit => false
  | .acDec => false
  | .acDfin => false

/-- How many bits a command that uses the writer puts at the cursor when it runs to its end (rules R151, R305). -/
def storedBits (i : Instr) (s : State) : Nat :=
  match i with
  | .bsWr n => n
  | .hufEnc x => (tget s.len x).toNat
  | .acEnc x => if s.acSingle then 0 else (pathBits (s.symbolPath x) s.acPend.toNat).length
  | .acEfin => if s.acSingle then 0 else 2 + s.acPend.toNat
  | _ => 0

/-! ## Runs of commands -/

/-- The commands of a list, one `Execute` after the other; it stops at a fault. -/
def runCommands : List Instr → State → Host.Outcome State Fault Refusal
  | [], s => .next s
  | i :: is, s =>
    match exec i s with
    | .next t => runCommands is t
    | .fault f => .fault f
    | .refused r => .refused r

/-- The commands of a list, with the value of `RES` after each one. -/
def runResults : List Instr → State → Option (List Word × State)
  | [], s => some ([], s)
  | i :: is, s =>
    match exec i s with
    | .next t => (runResults is t).map fun r => (t.res :: r.1, r.2)
    | .fault _ => none
    | .refused _ => none

/-- `LI v` then `BS.WR n` for each pair (rule R130 `PUT`): the host's write of `ARG0` and the command. -/
def runPuts : List (Word × Nat) → State → Host.Outcome State Fault Refusal
  | [], s => .next s
  | (v, n) :: ps, s =>
    match exec (.bsWr n) { s with arg0 := v } with
    | .next t => runPuts ps t
    | .fault f => .fault f
    | .refused r => .refused r

end Sys2Proof.Machine
end

