-- ==== Sys2Proof/Certificates/Slice0/Obligations.lean ====
section
/-! DEFINITION. The statements for the provers, from the numbered rules of spec/. Each docstring names the rule it
formalises. `raiseError e s` is `RaiseError` of rule R421 on the state before the command. -/

open Sys2Proof Sys2Proof.Machine

/-! ## Encoding (30_encoding.md) -/

/-- Every command comes back from its word (rules R121 to R125, R129). -/
def Obligations.DecodeOfEncodeIsTheCommand : Prop :=
  ∀ i : Instr, i.wellFormed = true → decode (encode i) = some i

/-- A word that decodes is the word of the command it decodes to; and match, mask and range select the opcode
(rule R126). -/
def Obligations.MatchAndMaskSelectTheCommand : Prop :=
  (∀ (w : Word) (i : Instr), decode w = some i → i.wellFormed = true ∧ encode i = w) ∧
  (∀ (w : Word) (opc : Nat) (f : Format), opcodeFormat opc = some f →
    ((w &&& f.mask = BitVec.ofNat 32 opc ∧ ∀ top, f.immTop = some top → (fieldImm w).toNat ≤ top) ↔
      (legal w = true ∧ (fieldOpc w).toNat = opc)))

/-- Rule R127: which words are legal, and that an illegal word raises `ILLEGAL_CMD` and changes nothing else. -/
def Obligations.LegalWordsAreThoseOfTheOpcodeMap : Prop :=
  (∀ w : Word, legal w = true ↔ ∃ f, opcodeFormat (fieldOpc w).toNat = some f ∧ fieldRsv w = 0 ∧
    (f.usesSym = false → fieldSym w = 0) ∧ (f.immTop = none → fieldImm w = 0) ∧
    (∀ top, f.immTop = some top → (fieldImm w).toNat ≤ top)) ∧
  ((List.range 256).countP fun o => (opcodeFormat o).isNone) = 228 ∧
  (∀ s : State, s.err = false → legal s.pendCmd = false → engineStep s = .next (raiseError .illegalCmd s)) ∧
  decode 0 = some .nop ∧ (∀ s, exec .nop s = .next s)

/-- Rule R129: the word of a command line, with the rule's own examples. -/
def Obligations.CommandLineWords : Prop :=
  (∀ opc s n : Byte, packWord opc s n = opc.setWidth 32 ||| s.setWidth 32 <<< 8 ||| n.setWidth 32 <<< 16) ∧
  (∀ i : Instr, ∃ opc s n f, encode i = packWord opc s n ∧ opcodeFormat opc.toNat = some f ∧
    (f.usesSym = false → s = 0) ∧ (f.immTop = none → n = 0)) ∧
  (decode 0x00004121 = some (.ftAcc 0x41) ∧ encode (.ftAcc 0x41) = 0x00004121) ∧
  (decode 0x00050011 = some (.bsWr 5) ∧ encode (.bsWr 5) = 0x00050011) ∧
  (decode 0x00034131 = some (.hufLdlen 0x41 3) ∧ encode (.hufLdlen 0x41 3) = 0x00034131) ∧
  (decode 0x00010734 = some (.hufRdcode 7 1) ∧ encode (.hufRdcode 7 1) = 0x00010734) ∧
  (decode 0x00000103 = some (.ctrMode 1) ∧ encode (.ctrMode 1) = 0x00000103)

/-! ## The engine step and errors (45_control.md, 60_exceptions.md) -/

/-- Rule R350: when its turn comes, the latched command runs, and `BUSY` ends with it. -/
def Obligations.StepRunsTheLatchedCommand : Prop :=
  ∀ (s : State) (i : Instr), Runs s i → (s.err = false ∨ i = .ctlReset ∨ i = .ctlClrerr) →
    step s = finishCommand (exec i s) ∧ ∀ t, exec i s = .next t → step s = .next { t with busy := false }

/-- Rules R352 and R429: under the sticky error every accepted command but a legal `CTL.RESET` or `CTL.CLRERR` changes
nothing, except that `BUSY` ends; no error can be raised then, so the record stands until the return. -/
def Obligations.StickyErrorDiscardsCommands : Prop :=
  (∀ s : State, s.busy = true → (s.host.wait = 0 ∨ s.host.script = []) → s.err = true →
    decode s.pendCmd ≠ some .ctlReset → decode s.pendCmd ≠ some .ctlClrerr →
    step s = .next { s with busy := false }) ∧
  (∀ s t : State, s.err = true → engineStep s = .next t → t.err = true →
    t.errCode = s.errCode ∧ t.errCmd = s.errCmd ∧ t.errPos = s.errPos) ∧
  (∀ s : State, (Runs s .ctlReset ∨ Runs s .ctlClrerr) → ∃ t, step s = .next t ∧ t.err = false)

/-- Rules R421 and R424: a command that raises an error, and a word that is no command, leaves nothing but the error
record, and the record is the one rule R421 gives. -/
def Obligations.RaisedErrorsArePrecise : Prop :=
  ∀ (i : Instr) (s t : State), s.err = false → (exec i s = .next t ∨ engineStep s = .next t) → t.err = true →
    ∃ e, e ≠ .none ∧ t = { s with
      err := true
      errCode := e
      errCmd := s.pendCmd
      errPos := if e = .outOfData ∨ e = .corruptStream then s.bsRpos else if e = .bufferFull then s.bsWpos else 0
      busy := false }

/-- Rule R422: only a raised error and `CTL.RESET` write the error record. -/
def Obligations.ErrorRecordWriters : Prop :=
  ∀ s t : State, step s = .next t → (t.errCmd ≠ s.errCmd ∨ t.errPos ≠ s.errPos) →
    (s.err = false ∧ t.errCmd = s.pendCmd ∧ ∃ e, e ≠ .none ∧ t = raiseError e s) ∨
    (Runs s .ctlReset ∧ t.errCmd = 0 ∧ t.errPos = 0)

/-- Rule R45, row by row: a command writes only the state its row names, or it raised an error and wrote only the
error latch. -/
def Obligations.CommandWritesOnlyItsState : Prop :=
  (∀ (i : Instr) (s t : State), exec i s = .next t → t = frameOf i s t ∨ ∃ e, t = raiseError e s) ∧
  (∀ (i : Instr) (s : State) (r : Refusal), exec i s ≠ .refused r)

/-- The frame of `BSMEM`: a command that is no writer leaves every byte as it reads; a writer that runs to its end
stores `storedBits` bits from the cursor on, leaves every byte that holds none of them as it reads, and changes no
bit written before (rules R45, R151, R305, R317). -/
def Obligations.WritersStoreOnlyAtTheCursor : Prop :=
  (∀ (i : Instr) (s t : State) (a : Nat), storesBits i = false → exec i s = .next t →
    t.bsmem.read a = s.bsmem.read a) ∧
  (∀ (i : Instr) (s t : State), Placed s → storesBits i = true → s.err = false → exec i s = .next t → t.err = false →
    t.bsWpos.toNat = s.bsWpos.toNat + storedBits i s ∧
    (∀ a, 8 * a + 8 ≤ s.bsWpos.toNat ∨ s.bsWpos.toNat + storedBits i s ≤ 8 * a →
      t.bsmem.read a = s.bsmem.read a) ∧
    (∀ q, q < s.bsWpos.toNat → t.bsmem.bit q = s.bsmem.bit q))

/-- Rule R28: each flag changes only by the events the rule lists for it. -/
def Obligations.FlagsChangeOnlyByTheirWriters : Prop :=
  ∀ s t : State, step s = .next t →
    (s.busy = false → t.busy = true → ∃ w, HostWrites s 0x04 w) ∧
    (s.busy = true → t.busy = false → engineStep s = .next t) ∧
    (s.err = true → t.err = false → Runs s .ctlClrerr ∨ Runs s .ctlReset) ∧
    (s.err = false → t.err = true → t.errCode ≠ .none ∧ engineStep s = .next t) ∧
    (s.errCode ≠ t.errCode → s.err ≠ t.err ∨ Runs s .ctlClrerr ∨ Runs s .ctlReset) ∧
    (s.lost = false → t.lost = true → s.busy = true ∧ ∃ off w, HostWrites s off w) ∧
    (s.lost = true → t.lost = false → (∃ w, HostWrites s 0x14 w ∧ w.getLsbD 2 = true) ∨ Runs s .ctlReset) ∧
    (s.mode ≠ t.mode → (∃ tag, Runs s (.ctrMode tag)) ∨ Runs s .ctlReset) ∧
    (s.cumValid ≠ t.cumValid →
      Runs s .ftClr ∨ Runs s .ftCum ∨ (∃ x, Runs s (.ftAcc x)) ∨ (∃ x, Runs s (.ftLd x)) ∨ Runs s .ctlReset) ∧
    (s.ctValid ≠ t.ctValid →
      Runs s .hufBuild ∨ Runs s .hufCanon ∨ (∃ x n, Runs s (.hufLdlen x n)) ∨ Runs s .ctlReset) ∧
    (s.acState ≠ t.acState ∨ s.acSingle ≠ t.acSingle → (∃ i, isAcCommand i ∧ Runs s i) ∨ Runs s .ctlReset)

/-- Rules R206 and R38: while a session is open, nothing but `CTL.RESET` changes the counts. -/
def Obligations.SessionLocksTheCounts : Prop :=
  (∀ (s : State) (x : Sym), s.acState ≠ .idle →
    Raises .ftClr s .badState ∧ Raises (.ftAcc x) s .badState ∧ Raises (.ftLd x) s .badState ∧
    exec (.ftRd x) s = .next { s with res := tget s.freq x, resHi := 0 } ∧
    (∃ t, exec .ftCum s = .next t ∧ t.err = s.err) ∧
    (s.cumValid = true → ∃ t, exec (.ftCrd x) s = .next t ∧ t.err = s.err)) ∧
  (∀ s t : State, s.acState ≠ .idle → step s = .next t → (t.freq = s.freq ∧ t.total = s.total) ∨ Runs s .ctlReset)

/-! ## The host's accesses (10_state.md, 20_memory.md, 45_control.md, 70_reset_and_hazards.md) -/

/-- Rule R351: an accepted `CMD` write latches the word and sets `BUSY`; while `BUSY` = 1 it is discarded and sets
`LOST`. (The host's own remaining accesses are the model's, log 5.) -/
def Obligations.CmdWriteLatchesOrIsLost : Prop :=
  (∀ (s : State) (w : Word), HostWrites s 0x04 w → s.busy = false →
    ∃ h, step s = .next { s with pendCmd := w, busy := true, host := h }) ∧
  (∀ (s : State) (w : Word), HostWrites s 0x04 w → s.busy = true →
    ∃ h, step s = .next { s with lost := true, host := h }) ∧
  (∀ s : State, s.busy = false → hostRead 0x04 s = (0, s))

/-- Rules R480 and R481: while `BUSY` = 1 a write to `CMD`, `ARG0`, `BS_RLEN`, `MEMADDR` or `MEMDATA` is lost, a
`STATUS` write keeps its effect, and a write to any other offset is ignored; the reads of `ID` and `STATUS` are exact,
`STATUS` shows `BUSY` = 1, and no read has a side effect (the count of free values drawn is the model's own, log 6). -/
def Obligations.AccessesWhileBusy : Prop :=
  ∀ s : State, s.busy = true →
    (∀ (w : Word) (off : Nat), off ∈ [0x04, 0x08, 0x2C, 0x30, 0x34] → hostWrite off w s = { s with lost := true }) ∧
    (∀ w : Word, hostWrite 0x14 w s = { s with lost := s.lost && !w.getLsbD 2 }) ∧
    (∀ (w : Word) (off : Nat), off ∉ [0x04, 0x08, 0x14, 0x2C, 0x30, 0x34] → hostWrite off w s = s) ∧
    hostRead 0x00 s = (0x45434531, s) ∧ hostRead 0x14 s = (s.statusWord, s) ∧ s.statusWord.getLsbD 0 = true ∧
    ∀ off, ∃ h, (hostRead off s).2 = { s with host := h }

/-- Rules R84, R41 and R357: what a host write does while `BUSY` = 0. -/
def Obligations.WritesWhileIdle : Prop :=
  ∀ (s : State) (w : Word), s.busy = false →
    hostWrite 0x08 w s = { s with arg0 := w } ∧
    hostWrite 0x30 w s = { s with memAddr := w } ∧
    hostWrite 0x14 w s = { s with lost := s.lost && !w.getLsbD 2 } ∧
    (s.config.wf → ∃ v : Word, hostWrite 0x2C w s = { s with bsRlen := v } ∧ v.toNat = min w.toNat s.config.bsCap) ∧
    (s.bsmem.wf → ∃ m : Memory, hostWrite 0x34 w s = { s with bsmem := m, memAddr := s.memAddr + 1 } ∧ m.wf ∧
      (∀ a, m.read a =
        if a = s.memAddr.toNat ∧ a < s.config.bsCap then BitVec.ofNat 8 w.toNat else s.bsmem.read a)) ∧
    (∀ off, off ∉ [0x04, 0x08, 0x14, 0x2C, 0x30, 0x34] → hostWrite off w s = s)

/-- Rule R21 with rules R83 and R88: what each register reads while `BUSY` = 0; only `MEMDATA` has a side effect. -/
def Obligations.ReadsWhileIdle : Prop :=
  ∀ s : State, s.busy = false →
    hostRead 0x00 s = (0x45434531, s) ∧
    hostRead 0x04 s = (0, s) ∧
    hostRead 0x08 s = (s.arg0, s) ∧
    hostRead 0x0C s = (s.res, s) ∧
    hostRead 0x10 s = (s.resHi, s) ∧
    hostRead 0x14 s = (s.statusWord, s) ∧
    hostRead 0x18 s = (s.errCmd, s) ∧
    hostRead 0x1C s = (s.errPos, s) ∧
    hostRead 0x20 s = (s.bsWpos, s) ∧
    hostRead 0x24 s = (s.bsRpos, s) ∧
    hostRead 0x28 s = (s.bsRlimit, s) ∧
    hostRead 0x2C s = (s.bsRlen, s) ∧
    hostRead 0x30 s = (s.memAddr, s) ∧
    (s.memAddr.toNat < s.config.bsCap →
      hostRead 0x34 s = ((s.bsmem.read s.memAddr.toNat).setWidth 32, { s with memAddr := s.memAddr + 1 })) ∧
    (s.config.bsCap ≤ s.memAddr.toNat → hostRead 0x34 s = (0, { s with memAddr := s.memAddr + 1 })) ∧
    (s.config.wf → (hostRead 0x38 s).1.toNat = s.config.bsCap ∧ (hostRead 0x38 s).2 = s) ∧
    ((hostRead 0x40 s).1 ++ (hostRead 0x3C s).1 = s.total ∧ (hostRead 0x3C s).2 = s ∧ (hostRead 0x40 s).2 = s) ∧
    hostRead 0x44 s = (s.ftNsym.setWidth 32, s) ∧
    hostRead 0x48 s = (s.hufNsym.setWidth 32, s) ∧
    hostRead 0x4C s = (s.hufMaxlen.setWidth 32, s) ∧
    hostRead 0x50 s = (s.acLow, s) ∧
    hostRead 0x54 s = (s.acHigh, s) ∧
    hostRead 0x58 s = (s.acCode, s) ∧
    hostRead 0x5C s = (s.acPend, s) ∧
    hostRead 0x60 s = (s.acSym.setWidth 32, s) ∧
    (∀ off, 0x64 ≤ off → off ≤ 0xFC → hostRead off s = (0, s))

/-- Rules R23 and R420: the fields of `STATUS`, and the codes of the errors. -/
def Obligations.StatusFields : Prop :=
  (∀ s : State,
    s.statusWord.getLsbD 0 = s.busy ∧ s.statusWord.getLsbD 1 = s.err ∧ s.statusWord.getLsbD 2 = s.lost ∧
    s.statusWord.getLsbD 3 = false ∧ s.statusWord.extractLsb' 4 4 = s.errCode.bits ∧
    (s.statusWord.getLsbD 8 = true ↔ s.mode = .arithmetic) ∧ s.statusWord.getLsbD 9 = s.cumValid ∧
    s.statusWord.getLsbD 10 = s.ctValid ∧
    (s.statusWord.extractLsb' 11 2).toNat = (match s.acState with | .idle => 0 | .enc => 1 | .dec => 2) ∧
    s.statusWord.getLsbD 13 = s.acSingle ∧ ∀ k, 14 ≤ k → s.statusWord.getLsbD k = false) ∧
  [ErrCode.none, .outOfData, .corruptStream, .emptyAlphabet, .unsupportedMode, .illegalCmd, .badState,
    .absentSymbol, .countOverflow, .modelTooLarge, .bufferFull].map (fun e => e.bits.toNat) = List.range 11

/-- Rule R85: when it is the host's turn, a model refuses an access that is not an aligned 32-bit one. -/
def Obligations.NarrowOrMisalignedAccessIsRefused : Prop :=
  ∀ (s : State) (size : AccessSize) (off : Nat) (v : Word) (ops : List HostOp), (s.busy = true → s.host.wait ≠ 0) →
    off < 256 → (size ≠ .word ∨ off % 4 ≠ 0) →
    (s.host.script = .write size (s.config.eceBase + off) v :: ops → step s = .refused .registerAccessShape) ∧
    (s.host.script = .read size (s.config.eceBase + off) :: ops → step s = .refused .registerAccessShape)

/-- Rule R358: every accepted command finishes. Under the invariants, after at most `host.wait` host accesses and one
engine step `BUSY` is 0, unless the host has made an access that the model refuses. -/
def Obligations.AcceptedCommandsFinish : Prop :=
  ∀ s : State, Inv s → s.busy = true → ∃ k, k ≤ s.host.wait + 1 ∧
    ((∃ t, core.run k s = .next t ∧ t.busy = false) ∨ ∃ r, core.run k s = .refused r)

/-- Rules R470 and R471: the state at power-on, for every configuration and every content of `BSMEM`, and that it has
every invariant; `State.reset` is one of them. (`PENDCMD` and the host's side are the model's choice, log 4 and log 5;
`State.reset`'s own configuration and memory are log 1 to log 3.) -/
def Obligations.PowerOnState : Prop :=
  Inv State.reset ∧ State.reset = State.powerOn Config.vectors [] ∧
  ∀ (c : Config) (m : Memory), c.wf → m.wf → m.below c.bsCap →
    let s := State.powerOn c m
    Inv s ∧ s.statusWord = 0x00000200 ∧ s.bsmem = m ∧
    s.arg0 = 0 ∧ s.res = 0 ∧ s.resHi = 0 ∧ s.errCmd = 0 ∧ s.errPos = 0 ∧
    s.bsWpos = 0 ∧ s.bsRpos = 0 ∧ s.bsRlimit = 0 ∧ s.bsRlen = 0 ∧ s.memAddr = 0 ∧ s.total = 0 ∧ s.ftNsym = 0 ∧
    (∀ x, tget s.freq x = 0 ∧ tget s.cum x = 0 ∧ tget s.len x = 0 ∧ tget s.code x = 0) ∧
    s.hufNsym = 0 ∧ s.hufMaxlen = 0 ∧ s.acLow = 0 ∧ s.acHigh = 0xFFFFFFFF ∧ s.acCode = 0 ∧ s.acPend = 0 ∧ s.acSym = 0

/-! ## Control commands (45_control.md) -/

/-- Rules R353, R355 and R356: `NOP`, `CTL.CLRERR` and `CTR.MODE`. -/
def Obligations.ControlCommandResults : Prop :=
  (∀ s, exec .nop s = .next s) ∧
  (∀ s, exec .ctlClrerr s = .next { s with err := false, errCode := .none }) ∧
  (∀ s, s.acState = .idle → exec (.ctrMode 0) s = .next { s with mode := .huffman }) ∧
  (∀ s, s.acState = .idle → exec (.ctrMode 1) s = .next { s with mode := .arithmetic }) ∧
  (∀ s (tag : Byte), s.acState = .idle → 1 < tag.toNat → Raises (.ctrMode tag) s .unsupportedMode) ∧
  (∀ s (tag : Byte), s.acState ≠ .idle → Raises (.ctrMode tag) s .badState) ∧
  encode .nop = 0x00000000 ∧ encode .ctlClrerr = 0x00000002 ∧ ∀ tag, encode (.ctrMode tag) = packWord 0x03 tag 0

/-- Rules R354 and R472: `CTL.RESET` gives every piece of state of rule R470 its reset value and keeps `BSMEM`; it
never fails. (Nothing is said of `PENDCMD`, whose value is irrelevant, rule R42; log 4.) -/
def Obligations.CtlResetKeepsOnlyMemory : Prop :=
  (∀ s : State, ∃ t, exec .ctlReset s = .next t ∧
    t = { State.powerOn s.config s.bsmem with host := s.host, pendCmd := t.pendCmd } ∧ t.bsmem = s.bsmem ∧ t.statusWord = 0x00000200 ∧
    (∀ x, tget t.freq x = 0 ∧ tget t.cum x = 0 ∧ tget t.len x = 0 ∧ tget t.code x = 0) ∧
    t.acHigh = 0xFFFFFFFF ∧ t.res = 0 ∧ t.resHi = 0 ∧ t.errCmd = 0 ∧ t.errPos = 0) ∧
  encode .ctlReset = 0x00000001

/-! ## The bit stream (41_bitstream.md) -/

/-- Rules R151 and R154: `BS.WR n` appends the n low bits of `ARG0`, most significant first, or fails whole. -/
def Obligations.BsWrAppendsThePattern : Prop :=
  ∀ (s : State) (n : Nat), Placed s → n ≤ 32 →
    (s.bsWpos.toNat + n ≤ s.capBits → ∃ m p,
      BitsWritten s.bsmem m s.bsWpos.toNat (bitsOf s.arg0.toNat n) ∧ p.toNat = s.bsWpos.toNat + n ∧
      exec (.bsWr n) s = .next { s with bsmem := m, bsWpos := p }) ∧
    (s.capBits < s.bsWpos.toNat + n →
      Raises (.bsWr n) s .bufferFull ∧ (raiseError .bufferFull s).errPos = s.bsWpos) ∧
    encode (.bsWr n) = packWord 0x11 0 (BitVec.ofNat 8 n)

/-- Rules R153, R155 and R156: `BS.WINIT`, `BS.FLUSH` and `BS.RINIT`. -/
def Obligations.BsCursorCommandResults : Prop :=
  (∀ s, exec .bsWinit s = .next { s with bsWpos := 0 }) ∧
  (∀ s, Placed s → ∃ p r : Word, exec .bsFlush s = .next { s with bsWpos := p, res := r, resHi := 0 } ∧
    p.toNat = 8 * ((s.bsWpos.toNat + 7) / 8) ∧ r.toNat = p.toNat / 8) ∧
  (∀ s, Placed s → ∃ l : Word, exec .bsRinit s = .next { s with bsRpos := 0, bsRlimit := l } ∧
    l.toNat = 8 * s.bsRlen.toNat) ∧
  encode .bsWinit = 0x00000010 ∧ encode .bsFlush = 0x00000012 ∧ encode .bsRinit = 0x00000013

/-- Rule R157: `BS.RD n` returns the next n bits, first bit most significant, or consumes nothing. -/
def Obligations.BsRdTakesTheNextBits : Prop :=
  ∀ (s : State) (n : Nat), Placed s → n ≤ 32 →
    (s.bsRpos.toNat + n ≤ s.bsRlimit.toNat → ∃ p r : Word,
      exec (.bsRd n) s = .next { s with bsRpos := p, res := r, resHi := 0 } ∧
      p.toNat = s.bsRpos.toNat + n ∧ r.toNat = streamValue s.bsmem s.bsRpos.toNat n) ∧
    (s.bsRlimit.toNat < s.bsRpos.toNat + n →
      Raises (.bsRd n) s .outOfData ∧ (raiseError .outOfData s).errPos = s.bsRpos) ∧
    encode (.bsRd n) = packWord 0x14 0 (BitVec.ofNat 8 n)

/-- Rule R160: what `BS.WR` commands write after `BS.WINIT`, and `BS.FLUSH` closes, the same lengths read back. -/
def Obligations.BitStreamRoundTrip : Prop :=
  ∀ (s : State) (ps : List (Word × Nat)), Placed s → (∀ p ∈ ps, p.2 ≤ 32) → (ps.map Prod.snd).sum ≤ s.capBits →
    ∃ t₀ t u v w rs, exec .bsWinit s = .next t₀ ∧ runPuts ps t₀ = .next t ∧ exec .bsFlush t = .next u ∧
      exec .bsRinit { u with bsRlen := u.res } = .next v ∧
      runResults (ps.map fun p => .bsRd p.2) v = some (rs, w) ∧
      rs = ps.map (fun p => BitVec.ofNat 32 (p.1.toNat % 2 ^ p.2)) ∧ w.err = s.err ∧
      ∀ n, n ≤ 32 → 8 * u.res.toNat < (ps.map Prod.snd).sum + n → Raises (.bsRd n) w .outOfData

/-- Rules R40 and R150: every command keeps the unwritten bits of the writer's partial byte at 0. (A host write
through the window need not, rules R84 and R483; log 13.) -/
def Obligations.CommandsKeepTheTailClean : Prop :=
  ∀ (i : Instr) (s t : State), Placed s → CleanTail s → exec i s = .next t → CleanTail t

/-! ## Frequency tables (42_frequency.md) -/

/-- Rules R200, R201 and R202: `FT.CLR`, `FT.ACC` and `FT.LD`. -/
def Obligations.CountCommandResults : Prop :=
  (∀ s, s.acState = .idle → ∃ t, exec .ftClr s = .next t ∧ t = frameOf .ftClr s t ∧
    (∀ x, tget t.freq x = 0 ∧ tget t.cum x = 0) ∧ t.total = 0 ∧ t.ftNsym = 0 ∧ t.cumValid = true) ∧
  (∀ s x, s.acState = .idle → CountsAgree s → (tget s.freq x).toNat ≠ 2 ^ 32 - 1 → ∃ t,
    exec (.ftAcc x) s = .next t ∧ t = frameOf (.ftAcc x) s t ∧
    (tget t.freq x).toNat = (tget s.freq x).toNat + 1 ∧ t.total.toNat = s.total.toNat + 1 ∧ t.cumValid = false) ∧
  (∀ s x, s.acState = .idle → (tget s.freq x).toNat = 2 ^ 32 - 1 → Raises (.ftAcc x) s .countOverflow) ∧
  (∀ s x, s.acState = .idle → CountsAgree s → ∃ t, exec (.ftLd x) s = .next t ∧ t = frameOf (.ftLd x) s t ∧
    tget t.freq x = s.arg0 ∧ t.total.toNat + (tget s.freq x).toNat = s.total.toNat + s.arg0.toNat ∧
    t.cumValid = false) ∧
  (∀ s x, s.acState ≠ .idle →
    Raises .ftClr s .badState ∧ Raises (.ftAcc x) s .badState ∧ Raises (.ftLd x) s .badState) ∧
  encode .ftClr = 0x00000020 ∧ ∀ x, encode (.ftAcc x) = packWord 0x21 x 0 ∧ encode (.ftLd x) = packWord 0x22 x 0

/-- Rule R204: `FT.CUM` stores the running sums; inside a session it changes nothing. -/
def Obligations.FtCumStoresRunningSums : Prop :=
  (∀ s, CountsAgree s → ∃ t, exec .ftCum s = .next t ∧ t = frameOf .ftCum s t ∧
    (∀ x, (tget t.cum x).toNat = sumUpTo s.freq x) ∧ t.ftNsym.toNat = nonzeroCounts s.freq ∧ t.cumValid = true ∧
    tget t.cum 255 = s.total) ∧
  (∀ s, CountsAgree s → SessionOk s → s.acState ≠ .idle → exec .ftCum s = .next s) ∧
  encode .ftCum = 0x00000024

/-- Rules R203 and R205: `FT.RD` and `FT.CRD`. -/
def Obligations.CountReadResults : Prop :=
  (∀ s x, exec (.ftRd x) s = .next { s with res := tget s.freq x, resHi := 0 }) ∧
  (∀ s x, s.cumValid = true → ∃ lo hi : Word, exec (.ftCrd x) s = .next { s with res := lo, resHi := hi } ∧
    hi ++ lo = tget s.cum x) ∧
  (∀ s x, s.cumValid = false → Raises (.ftCrd x) s .badState) ∧
  ∀ x, encode (.ftRd x) = packWord 0x23 x 0 ∧ encode (.ftCrd x) = packWord 0x25 x 0

/-- Rule R208: `FT.CLR` and one `FT.ACC` for each byte count the bytes, in whichever order they come. -/
def Obligations.CountingIsOrderFree : Prop :=
  ∀ (s : State) (bs : List Sym), s.acState = .idle → (∀ x, bs.count x < 2 ^ 32) →
    (∃ t, runCommands (.ftClr :: bs.map .ftAcc) s = .next t ∧ t.err = s.err ∧
      (∀ x, (tget t.freq x).toNat = bs.count x) ∧ t.total.toNat = bs.length) ∧
    ∀ bs' : List Sym, bs'.Perm bs →
      runCommands (.ftClr :: bs'.map .ftAcc) s = runCommands (.ftClr :: bs.map .ftAcc) s

/-- Rule R207: the running sums never fall, end at `TOTAL`, and stand still exactly at the symbols of count 0. -/
def Obligations.RunningSumsFollowTheCounts : Prop :=
  ∀ s : State, CountsAgree s → s.cumValid = true →
    (∀ x y : Sym, x.toNat ≤ y.toNat → (tget s.cum x).toNat ≤ (tget s.cum y).toNat) ∧
    tget s.cum 255 = s.total ∧
    (tget s.cum 0 = 0 ↔ tget s.freq 0 = 0) ∧
    (∀ x y : Sym, x.toNat = y.toNat + 1 → (tget s.cum x = tget s.cum y ↔ tget s.freq x = 0))

/-- Rule R302: the intervals of the symbols with a nonzero count are disjoint and together cover [0, T), and the
lookup of rule R312 finds the one that holds a value. -/
def Obligations.IntervalsPartitionTheTotal : Prop :=
  ∀ s : State, CountsAgree s → s.cumValid = true →
    (s.cumLow 0 = 0 ∧ ∀ x y : Sym, x.toNat = y.toNat + 1 → s.cumLow x = s.cumHigh y) ∧
    (∀ x, tget s.freq x = 0 ↔ s.cumLow x = s.cumHigh x) ∧
    (∀ v : Int, 0 ≤ v → v < s.totalCount → ∃ x, s.symbolAt v = some x ∧ s.present x = true ∧ s.cumLow x ≤ v ∧
      v < s.cumHigh x ∧ ∀ y, s.cumLow y ≤ v → v < s.cumHigh y → y = x) ∧
    (∀ x v, s.cumLow x ≤ v → v < s.cumHigh x → 0 ≤ v ∧ v < s.totalCount)

/-! ## Gates (rule R359) -/

/-- Rule R359: each gate, and what it raises when it fails; no Huffman command runs inside a session. -/
def Obligations.FailedGatesRaise : Prop :=
  (∀ (s : State) (i : Instr), isHufCommand i → s.mode ≠ .huffman → Raises i s .badState) ∧
  (∀ (s : State) (i : Instr), SessionOk s → s.acState ≠ .idle → isHufCommand i → Raises i s .badState) ∧
  (∀ (s : State) (i : Instr), isAcCommand i → s.mode ≠ .arithmetic → Raises i s .badState) ∧
  (∀ (s : State) (x : Sym) (k : Nat), s.mode = .huffman → s.ctValid = false →
    Raises (.hufRdcode x k) s .badState ∧ Raises (.hufEnc x) s .badState ∧ Raises .hufDec s .badState) ∧
  (∀ s : State, s.mode = .arithmetic → s.acState ≠ .idle → Raises .acEinit s .badState ∧ Raises .acDinit s .badState) ∧
  (∀ (s : State) (x : Sym), s.mode = .arithmetic → s.acState ≠ .enc →
    Raises (.acEnc x) s .badState ∧ Raises .acEfin s .badState) ∧
  (∀ s : State, s.mode = .arithmetic → s.acState ≠ .dec → Raises .acDec s .badState ∧ Raises .acDfin s .badState) ∧
  (∀ (s : State) (x : Sym) (tag : Byte), s.acState ≠ .idle →
    Raises .ftClr s .badState ∧ Raises (.ftAcc x) s .badState ∧ Raises (.ftLd x) s .badState ∧
    Raises (.ctrMode tag) s .badState) ∧
  (∀ (s : State) (tag : Byte), s.acState = .idle → 1 < tag.toNat → Raises (.ctrMode tag) s .unsupportedMode) ∧
  (∀ (s : State) (x : Sym), s.cumValid = false → Raises (.ftCrd x) s .badState) ∧
  (∀ s : State, s.mode = .arithmetic → s.acState = .idle →
    (s.cumValid = false → Raises .acEinit s .badState ∧ Raises .acDinit s .badState) ∧
    (s.cumValid = true → s.total = 0 → Raises .acEinit s .emptyAlphabet ∧ Raises .acDinit s .emptyAlphabet) ∧
    (s.cumValid = true → quarter < s.total.toNat →
      Raises .acEinit s .modelTooLarge ∧ Raises .acDinit s .modelTooLarge))

/-! ## Huffman coding (43_huffman.md) -/

/-- Rules R254, R255 and R256: `HUF.LDLEN`, `HUF.RDLEN` and `HUF.RDCODE`. -/
def Obligations.CodeTableAccessResults : Prop :=
  (∀ s x n, s.mode = .huffman → ∃ t, exec (.hufLdlen x n) s = .next t ∧ t = frameOf (.hufLdlen x n) s t ∧
    tget t.len x = n ∧ t.ctValid = false) ∧
  (∀ s x, s.mode = .huffman → ∃ r : Word, exec (.hufRdlen x) s = .next { s with res := r, resHi := 0 } ∧
    r.toNat = (tget s.len x).toNat) ∧
  (∀ s x k, s.mode = .huffman → s.ctValid = true → k ≤ 7 → ∃ r : Word,
    exec (.hufRdcode x k) s = .next { s with res := r, resHi := 0 } ∧
    r.toNat = (tget s.code x).toNat / 2 ^ (32 * k) % 2 ^ 32) ∧
  (∀ s x n k, s.mode ≠ .huffman → Raises (.hufLdlen x n) s .badState ∧ Raises (.hufRdlen x) s .badState ∧
    Raises (.hufRdcode x k) s .badState) ∧
  (∀ s x k, s.mode = .huffman → s.ctValid = false → Raises (.hufRdcode x k) s .badState) ∧
  ∀ x n k, encode (.hufLdlen x n) = packWord 0x31 x n ∧ encode (.hufRdlen x) = packWord 0x33 x 0 ∧
    encode (.hufRdcode x k) = packWord 0x34 x (BitVec.ofNat 8 k)

/-- Rule R251: `HUF.BUILD` stores the lengths of `BuildLengths(FREQ)` and their canonical codes, whatever the counts.
-/
def Obligations.HufBuildStoresTheCanonicalTable : Prop :=
  (∀ s, s.mode = .huffman → ∃ t, exec .hufBuild s = .next t ∧ t = frameOf .hufBuild s t ∧
    t.len = buildLengths s.freq ∧ canon t.len = some t.code ∧ t.hufNsym.toNat = nonzeroLengths t.len ∧
    t.hufMaxlen.toNat = maxLength t.len ∧ t.ctValid = true ∧
    (∀ x, tget t.len x = 0 ↔ tget s.freq x = 0) ∧
    (∀ x, (∀ y, tget s.freq y ≠ 0 ↔ y = x) → (tget t.len x).toNat = 1 ∧ tget t.code x = 0)) ∧
  (∀ s, s.mode ≠ .huffman → Raises .hufBuild s .badState) ∧
  encode .hufBuild = 0x00000030

/-- Rule R259: the Kraft sum of a built table, that its codes never fail, and that no leaf lies deeper than 255. -/
def Obligations.BuiltLengthsMeetKraft : Prop :=
  ∀ freq : Table Word,
    (2 ≤ nonzeroCounts freq → kraftSum (buildLengths freq) = 2 ^ 255) ∧
    (nonzeroCounts freq = 1 → kraftSum (buildLengths freq) = 2 ^ 254) ∧
    (nonzeroCounts freq = 0 → kraftSum (buildLengths freq) = 0) ∧
    (∃ code, canon (buildLengths freq) = some code) ∧
    (∀ p ∈ symbolDepths freq, p.2 ≤ 255 ∧ (tget (buildLengths freq) p.1).toNat = p.2)

/-- Rule R260: if all 256 symbols have the same nonzero count, `HUF.BUILD` gives every symbol the length 8 and itself
as its code. -/
def Obligations.UniformCountsGiveByteCodes : Prop :=
  ∀ (s : State) (c : Word), s.mode = .huffman → c ≠ 0 → (∀ x, tget s.freq x = c) →
    ∃ t, exec .hufBuild s = .next t ∧ ∀ x, (tget t.len x).toNat = 8 ∧ (tget t.code x).toNat = x.toNat

/-- Rule R252: `Canon` fails exactly when the Kraft sum is above 1. -/
def Obligations.CanonFailsExactlyAboveKraft : Prop :=
  ∀ len : Table Byte, canon len = none ↔ 2 ^ 255 < kraftSum len

/-- Rule R252: where `Canon` succeeds, every code fits its length, absent symbols have code 0, and no code is a prefix
of another. -/
def Obligations.CanonicalCodesArePrefixFree : Prop :=
  ∀ (len : Table Byte) (code : Table CodeWord), canon len = some code →
    (∀ x, (tget code x).toNat < 2 ^ (tget len x).toNat) ∧
    (∀ x, tget len x = 0 → tget code x = 0) ∧
    (∀ x y, tget len x ≠ 0 → tget len y ≠ 0 → x ≠ y → ¬ CodePrefix len code x y)

/-- Rule R253: `HUF.CANON` rebuilds the code table from the lengths alone, or raises `CORRUPT_STREAM`. -/
def Obligations.HufCanonRebuildsTheTable : Prop :=
  (∀ s code, s.mode = .huffman → canon s.len = some code → ∃ t, exec .hufCanon s = .next t ∧
    t = frameOf .hufCanon s t ∧ t.code = code ∧ t.hufNsym.toNat = nonzeroLengths s.len ∧
    t.hufMaxlen.toNat = maxLength s.len ∧ t.ctValid = true) ∧
  (∀ s, s.mode = .huffman → 2 ^ 255 < kraftSum s.len →
    Raises .hufCanon s .corruptStream ∧ (raiseError .corruptStream s).errPos = s.bsRpos) ∧
  (∀ s t u, exec .hufBuild s = .next t → t.err = false → exec .hufCanon t = .next u → u = t) ∧
  (∀ s, s.mode ≠ .huffman → Raises .hufCanon s .badState) ∧
  encode .hufCanon = 0x00000032

/-- Rule R257: `HUF.ENC x` appends the code of `x`, or fails whole. -/
def Obligations.HufEncAppendsTheCode : Prop :=
  (∀ s x, Placed s → s.mode = .huffman → s.ctValid = true → tget s.len x ≠ 0 →
    (s.bsWpos.toNat + (tget s.len x).toNat ≤ s.capBits → ∃ m p,
      BitsWritten s.bsmem m s.bsWpos.toNat (bitsOf (tget s.code x).toNat (tget s.len x).toNat) ∧
      p.toNat = s.bsWpos.toNat + (tget s.len x).toNat ∧
      exec (.hufEnc x) s = .next { s with bsmem := m, bsWpos := p }) ∧
    (s.capBits < s.bsWpos.toNat + (tget s.len x).toNat →
      Raises (.hufEnc x) s .bufferFull ∧ (raiseError .bufferFull s).errPos = s.bsWpos)) ∧
  (∀ s x, s.mode = .huffman → s.ctValid = true → tget s.len x = 0 → Raises (.hufEnc x) s .absentSymbol) ∧
  (∀ s x, s.mode ≠ .huffman ∨ s.ctValid = false → Raises (.hufEnc x) s .badState) ∧
  ∀ x, encode (.hufEnc x) = packWord 0x35 x 0

/-- Rule R258: `HUF.DEC` returns the symbol whose code the stream goes on with; where there is none it raises
`CORRUPT_STREAM`, or `OUT_OF_DATA` where the data ends first. -/
def Obligations.HufDecFindsTheSymbol : Prop :=
  (∀ s, s.mode ≠ .huffman ∨ s.ctValid = false → Raises .hufDec s .badState) ∧ encode .hufDec = 0x00000036 ∧
  ∀ s, Placed s → CodesAgree s → s.mode = .huffman → s.ctValid = true →
    (∀ x, tget s.len x ≠ 0 → s.bsRpos.toNat + (tget s.len x).toNat ≤ s.bsRlimit.toNat →
      streamValue s.bsmem s.bsRpos.toNat (tget s.len x).toNat = (tget s.code x).toNat → ∃ p r : Word,
        exec .hufDec s = .next { s with bsRpos := p, res := r, resHi := 0 } ∧
        p.toNat = s.bsRpos.toNat + (tget s.len x).toNat ∧ r.toNat = x.toNat) ∧
    ((∀ x, tget s.len x ≠ 0 → s.bsRpos.toNat + (tget s.len x).toNat ≤ s.bsRlimit.toNat →
        streamValue s.bsmem s.bsRpos.toNat (tget s.len x).toNat ≠ (tget s.code x).toNat) →
      (s.bsRpos.toNat + maxLength s.len ≤ s.bsRlimit.toNat → Raises .hufDec s .corruptStream) ∧
      (s.bsRlimit.toNat < s.bsRpos.toNat + maxLength s.len → Raises .hufDec s .outOfData))

/-- Rules R257, R258 and R389: what `HUF.ENC` writes, `HUF.DEC` reads back from the same code table. -/
def Obligations.HuffmanRoundTrip : Prop :=
  ∀ (s : State) (ms : List Sym), Placed s → CodesAgree s → s.mode = .huffman → s.ctValid = true →
    (∀ x ∈ ms, tget s.len x ≠ 0) → (ms.map fun x => (tget s.len x).toNat).sum ≤ s.capBits →
    ∃ t rs u, runCommands (.bsWinit :: (ms.map .hufEnc ++ [.bsFlush])) s = .next t ∧ t.err = s.err ∧
      runResults (.bsRinit :: List.replicate ms.length .hufDec) { t with bsRlen := t.res } = some (rs, u) ∧
      rs.tail = ms.map (fun x => x.setWidth 32) ∧ u.err = s.err

/-! ## Arithmetic coding (44_arithmetic.md) -/

/-- Rules R303, R306 and R310: `AC.EINIT` opens an encode session on the full interval. -/
def Obligations.AcEinitOpensASession : Prop :=
  (∀ s, CountsAgree s → s.mode = .arithmetic → s.acState = .idle → s.cumValid = true → 1 ≤ s.total.toNat →
    s.total.toNat ≤ quarter → ∃ x, exec .acEinit s = .next { s with
      acLow := 0, acHigh := 0xFFFFFFFF, acPend := 0, acCode := 0, acSingle := decide (s.ftNsym.toNat = 1),
      acSym := x, acState := .enc } ∧
      (s.ftNsym.toNat = 1 → ∀ y, tget s.freq y ≠ 0 ↔ y = x) ∧ (s.ftNsym.toNat ≠ 1 → x = 0)) ∧
  (∀ s, s.mode ≠ .arithmetic ∨ s.acState ≠ .idle ∨ s.cumValid = false → Raises .acEinit s .badState) ∧
  (∀ s, s.mode = .arithmetic → s.acState = .idle → s.cumValid = true →
    (s.total = 0 → Raises .acEinit s .emptyAlphabet) ∧ (quarter < s.total.toNat → Raises .acEinit s .modelTooLarge)) ∧
  encode .acEinit = 0x00000040

/-- Rules R303, R310 and R311: `AC.DINIT` opens a decode session and loads 32 zero-filled bits, or reads nothing in a
single-symbol session. -/
def Obligations.AcDinitLoadsTheCode : Prop :=
  (∀ s, Placed s → CountsAgree s → s.mode = .arithmetic → s.acState = .idle → s.cumValid = true →
    1 ≤ s.total.toNat → s.total.toNat ≤ quarter → ∃ x c p, exec .acDinit s = .next { s with
      acLow := 0, acHigh := 0xFFFFFFFF, acPend := 0, acCode := c, acSingle := decide (s.ftNsym.toNat = 1),
      acSym := x, acState := .dec, bsRpos := p } ∧
      (s.ftNsym.toNat = 1 → (∀ y, tget s.freq y ≠ 0 ↔ y = x) ∧ c = 0 ∧ p = s.bsRpos) ∧
      (s.ftNsym.toNat ≠ 1 → x = 0 ∧
        c.toNat = zeroFilledValue s.bsmem s.bsRlimit.toNat s.bsRpos.toNat 32 ∧
        p.toNat = min (s.bsRpos.toNat + 32) s.bsRlimit.toNat)) ∧
  (∀ s, s.mode ≠ .arithmetic ∨ s.acState ≠ .idle ∨ s.cumValid = false → Raises .acDinit s .badState) ∧
  (∀ s, s.mode = .arithmetic → s.acState = .idle → s.cumValid = true →
    (s.total = 0 → Raises .acDinit s .emptyAlphabet) ∧ (quarter < s.total.toNat → Raises .acDinit s .modelTooLarge)) ∧
  encode .acDinit = 0x00000043

/-- Rules R304 and R314 item 3: `Narrow` writes both bounds from the old ones; while range ≥ T, narrowing to a symbol
of nonzero count gives a nonempty interval inside the old one, its bounds the exact ones. -/
def Obligations.NarrowKeepsAnInnerInterval : Prop :=
  (∀ (s : State) (x : Sym), s.total ≠ 0 →
    narrow x s = .ok { s with acLow := (s.narrowed x).1, acHigh := (s.narrowed x).2 }) ∧
  ∀ (s : State) (x : Sym), CountsAgree s → s.cumValid = true → s.present x = true → s.totalCount ≤ s.acRange →
    (s.acLow.toNat ≤ (s.narrowed x).1.toNat ∧ (s.narrowed x).1.toNat ≤ (s.narrowed x).2.toNat ∧
      (s.narrowed x).2.toNat ≤ s.acHigh.toNat) ∧
    ((s.narrowed x).1.toNat : Int) = s.acLow.toNat + s.acRange * s.cumLow x / s.totalCount ∧
    ((s.narrowed x).2.toNat : Int) = s.acLow.toNat + s.acRange * s.cumHigh x / s.totalCount - 1

/-- Rule R314 items 1 and 2: from ordered bounds the loop ends within 32 shifts, the bounds stay ordered all along the
path, and at its end there is headroom. -/
def Obligations.RenormalizationRestoresHeadroom : Prop :=
  ∀ low high : Word, low.toNat ≤ high.toNat →
    PathEnds low high (renormPath arcPrecision low high) ∧
    (∀ cs, cs <+: renormPath arcPrecision low high →
      (pathBounds cs (low, high)).1.toNat ≤ (pathBounds cs (low, high)).2.toNat) ∧
    Headroom (pathBounds (renormPath arcPrecision low high) (low, high)).1
      (pathBounds (renormPath arcPrecision low high) (low, high)).2 ∧
    (pathBounds (renormPath arcPrecision low high) (low, high)).1.toNat + quarter ≤
      (pathBounds (renormPath arcPrecision low high) (low, high)).2.toNat

/-- Rule R315: the thresholds of the renormalization cases are the ones the rule states in words. -/
def Obligations.ThresholdsAreEquivalent : Prop :=
  ∀ low high : Word,
    (arcMax ≤ 4 * low.toNat ↔ quarter ≤ low.toNat) ∧
    (4 * high.toNat < 3 * arcMax ↔ high.toNat < 3 * quarter) ∧
    (low.toNat ≤ high.toNat → (low.getLsbD 31 = high.getLsbD 31 ↔ high.toNat < half ∨ half ≤ low.toNat)) ∧
    (high.toNat < half ∨ half ≤ low.toNat ↔ renormCase low high = some .e1 ∨ renormCase low high = some .e2) ∧
    (renormCase low high = some .e3 →
      (quarter ≤ low.toNat ∧ high.toNat < 3 * quarter) ∧
      ((flipSecond low).toNat = low.toNat - quarter ∧ (flipSecond high).toNat = high.toNat + quarter) ∧
      ((RenormCase.e3.bounds low high).1.toNat = 2 * (low.toNat - quarter) ∧
        (RenormCase.e3.bounds low high).2.toNat = 2 * (high.toNat - quarter) + 1))

/-- Rules R305 and R307: `AC.ENC x` narrows, then follows the path of renormalization: it emits the path's bits and
keeps its pending count, or raises the first error the path meets. -/
def Obligations.AcEncFollowsThePath : Prop :=
  (∀ (s : State) (x : Sym), Placed s → s.mode = .arithmetic → s.acState = .enc → s.present x = true →
    s.acSingle = false → s.total ≠ 0 →
    (pathError s.capBits (s.symbolPath x) s.acPend.toNat s.bsWpos.toNat = none → ∃ m p n,
      BitsWritten s.bsmem m s.bsWpos.toNat (pathBits (s.symbolPath x) s.acPend.toNat) ∧
      p.toNat = s.bsWpos.toNat + (pathBits (s.symbolPath x) s.acPend.toNat).length ∧
      n.toNat = pathPend (s.symbolPath x) s.acPend.toNat ∧
      exec (.acEnc x) s = .next { s with
        acLow := (pathBounds (s.symbolPath x) (s.narrowed x)).1
        acHigh := (pathBounds (s.symbolPath x) (s.narrowed x)).2
        acPend := n, bsmem := m, bsWpos := p }) ∧
    (∀ e, pathError s.capBits (s.symbolPath x) s.acPend.toNat s.bsWpos.toNat = some e → Raises (.acEnc x) s e)) ∧
  (∀ (s : State) (x : Sym), s.mode = .arithmetic → s.acState = .enc → s.present x = true → s.acSingle = true →
    exec (.acEnc x) s = .next s) ∧
  (∀ (s : State) (x : Sym), s.mode = .arithmetic → s.acState = .enc → s.present x = false →
    Raises (.acEnc x) s .absentSymbol) ∧
  (∀ (s : State) (x : Sym), s.mode ≠ .arithmetic ∨ s.acState ≠ .enc → Raises (.acEnc x) s .badState) ∧
  ∀ x, encode (.acEnc x) = packWord 0x41 x 0

/-- Rules R308 and R313: `AC.EFIN` writes two bits and the pending ones, or nothing in a single-symbol session, and
closes the session; `AC.DFIN` closes a decode session and changes nothing else. -/
def Obligations.AcFinCommandsCloseTheSession : Prop :=
  (∀ s : State, Placed s → s.mode = .arithmetic → s.acState = .enc → s.acSingle = false →
    s.acPend.toNat ≠ 2 ^ 32 - 1 →
    (s.bsWpos.toNat + 2 + s.acPend.toNat ≤ s.capBits → ∃ m p,
      BitsWritten s.bsmem m s.bsWpos.toNat
        (decide (quarter ≤ s.acLow.toNat) ::
          List.replicate (s.acPend.toNat + 1) (decide (s.acLow.toNat < quarter))) ∧
      p.toNat = s.bsWpos.toNat + 2 + s.acPend.toNat ∧
      exec .acEfin s = .next { s with acPend := 0, bsmem := m, bsWpos := p, acState := .idle }) ∧
    (s.capBits < s.bsWpos.toNat + 2 + s.acPend.toNat → Raises .acEfin s .bufferFull)) ∧
  (∀ s : State, s.mode = .arithmetic → s.acState = .enc → s.acSingle = false → s.acPend.toNat = 2 ^ 32 - 1 →
    Raises .acEfin s .countOverflow) ∧
  (∀ s : State, s.mode = .arithmetic → s.acState = .enc → s.acSingle = true →
    exec .acEfin s = .next { s with acState := .idle }) ∧
  (∀ s : State, s.mode = .arithmetic → s.acState = .dec → exec .acDfin s = .next { s with acState := .idle }) ∧
  (∀ s : State, s.mode ≠ .arithmetic ∨ s.acState ≠ .enc → Raises .acEfin s .badState) ∧
  (∀ s : State, s.mode ≠ .arithmetic ∨ s.acState ≠ .dec → Raises .acDfin s .badState) ∧
  encode .acEfin = 0x00000042 ∧ encode .acDfin = 0x00000045

/-- Rule R312: `AC.DEC` returns the symbol whose interval holds the value and follows the path of renormalization,
reading zero-filled bits; a value outside [0, T) raises `CORRUPT_STREAM`. -/
def Obligations.AcDecFindsTheSymbol : Prop :=
  (∀ s : State, Placed s → CountsAgree s → OpenSession s → s.acState = .dec → s.acSingle = false → ∃ x p r,
    (s.present x = true ∧ s.cumLow x ≤ s.decodedValue ∧ s.decodedValue < s.cumHigh x) ∧
    r.toNat = x.toNat ∧ p.toNat = min (s.bsRpos.toNat + (s.symbolPath x).length) s.bsRlimit.toNat ∧
    exec .acDec s = .next { s with
      acLow := (pathBounds (s.symbolPath x) (s.narrowed x)).1
      acHigh := (pathBounds (s.symbolPath x) (s.narrowed x)).2
      acCode := pathCode s.bsmem s.bsRlimit.toNat (s.symbolPath x) s.bsRpos.toNat s.acCode
      bsRpos := p, res := r, resHi := 0 }) ∧
  (∀ s : State, s.mode = .arithmetic → s.acState = .dec → s.acSingle = true →
    exec .acDec s = .next { s with res := s.acSym.setWidth 32, resHi := 0 }) ∧
  (∀ s : State, s.mode = .arithmetic → s.acState = .dec → s.acSingle = false → 0 < s.acRange →
    (s.decodedValue < 0 ∨ s.totalCount ≤ s.decodedValue) → Raises .acDec s .corruptStream) ∧
  (∀ s : State, s.mode ≠ .arithmetic ∨ s.acState ≠ .dec → Raises .acDec s .badState) ∧
  encode .acDec = 0x00000044

/-- Rule R309: from the same bounds and model, decoding a symbol leads to the bounds that encoding it leads to. -/
def Obligations.DecoderTakesTheEncodersPath : Prop :=
  ∀ (s t s' t' : State) (x : Sym), Placed s → Placed s' → s.freq = s'.freq → s.cum = s'.cum → s.total = s'.total →
    s.acLow = s'.acLow → s.acHigh = s'.acHigh → s.acSingle = false → s'.acSingle = false → s.err = false →
    s'.err = false → exec (.acEnc x) s = .next t → t.err = false → exec .acDec s' = .next t' → t'.err = false →
    t'.res = x.setWidth 32 → t.acLow = t'.acLow ∧ t.acHigh = t'.acHigh

/-- Rule R316: a message encoded from a model, flushed, and decoded from the same model comes back; and the payload is
a function of the model and the message alone. -/
def Obligations.ArithmeticRoundTrip : Prop :=
  ∀ (s t : State) (ms : List Sym), Placed s → CountsAgree s → s.err = false → s.mode = .arithmetic →
    s.acState = .idle → s.cumValid = true → 1 ≤ s.total.toNat → s.total.toNat ≤ quarter →
    (∀ x ∈ ms, s.present x = true) →
    runCommands (.bsWinit :: .acEinit :: (ms.map .acEnc ++ [.acEfin, .bsFlush])) s = .next t → t.err = false →
    ∃ rs u, runResults (.bsRinit :: .acDinit :: List.replicate ms.length .acDec) { t with bsRlen := t.res }
        = some (rs, u) ∧ rs.drop 2 = ms.map (fun x => x.setWidth 32) ∧ u.err = false ∧
      ∀ s' t' : State, Placed s' → CountsAgree s' → s'.freq = s.freq → s'.err = false → s'.mode = .arithmetic →
        s'.acState = .idle → s'.cumValid = true →
        runCommands (.bsWinit :: .acEinit :: (ms.map .acEnc ++ [.acEfin, .bsFlush])) s' = .next t' → t'.err = false →
        t'.res = t.res ∧ ∀ a, a < t.res.toNat → t'.bsmem.read a = t.bsmem.read a

/-! ## Invariants of every step -/

/-- Rules R39 to R41 and R80: every step keeps the cursors and `BSMEM` where they belong. -/
def Obligations.StepKeepsEverythingPlaced : Prop :=
  ∀ s t : State, Placed s → step s = .next t → Placed t

/-- Rules R30 to R33: every step keeps `TOTAL` the sum of the counts, and `CUM` and `FT_NSYM` right while
`CUM_VALID` = 1. -/
def Obligations.StepKeepsTheCountsAgreed : Prop :=
  ∀ s t : State, CountsAgree s → step s = .next t → CountsAgree t

/-- Rules R35 and R36: every step keeps the code table the canonical one of the lengths while `CT_VALID` = 1. -/
def Obligations.StepKeepsTheCodesAgreed : Prop :=
  ∀ s t : State, CodesAgree s → step s = .next t → CodesAgree t

/-- Rules R23 and R420: every step keeps `ERRCODE` 0 exactly while `ERR` = 0. -/
def Obligations.StepKeepsTheErrorLatch : Prop :=
  ∀ s t : State, ErrorLatch s → step s = .next t → ErrorLatch t

/-- Rules R38, R310 and R314: every step keeps what holds of an open session: the mode, the locked model, the headroom
of the bounds, and the code value between them. -/
def Obligations.StepKeepsTheSession : Prop :=
  ∀ s t : State, Placed s → CountsAgree s → SessionOk s → step s = .next t → SessionOk t

/-- Rule R358 ("No command waits"; 90_conflicts.md): in a state with the invariants no step faults, so every fault of
the model lies outside the states a machine can reach. -/
def Obligations.InvariantStatesAreSafe : Prop :=
  ∀ s : State, Inv s → Safe s
end

