-- ==== Sys2Proof/Laws/Memory.lean ====
section
/-! SUPPORT. The laws of `BSMEM` as a canonical list: read after write, the form every write keeps, and that the
form makes equal memories equal lists. -/

namespace Sys2Proof.Machine

theorem read_write_same (m : Memory) (a : Nat) (v : Byte) (h : m.Pairwise fun c d => c.1 < d.1) :
    (m.write a v).read a = v := by
  induction m with
  | nil => by_cases hv : v = unlistedByte <;> simp [Memory.write, Memory.read, hv]
  | cons c m ih =>
    obtain ⟨hc, hm⟩ := List.pairwise_cons.1 h
    have above : ∀ m' : Memory, (∀ d ∈ m', a < d.1) → Memory.read m' a = unlistedByte := by
      intro m'
      induction m' with
      | nil => intro _; rfl
      | cons d m' ih' =>
        intro hd
        have := hd d (by simp)
        rw [Memory.read, if_neg (by omega), ih' fun e he => hd e (by simp [he])]
    unfold Memory.write
    split
    · split
      · next hac hv =>
        rw [hv]
        refine above (c :: m) fun d hd => ?_
        rcases List.mem_cons.1 hd with rfl | hd
        · exact hac
        · exact Nat.lt_trans hac (hc d hd)
      · simp [Memory.read]
    · split
      · next hac =>
        subst hac
        split
        · next hv => rw [hv]; exact above m fun d hd => hc d hd
        · simp [Memory.read]
      · next hac => rw [Memory.read, if_neg (by omega), ih hm]

theorem read_write_other (m : Memory) {a b : Nat} (v : Byte) (hab : b ≠ a) :
    (m.write a v).read b = m.read b := by
  induction m with
  | nil =>
    unfold Memory.write
    split
    · rfl
    · simp [Memory.read, hab.symm]
  | cons c m ih =>
    unfold Memory.write
    split
    · split
      · rfl
      · rw [Memory.read, if_neg (by simpa using hab.symm)]
    · split
      · next hac =>
        subst hac
        split
        · rw [Memory.read, if_neg hab.symm]
        · rw [Memory.read, if_neg (by simpa using hab.symm), Memory.read, if_neg hab.symm]
      · rw [Memory.read, Memory.read, ih]

theorem mem_write {m : Memory} {a : Nat} {v : Byte} {c : Host.Cell} (h : c ∈ m.write a v) :
    c ∈ m ∨ (c = (a, v) ∧ v ≠ unlistedByte) := by
  induction m with
  | nil =>
    unfold Memory.write at h
    split at h
    · simp at h
    · next hv => exact .inr ⟨by simpa using h, hv⟩
  | cons d m ih =>
    unfold Memory.write at h
    split at h
    · split at h
      · exact .inl h
      · next hv =>
        rcases List.mem_cons.1 h with rfl | h
        · exact .inr ⟨rfl, hv⟩
        · exact .inl h
    · split at h
      · split at h
        · exact .inl (List.mem_cons_of_mem _ h)
        · next hv =>
          rcases List.mem_cons.1 h with rfl | h
          · exact .inr ⟨rfl, hv⟩
          · exact .inl (List.mem_cons_of_mem _ h)
      · rcases List.mem_cons.1 h with rfl | h
        · exact .inl (by simp)
        · rcases ih h with h | h
          · exact .inl (List.mem_cons_of_mem _ h)
          · exact .inr h

/-- Every write keeps the canonical form. -/
theorem write_wf {m : Memory} (a : Nat) (v : Byte) (h : m.wf) : (m.write a v).wf := by
  refine ⟨?_, fun c hc => ?_⟩
  · obtain ⟨h, -⟩ := h
    induction m with
    | nil => unfold Memory.write; split <;> simp
    | cons d m ih =>
      obtain ⟨hd, hm⟩ := List.pairwise_cons.1 h
      unfold Memory.write
      split
      · next had =>
        split
        · exact h
        · refine List.pairwise_cons.2 ⟨fun e he => ?_, h⟩
          rcases List.mem_cons.1 he with rfl | he
          · exact had
          · exact Nat.lt_trans had (hd e he)
      · split
        · next hnl had =>
          split
          · exact hm
          · exact List.pairwise_cons.2 ⟨fun e he => had ▸ hd e he, hm⟩
        · next hnl hne =>
          refine List.pairwise_cons.2 ⟨fun e he => ?_, ih hm⟩
          rcases mem_write he with he | ⟨rfl, -⟩
          · exact hd e he
          · show d.1 < a
            omega
  · rcases mem_write hc with hc | ⟨rfl, hv⟩
    · exact h.2 c hc
    · exact hv

/-- A write below the capacity keeps every listed address below it. -/
theorem write_below {m : Memory} {a cap : Nat} (v : Byte) (ha : a < cap) (h : m.below cap) :
    (m.write a v).below cap := by
  intro c hc
  rcases mem_write hc with hc | ⟨rfl, -⟩
  · exact h c hc
  · exact ha

theorem read_eq_of_mem {m : Memory} {c : Host.Cell} (h : m.Pairwise fun c d => c.1 < d.1) (hc : c ∈ m) :
    m.read c.1 = c.2 := by
  induction m with
  | nil => simp at hc
  | cons d m ih =>
    obtain ⟨hd, hm⟩ := List.pairwise_cons.1 h
    rcases List.mem_cons.1 hc with rfl | hc
    · simp [Memory.read]
    · have := hd c hc
      rw [Memory.read, if_neg (by omega), ih hm hc]

theorem mem_of_read {m : Memory} {a : Nat} (h : m.read a ≠ unlistedByte) : (a, m.read a) ∈ m := by
  induction m with
  | nil => simp [Memory.read] at h
  | cons d m ih =>
    unfold Memory.read at h ⊢
    split at h
    · next hd => subst hd; simp
    · next hd => simp [hd, ih h]

/-- The canonical form makes equal memories equal lists. -/
theorem memory_ext {m n : Memory} (hm : m.wf) (hn : n.wf) (h : ∀ a, m.read a = n.read a) : m = n := by
  have sub : ∀ {p q : Memory}, p.wf → (∀ a, p.read a = q.read a) → ∀ c ∈ p, c ∈ q := by
    intro p q hp hr c hc
    have hc' := read_eq_of_mem hp.1 hc
    have hne : q.read c.1 ≠ unlistedByte := by rw [← hr, hc']; exact hp.2 c hc
    have := mem_of_read hne
    rwa [← hr, hc'] at this
  have nodup : ∀ {p : Memory}, p.wf → p.Nodup := fun hp => hp.1.imp fun hlt e => by simp [e] at hlt
  have perm : m.Perm n := (List.perm_ext_iff_of_nodup (nodup hm) (nodup hn)).2 fun c =>
    ⟨sub hm h c, sub hn (fun a => (h a).symm) c⟩
  exact perm.eq_of_pairwise (fun c d _ _ h₁ h₂ => absurd h₁ (by omega)) hm.1 hn.1

end Sys2Proof.Machine
end

