-- ==== Sys2Proof/Laws/Results.lean ====
section
/-! SUPPORT. How the pieces of a command's pseudocode end: peeling binds, guards and `conclude` apart. -/

namespace Sys2Proof.Machine

theorem bind_ok_iff {α β : Type} {x : Res α} {f : α → Res β} {b : β} :
    (x >>= f) = .ok b ↔ ∃ a, x = .ok a ∧ f a = .ok b := by
  cases x <;> simp [bind, Except.bind]

theorem bind_error_iff {α β : Type} {x : Res α} {f : α → Res β} {e : Stop} :
    (x >>= f) = .error e ↔ x = .error e ∨ ∃ a, x = .ok a ∧ f a = .error e := by
  cases x <;> simp [bind, Except.bind]

@[simp] theorem ok_bind {α β : Type} (a : α) (f : α → Res β) : ((.ok a : Res α) >>= f) = f a := rfl

@[simp] theorem error_bind {α β : Type} (e : Stop) (f : α → Res β) : ((.error e : Res α) >>= f) = .error e := rfl

@[simp] theorem guardRaise_true (e : ErrCode) : guardRaise true e = .ok () := rfl

@[simp] theorem guardRaise_false (e : ErrCode) : guardRaise false e = .error (.raise e) := rfl

theorem guardRaise_ok_iff {c : Bool} {e : ErrCode} {u : Unit} : guardRaise c e = .ok u ↔ c = true := by
  cases c <;> simp [guardRaise]

theorem guardRaise_error_iff {c : Bool} {e : ErrCode} {x : Stop} :
    guardRaise c e = .error x ↔ c = false ∧ x = .raise e := by
  cases c <;> simp [guardRaise, eq_comm]

theorem requireMode_ok {m : Mode} {s : State} (h : s.mode = m) : s.requireMode m = .ok () := by
  simp [State.requireMode, h]

theorem requireMode_raises {m : Mode} {s : State} (h : s.mode ≠ m) :
    s.requireMode m = .error (.raise .badState) := by
  simp [State.requireMode, h, guardRaise]

theorem requireSession_ok {a : AcState} {s : State} (h : s.acState = a) : s.requireSession a = .ok () := by
  simp [State.requireSession, h]

theorem requireSession_raises {a : AcState} {s : State} (h : s.acState ≠ a) :
    s.requireSession a = .error (.raise .badState) := by
  simp [State.requireSession, h, guardRaise]

@[simp] theorem conclude_ok (s t : State) : conclude s (.ok t) = .next t := rfl

@[simp] theorem conclude_raise (s : State) (e : ErrCode) :
    conclude s (.error (.raise e)) = .next (raiseError e s) := rfl

@[simp] theorem conclude_fault (s : State) (f : Fault) : conclude s (.error (.fault f)) = .fault f := rfl

/-- A command answers a next state in two ways: its pseudocode ran to the end, or it raised an error. -/
theorem conclude_next_iff {s t : State} {r : Res State} :
    conclude s r = .next t ↔ r = .ok t ∨ ∃ e, r = .error (.raise e) ∧ t = raiseError e s := by
  rcases r with (e | f) | u
  · simp [eq_comm]
  · simp
  · simp

theorem conclude_fault_iff {s : State} {r : Res State} {f : Fault} :
    conclude s r = .fault f ↔ r = .error (.fault f) := by
  rcases r with (e | f) | u <;> simp

/-- No command of the machine refuses. -/
theorem conclude_ne_refused {s : State} {r : Res State} {x : Refusal} : conclude s r ≠ .refused x := by
  rcases r with (e | f) | u <;> simp

end Sys2Proof.Machine
end

