-- ==== Sys2Proof/Laws/Bits.lean ====
section
/-! SUPPORT. The bit stream in `BSMEM`: what writing bits does to every stream position, and what the bit
primitives answer. -/

namespace Sys2Proof.Machine

/-! ## Writing bits into a memory -/

/-- The memory after `PutBit(b)` at position `p` (rule R150), as a function of the memory alone. -/
def Memory.putBit (m : Memory) (p : Nat) (b : Bool) : Memory :=
  let m := if p % 8 = 0 then m.write (p / 8) 0 else m
  if b then m.write (p / 8) (m.read (p / 8) ||| (0x80#8 >>> (p % 8))) else m

/-- The memory after a list of bits from position `p` on. -/
def Memory.putList (m : Memory) : Nat → List Bool → Memory
  | _, [] => m
  | p, b :: bs => (m.putBit p b).putList (p + 1) bs

@[simp] theorem bitsOf_length (v k : Nat) : (bitsOf v k).length = k := by
  induction k with
  | zero => rfl
  | succ k ih => simp [bitsOf, ih]

theorem bitsOf_getElem (v k i : Nat) (h : i < (bitsOf v k).length) : (bitsOf v k)[i] = v.testBit (k - 1 - i) := by
  induction k generalizing i with
  | zero => simp [bitsOf] at h
  | succ k ih =>
    cases i with
    | zero => simp [bitsOf]
    | succ i =>
      have : k + 1 - 1 - (i + 1) = k - 1 - i := by omega
      simp only [bitsOf, List.getElem_cons_succ, this]
      exact ih i (by simpa [bitsOf] using h)

theorem mask_bit : ∀ o : Fin 8, ∀ r : Fin 8, (0x80#8 >>> o.val).getLsbD (7 - r.val) = decide (r = o) := by decide

theorem bit_or_mask (v : Byte) (o q : Nat) (ho : o < 8) :
    (v ||| (0x80#8 >>> o)).getLsbD (7 - q % 8) = (v.getLsbD (7 - q % 8) || decide (q % 8 = o)) := by
  have := mask_bit ⟨o, ho⟩ ⟨q % 8, by omega⟩
  simp only [Fin.mk.injEq] at this
  rw [BitVec.getLsbD_or, this]

theorem putBit_wf {m : Memory} (p : Nat) (b : Bool) (h : m.wf) : (m.putBit p b).wf := by
  unfold Memory.putBit
  dsimp only
  split <;> split <;> first | exact h | exact write_wf _ _ h | exact write_wf _ _ (write_wf _ _ h)

theorem putBit_below {m : Memory} {p cap : Nat} (b : Bool) (hp : p / 8 < cap) (h : m.below cap) :
    (m.putBit p b).below cap := by
  unfold Memory.putBit
  dsimp only
  split <;> split <;> first | exact h | exact write_below _ hp h | exact write_below _ hp (write_below _ hp h)

/-- What `PutBit(b)` at `p` leaves at every position (rule R150). -/
theorem putBit_bit {m : Memory} (h : m.wf) (p q : Nat) (b : Bool) :
    (m.putBit p b).bit q =
      if q = p then b || (decide (p % 8 ≠ 0) && m.bit p)
      else if q / 8 = p / 8 ∧ p % 8 = 0 then false else m.bit q := by
  have hz : ((0 : Byte).getLsbD (7 - q % 8)) = false := by simp
  unfold Memory.putBit Memory.bit
  by_cases ho : p % 8 = 0
  · have hw := write_wf (p / 8) 0 h
    simp only [ho, if_true]
    by_cases hq : q / 8 = p / 8
    · cases b
      · simp only [Bool.false_eq_true, if_false, hq, read_write_same _ _ _ h.1, hz]
        by_cases e : q = p <;> simp [e]
      · simp only [if_true, hq, read_write_same _ _ _ h.1, read_write_same _ _ _ hw.1,
          bit_or_mask _ _ _ (show 0 < 8 by omega), hz, Bool.false_or]
        by_cases e : q = p
        · simp [e, ho]
        · have : q % 8 ≠ 0 := by omega
          simp [e, this]
    · have hne : q ≠ p := fun e => hq (by rw [e])
      cases b
      · simp only [Bool.false_eq_true, if_false, read_write_other _ _ hq, hne, hq, false_and]
      · simp only [if_true, read_write_other _ _ hq, hne, hq, false_and, if_false]
  · simp only [ho, if_false, and_false]
    cases b
    · by_cases e : q = p <;> simp [e, ho]
    · simp only [if_true]
      by_cases hq : q / 8 = p / 8
      · simp only [hq, read_write_same _ _ _ h.1, bit_or_mask _ _ _ (show p % 8 < 8 by omega)]
        by_cases e : q = p
        · simp [e]
        · have : q % 8 ≠ p % 8 := by omega
          simp [e, this]
      · have hne : q ≠ p := fun e => hq (by rw [e])
        simp only [read_write_other _ _ hq, hne, if_false]

theorem putList_wf (bs : List Bool) : ∀ {m : Memory} (p : Nat), m.wf → (m.putList p bs).wf := by
  induction bs with
  | nil => intro m p h; exact h
  | cons b bs ih => intro m p h; exact ih (p + 1) (putBit_wf p b h)

theorem putList_below {cap : Nat} (bs : List Bool) :
    ∀ {m : Memory} {p : Nat}, p + bs.length ≤ 8 * cap → m.below cap → (m.putList p bs).below cap := by
  induction bs with
  | nil => intro m p _ h; exact h
  | cons b bs ih =>
    intro m p hp h
    simp only [List.length_cons] at hp
    exact ih (by omega) (putBit_below b (by omega) h)

/-- What writing bits from `p` on leaves at every position: earlier positions keep their bits; a written position
holds its bit, or also the old one where its byte had been started before `p`; later positions of the bytes
started here are 0, all others keep their bits. -/
theorem putList_bit (bs : List Bool) : ∀ {m : Memory} (p q : Nat), m.wf →
    (m.putList p bs).bit q =
      if q < p then m.bit q
      else if q < p + bs.length then bs.getD (q - p) false || (decide (8 * (q / 8) < p) && m.bit q)
      else if p ≤ 8 * (q / 8) ∧ 8 * (q / 8) < p + bs.length then false else m.bit q := by
  induction bs with
  | nil =>
    intro m p q _
    have : ¬ (p ≤ 8 * (q / 8) ∧ 8 * (q / 8) < p) := by omega
    by_cases h : q < p <;> simp [Memory.putList, h, this]
  | cons b bs ih =>
    intro m p q h
    rw [Memory.putList, ih (p + 1) q (putBit_wf p b h), putBit_bit h]
    simp only [List.length_cons]
    by_cases h1 : q < p
    · have e1 : q < p + 1 := by omega
      have e2 : q ≠ p := by omega
      have e3 : ¬ (q / 8 = p / 8 ∧ p % 8 = 0) := by omega
      simp [h1, e1, e2, e3]
    · by_cases h2 : q = p
      · subst h2
        have e : decide (q % 8 ≠ 0) = decide (8 * (q / 8) < q) := by
          rw [decide_eq_decide]; omega
        simp [e]
      · have e1 : ¬ q < p + 1 := by omega
        obtain ⟨d, rfl⟩ : ∃ d, q = p + 1 + d := ⟨q - (p + 1), by omega⟩
        have e2 : p + 1 + d - (p + 1) = d := by omega
        have e3 : p + 1 + d - p = d + 1 := by omega
        simp only [h1, h2, e1, if_false, e2, e3, List.getD_cons_succ]
        by_cases h3 : p + 1 + d < p + 1 + bs.length
        · have h3' : p + 1 + d < p + (bs.length + 1) := by omega
          simp only [h3, h3', if_true]
          by_cases h4 : (p + 1 + d) / 8 = p / 8 ∧ p % 8 = 0
          · have : ¬ 8 * ((p + 1 + d) / 8) < p := by omega
            rw [if_pos h4, decide_eq_false this]; simp
          · by_cases h5 : 8 * ((p + 1 + d) / 8) < p
            · have : 8 * ((p + 1 + d) / 8) < p + 1 := by omega
              simp [h4, h5, this]
            · have : ¬ 8 * ((p + 1 + d) / 8) < p + 1 := by omega
              simp [h4, h5, this]
        · have h3' : ¬ p + 1 + d < p + (bs.length + 1) := by omega
          simp only [h3, h3', if_false]
          by_cases h4 : (p + 1 + d) / 8 = p / 8 ∧ p % 8 = 0
          · have e4 : p ≤ 8 * ((p + 1 + d) / 8) ∧ 8 * ((p + 1 + d) / 8) < p + (bs.length + 1) := by omega
            have e5 : ¬ (p + 1 ≤ 8 * ((p + 1 + d) / 8) ∧ 8 * ((p + 1 + d) / 8) < p + 1 + bs.length) := by omega
            rw [if_neg e5, if_pos h4, if_pos e4]
          · by_cases h5 : p + 1 ≤ 8 * ((p + 1 + d) / 8) ∧ 8 * ((p + 1 + d) / 8) < p + 1 + bs.length
            · rw [if_pos h5, if_pos (by omega)]
            · rw [if_neg h5, if_neg h4, if_neg (by omega)]

/-- Two memories with the same bits in a byte read the same byte. -/
theorem read_eq_of_bits {m n : Memory} {a : Nat} (h : ∀ r < 8, m.bit (8 * a + r) = n.bit (8 * a + r)) :
    m.read a = n.read a := by
  refine BitVec.eq_of_getLsbD_eq fun i hi => ?_
  have := h (7 - i) (by omega)
  have e1 : (8 * a + (7 - i)) / 8 = a := by omega
  have e2 : 7 - (8 * a + (7 - i)) % 8 = i := by omega
  rwa [Memory.bit, Memory.bit, e1, e2] at this

/-- Bytes that hold no written position, and no later one of a started byte, read as before. -/
theorem putList_read {m : Memory} (h : m.wf) (p a : Nat) (bs : List Bool)
    (ha : 8 * a + 8 ≤ p ∨ p + bs.length ≤ 8 * a) : (m.putList p bs).read a = m.read a := by
  refine read_eq_of_bits fun r hr => ?_
  have e : (8 * a + r) / 8 = a := by omega
  rw [putList_bit bs p _ h, e]
  rcases ha with ha | ha
  · rw [if_pos (by omega)]
  · by_cases h1 : 8 * a + r < p
    · rw [if_pos h1]
    · rw [if_neg h1, if_neg (by omega), if_neg (by omega)]

/-! ## The bit primitives -/

theorem capBits_bound {s : State} (h : s.config.wf) : s.capBits ≤ 2 ^ 31 := by
  have := h.2
  simp only [State.capBits, Config.capBits]
  omega

/-- `PutBit` inside the capacity (rule R150). -/
theorem putBit_ok {s : State} (b : Bool) (hp : s.bsWpos.toNat < s.capBits) :
    putBit b s = .ok { s with bsmem := s.bsmem.putBit s.bsWpos.toNat b, bsWpos := s.bsWpos + 1 } := by
  have ha : s.bsWpos.toNat / 8 < s.config.bsCap := by
    simp only [State.capBits, Config.capBits] at hp
    omega
  unfold putBit Memory.putBit memWrite memRead
  by_cases ho : s.bsWpos.toNat % 8 = 0 <;> cases b <;> simp [ho, ha]

/-- The state after the bits `bs` have been written at the cursor. -/
def State.put (s : State) (bs : List Bool) : State :=
  { s with bsmem := s.bsmem.putList s.bsWpos.toNat bs, bsWpos := s.bsWpos + BitVec.ofNat 32 bs.length }

@[simp] theorem put_config (s : State) (bs : List Bool) : (s.put bs).config = s.config := rfl
@[simp] theorem put_acPend (s : State) (bs : List Bool) : (s.put bs).acPend = s.acPend := rfl
@[simp] theorem put_capBits (s : State) (bs : List Bool) : (s.put bs).capBits = s.capBits := rfl
@[simp] theorem put_bsmem (s : State) (bs : List Bool) :
    (s.put bs).bsmem = s.bsmem.putList s.bsWpos.toNat bs := rfl
@[simp] theorem put_nil (s : State) : s.put [] = s := by simp [State.put, Memory.putList]

theorem put_bsWpos {s : State} {bs : List Bool} (hc : s.config.wf) (hp : s.bsWpos.toNat + bs.length ≤ s.capBits) :
    (s.put bs).bsWpos.toNat = s.bsWpos.toNat + bs.length := by
  have := capBits_bound hc
  simp only [State.put, BitVec.toNat_add, BitVec.toNat_ofNat]
  omega

/-- Writing one list after another is writing both. -/
theorem put_append {s : State} (as bs : List Bool) (hc : s.config.wf)
    (hp : s.bsWpos.toNat + as.length ≤ s.capBits) : (s.put as).put bs = s.put (as ++ bs) := by
  have hm : ∀ (as : List Bool) (m : Memory) (p : Nat),
      (m.putList p as).putList (p + as.length) bs = m.putList p (as ++ bs) := by
    intro as
    induction as with
    | nil => intro m p; rfl
    | cons a as ih =>
      intro m p
      simp only [Memory.putList, List.cons_append, List.length_cons, ← ih]
      congr 1
      omega
  have hw := put_bsWpos hc hp
  unfold State.put at hw ⊢
  simp only at hw ⊢
  rw [hw, hm, List.length_append, BitVec.add_assoc, ← BitVec.ofNat_add]

/-- `PutBit` inside the capacity (rule R150). -/
theorem putBit_put {s : State} (b : Bool) (hp : s.bsWpos.toNat < s.capBits) : putBit b s = .ok (s.put [b]) := by
  rw [putBit_ok b hp]
  rfl

/-- A list of `PutBit`s inside the capacity. -/
theorem putBits_ok (v k : Nat) : ∀ {s : State}, s.config.wf → s.bsWpos.toNat + k ≤ s.capBits →
    putBits v k s = .ok (s.put (bitsOf v k)) := by
  induction k with
  | zero => intro s _ _; simp [putBits, bitsOf]
  | succ k ih =>
    intro s hc hp
    have h1 : s.bsWpos.toNat + [v.testBit k].length ≤ s.capBits := by simp; omega
    have h2 := put_bsWpos hc h1
    rw [putBits, putBit_put _ (by omega), ok_bind,
      ih (s := s.put [_]) hc (by rw [h2, put_capBits]; simp; omega), put_append _ _ hc h1]
    rfl

/-- `PutBit` repeated inside the capacity. -/
theorem putRepeat_ok (b : Bool) (k : Nat) : ∀ {s : State}, s.config.wf → s.bsWpos.toNat + k ≤ s.capBits →
    putRepeat b k s = .ok (s.put (List.replicate k b)) := by
  induction k with
  | zero => intro s _ _; simp [putRepeat]
  | succ k ih =>
    intro s hc hp
    have h1 : s.bsWpos.toNat + [b].length ≤ s.capBits := by simp; omega
    have h2 := put_bsWpos hc h1
    rw [putRepeat, putBit_put _ (by omega), ok_bind,
      ih (s := s.put [_]) hc (by rw [h2, put_capBits]; simp; omega), put_append _ _ hc h1]
    rfl

/-- `WriteBits(v, k)` (rule R151): all `k` bits, or `BUFFER_FULL`. -/
theorem writeBits_eq (v k : Nat) {s : State} (hc : s.config.wf) :
    writeBits v k s =
      if s.bsWpos.toNat + k ≤ s.capBits then .ok (s.put (bitsOf v k)) else .error (.raise .bufferFull) := by
  unfold writeBits State.fits
  split
  · next h => rw [decide_eq_true h, guardRaise_true, ok_bind, putBits_ok v k hc h]
  · next h => rw [decide_eq_false h, guardRaise_false, error_bind]

/-- `GetBit(p)` inside the memory (rule R151). -/
theorem getBit_ok {s : State} {p : Nat} (hp : p < s.capBits) : getBit p s = .ok (s.bsmem.bit p) := by
  have : p / 8 < s.config.bsCap := by
    simp only [State.capBits, Config.capBits] at hp
    omega
  simp [getBit, memRead, this, Memory.bit]

/-- The number `k` bits from `p` on stand for after those in `v`, first bit most significant. -/
def Memory.value (m : Memory) : Nat → Nat → Nat → Nat
  | 0, _, v => v
  | k + 1, p, v => m.value k (p + 1) (shiftIn v (m.bit p))

/-- `k` bits from `p` on, inside the memory (rule R157). -/
theorem readBits_ok {s : State} (k : Nat) : ∀ (p v : Nat), p + k ≤ s.capBits →
    readBits s k p v = .ok (s.bsmem.value k p v) := by
  induction k with
  | zero => intro p v _; rfl
  | succ k ih =>
    intro p v h
    rw [readBits, getBit_ok (by omega), ok_bind, ih (p + 1) _ (by omega), Memory.value]

/-- `GetBitZF()` where the limit lies inside the memory (rule R152). -/
theorem getBitZF_ok {s : State} (h : s.bsRlimit.toNat ≤ s.capBits) :
    getBitZF s = .ok (if s.bsRpos.toNat < s.bsRlimit.toNat
      then (s.bsmem.bit s.bsRpos.toNat, { s with bsRpos := s.bsRpos + 1 }) else (false, s)) := by
  unfold getBitZF
  split
  · next hp => rw [getBit_ok (by omega)]; rfl
  · rfl

end Sys2Proof.Machine
end

