-- ==== Sys2Proof/Laws/Stream.lean ====
section
/-! SUPPORT. The stream as numbers: what a read of bits gives, and what written bits read back as. -/

namespace Sys2Proof.Machine

/-- Writing a list of bits leaves what `BitsWritten` says. -/
theorem putList_written {m : Memory} (h : m.wf) (p : Nat) (bs : List Bool) : BitsWritten m (m.putList p bs) p bs :=
  ⟨putList_wf bs p h, fun q => putList_bit bs p q h⟩

/-- The canonical memory in which the bits have been written is the only one. -/
theorem written_unique {m n n' : Memory} {p : Nat} {bs : List Bool} (h : BitsWritten m n p bs)
    (h' : BitsWritten m n' p bs) : n = n' :=
  memory_ext h.1 h'.1 fun _ => read_eq_of_bits fun _ _ => by rw [h.2, h'.2]

/-- Bytes that hold no written bit, and are not the rest of a started one, read as before. -/
theorem written_read {m n : Memory} {p a : Nat} {bs : List Bool} (h : BitsWritten m n p bs)
    (ha : 8 * a + 8 ≤ p ∨ p + bs.length ≤ 8 * a) : n.read a = m.read a := by
  refine read_eq_of_bits fun r hr => ?_
  have e : (8 * a + r) / 8 = a := by omega
  rw [h.2, e]
  rcases ha with ha | ha
  · rw [if_pos (by omega)]
  · by_cases h1 : 8 * a + r < p
    · rw [if_pos h1]
    · rw [if_neg h1, if_neg (by omega), if_neg (by omega)]

theorem value_streamValue (m : Memory) (p : Nat) : ∀ (k v : Nat), m.value k p v = 2 ^ k * v + streamValue m p k := by
  have shift : ∀ (k v p : Nat), m.value (k + 1) p v = 2 * m.value k p v + (m.bit (p + k)).toNat := by
    intro k
    induction k with
    | zero => intro v p; simp [Memory.value, shiftIn]
    | succ k ih =>
      intro v p
      rw [Memory.value, ih, Memory.value, Nat.add_right_comm p 1 k, Nat.add_assoc p k 1]
  intro k
  induction k with
  | zero => intro v; simp [Memory.value, streamValue]
  | succ k ih => intro v; rw [shift, ih, streamValue, Nat.pow_succ]; ring

/-- `k` bits from `p` on, inside the memory, are `streamValue` (rule R157). -/
theorem readBits_streamValue {s : State} {p k : Nat} (h : p + k ≤ s.capBits) :
    readBits s k p 0 = .ok (streamValue s.bsmem p k) := by
  rw [readBits_ok k p 0 h, value_streamValue]
  simp

theorem streamValue_lt (m : Memory) (p k : Nat) : streamValue m p k < 2 ^ k := by
  induction k with
  | zero => simp [streamValue]
  | succ k ih =>
    have := Bool.toNat_le (m.bit (p + k))
    rw [streamValue, Nat.pow_succ]
    omega

/-- The number of a stretch is the number of its first part, shifted, and the number of the rest. -/
theorem streamValue_add (m : Memory) (p j k : Nat) :
    streamValue m p (j + k) = 2 ^ k * streamValue m p j + streamValue m (p + j) k := by
  induction k with
  | zero => simp [streamValue]
  | succ k ih =>
    rw [← Nat.add_assoc, streamValue, ih, streamValue, Nat.pow_succ, Nat.add_assoc p j k]
    ring

/-- The first part of a stretch is the number of the stretch without its last bits. -/
theorem streamValue_prefix (m : Memory) (p j k : Nat) : streamValue m p (j + k) / 2 ^ k = streamValue m p j := by
  rw [streamValue_add]
  have := streamValue_lt m (p + j) k
  rw [Nat.mul_add_div (Nat.two_pow_pos k), Nat.div_eq_of_lt this, Nat.add_zero]

theorem streamValue_congr {m n : Memory} {p k : Nat} (h : ∀ q, p ≤ q → q < p + k → m.bit q = n.bit q) :
    streamValue m p k = streamValue n p k := by
  induction k with
  | zero => rfl
  | succ k ih =>
    rw [streamValue, streamValue, ih fun q h1 h2 => h q h1 (by omega), h (p + k) (by omega) (by omega)]

/-- A stretch that holds the low bits of `v`, most significant first, stands for `v` modulo 2^k. -/
theorem streamValue_of_bits {m : Memory} {p v : Nat} : ∀ {k : Nat},
    (∀ i, i < k → m.bit (p + i) = v.testBit (k - 1 - i)) → streamValue m p k = v % 2 ^ k := by
  intro k
  induction k generalizing v with
  | zero => intro _; simp [streamValue, Nat.mod_one]
  | succ k ih =>
    intro h
    have h1 : streamValue m p k = v / 2 % 2 ^ k := ih fun i hi => by
      have := h i (by omega)
      rw [this, Nat.testBit_div_two]
      congr 1
      omega
    have h2 := h k (by omega)
    have e : k + 1 - 1 - k = 0 := by omega
    rw [e] at h2
    rw [streamValue, h1, h2, Nat.testBit_zero]
    have h3 : v % 2 ^ (k + 1) = 2 * (v / 2 % 2 ^ k) + v % 2 := by
      rw [Nat.pow_succ, Nat.mul_comm, Nat.mod_mul]
      omega
    rw [h3]
    rcases Nat.mod_two_eq_zero_or_one v with h4 | h4 <;> simp [h4]

/-- A written bit of a byte that the writer started at `p` or later, or whose tail was clean, holds its bit. -/
theorem written_bit {m n : Memory} {p i : Nat} {bs : List Bool} (h : BitsWritten m n p bs) (hi : i < bs.length)
    (hc : p % 8 ≠ 0 → (p + i) / 8 = p / 8 → m.bit (p + i) = false) : n.bit (p + i) = bs.getD i false := by
  rw [h.2, if_neg (by omega), if_pos (by omega), Nat.add_sub_cancel_left]
  by_cases hp : 8 * ((p + i) / 8) < p
  · rw [hc (by omega) (by omega)]
    simp
  · rw [decide_eq_false hp]
    simp

/-- What `WriteBits(v, k)` wrote over a clean tail reads back as `v` modulo 2^k (rules R151, R157). -/
theorem streamValue_written {m n : Memory} {p v k : Nat} (h : BitsWritten m n p (bitsOf v k))
    (hc : ∀ q, p % 8 ≠ 0 → q / 8 = p / 8 → p ≤ q → m.bit q = false) : streamValue n p k = v % 2 ^ k := by
  refine streamValue_of_bits fun i hi => ?_
  have hl : i < (bitsOf v k).length := by simpa using hi
  rw [written_bit h hl fun h1 h2 => hc _ h1 h2 (by omega), List.getD_eq_getElem _ _ hl, bitsOf_getElem]

end Sys2Proof.Machine
end

