-- ==== Sys2Proof/Laws/Tables.lean ====
section
/-! SUPPORT. What reading, writing, building and searching a table by symbol gives. -/

namespace Sys2Proof.Machine

theorem allSyms_length : allSyms.length = 256 := by simp [allSyms]

theorem allSyms_getElem (i : Nat) (h : i < allSyms.length) : allSyms[i] = BitVec.ofNat 8 i := by
  simp [allSyms]

@[simp] theorem mem_allSyms (x : Sym) : x ∈ allSyms := by
  refine List.mem_map.2 ⟨x.toNat, by simpa using x.isLt, by simp⟩

theorem allSyms_nodup : allSyms.Nodup := by
  refine List.Nodup.map_on ?_ List.nodup_range
  intro a ha b hb h
  have := congrArg BitVec.toNat h
  simp only [List.mem_range] at ha hb
  simpa [Nat.mod_eq_of_lt ha, Nat.mod_eq_of_lt hb] using this

@[simp] theorem tget_tset_same {α : Type} (t : Table α) (x : Sym) (v : α) : tget (tset t x v) x = v := by
  simp [tget, tset]

theorem tget_tset_other {α : Type} (t : Table α) {x y : Sym} (v : α) (h : y ≠ x) :
    tget (tset t x v) y = tget t y := by
  have : x.toNat ≠ y.toNat := fun e => h (BitVec.eq_of_toNat_eq e.symm)
  simp [tget, tset, this]

theorem tget_tset {α : Type} (t : Table α) (x y : Sym) (v : α) :
    tget (tset t x v) y = if y = x then v else tget t y := by
  split
  · next h => subst h; simp
  · next h => exact tget_tset_other t v h

@[simp] theorem tget_tmake {α : Type} (f : Sym → α) (x : Sym) : tget (tmake f) x = f x := by
  simp only [tget, tmake, Vector.getElem_mk, List.getElem_toArray, List.getElem_map, allSyms_getElem,
    BitVec.ofNat_toNat, BitVec.setWidth_eq]

@[simp] theorem tget_tfill {α : Type} (v : α) (x : Sym) : tget (tfill v) x = v := by
  simp [tget, tfill]

@[simp] theorem tget_replicate {α : Type} (v : α) (x : Sym) : tget (Vector.replicate 256 v) x = v := by
  simp [tget]

/-- Two tables with the same entry for every symbol are the same table. -/
theorem table_ext {α : Type} {t u : Table α} (h : ∀ x, tget t x = tget u x) : t = u := by
  refine Vector.ext fun i hi => ?_
  have := h (BitVec.ofNat 8 i)
  simpa [tget, Nat.mod_eq_of_lt hi] using this

/-- A search gives a symbol that has the property. -/
theorem findSym_has {p : Sym → Bool} {x : Sym} (h : findSym p = some x) : p x = true :=
  List.find?_some h

/-- A search fails exactly where no symbol has the property. -/
theorem findSym_none_iff {p : Sym → Bool} : findSym p = none ↔ ∀ x, p x = false := by
  simp [findSym]

/-- Where only one symbol has the property, the search gives it. -/
theorem findSym_unique {p : Sym → Bool} {x : Sym} (hx : p x = true) (h : ∀ y, p y = true → y = x) :
    findSym p = some x := by
  cases hf : findSym p with
  | none => simp [findSym_none_iff.1 hf x] at hx
  | some y => rw [h y (findSym_has hf)]

theorem toList_eq_map {α : Type} (t : Table α) : t.toList = allSyms.map (tget t) := by
  apply List.ext_getElem
  · simp [allSyms_length]
  · intro i h1 h2
    have hi : i % 256 = i := Nat.mod_eq_of_lt (by simpa using h1)
    simp [allSyms_getElem, tget, hi]

theorem entries_eq_map {α : Type} (t : Table α) : entries t = allSyms.map fun x => (x, tget t x) := by
  apply List.ext_getElem
  · simp [entries, allSyms_length]
  · intro i h1 h2
    simp [entries, toList_eq_map]

theorem countNonzero_eq {w : Nat} (t : Table (BitVec w)) :
    countNonzero t = allSyms.countP fun x => tget t x != 0 := by
  rw [countNonzero, toList_eq_map, List.countP_map]
  rfl

theorem countNonzero_le {w : Nat} (t : Table (BitVec w)) : countNonzero t ≤ 256 := by
  rw [countNonzero_eq, ← allSyms_length]
  exact List.countP_le_length

/-- Where one symbol alone has an entry that is not 0, the search finds it. -/
theorem countNonzero_one {w : Nat} {t : Table (BitVec w)} (h : countNonzero t = 1) :
    ∃ x, findSym (fun y => tget t y != 0) = some x ∧ ∀ y, tget t y ≠ 0 ↔ y = x := by
  rw [countNonzero_eq, List.countP_eq_length_filter, List.length_eq_one_iff] at h
  obtain ⟨x, hx⟩ := h
  have mem : ∀ y, (tget t y != 0) = true ↔ y = x := fun y => by
    have : y ∈ allSyms.filter (fun y => tget t y != 0) ↔ y = x := by rw [hx]; simp
    rw [List.mem_filter] at this
    exact ⟨fun h => this.1 ⟨mem_allSyms y, h⟩, fun h => (this.2 h).2⟩
  exact ⟨x, findSym_unique ((mem x).2 rfl) fun y hy => (mem y).1 hy, fun y => by rw [← bne_iff_ne]; exact mem y⟩

end Sys2Proof.Machine
end

