-- ==== Sys2Proof/Laws/Huffman.lean ====
section
/-! SUPPORT. The Huffman tree, the canonical codes and the decode walk: what each function of rules R251, R252 and
R258 gives. -/

namespace Sys2Proof.Machine

/-! ## The queue (rule R251) -/

/-- The symbols of a node's leaves, left to right. -/
def HuffNode.leaves : HuffNode → List Sym
  | .leaf s _ => [s]
  | .internal _ l r _ => l.leaves ++ r.leaves

theorem leaves_length_pos (n : HuffNode) : 1 ≤ n.leaves.length := by
  induction n with
  | leaf s w => simp [HuffNode.leaves]
  | internal w l r q ihl ihr => simp [HuffNode.leaves]; omega

theorem removeMin_none_iff {q : List HuffNode} : removeMin q = none ↔ q = [] := by
  cases q with
  | nil => simp [removeMin]
  | cons n ns =>
    simp only [removeMin]
    split
    · simp
    · split <;> simp

/-- The order in which nodes come out is total: what neither of two pairs puts first, the outer pair does not. -/
theorem before_negTrans {a b c : HuffNode} (h1 : a.before b = false) (h2 : b.before c = false) :
    a.before c = false := by
  cases a <;> cases b <;> cases c <;> simp_all [HuffNode.before] <;> omega

theorem before_asymm {a b : HuffNode} (h : a.before b = true) : b.before a = false := by
  cases a <;> cases b <;> simp_all [HuffNode.before] <;> omega

/-- `RemoveMin` takes one node out and keeps the others; no other node comes before it. -/
theorem removeMin_some : ∀ {q : List HuffNode} {m : HuffNode} {rest : List HuffNode},
    removeMin q = some (m, rest) → q.Perm (m :: rest) ∧ ∀ n ∈ rest, n.before m = false := by
  intro q
  induction q with
  | nil => intro m rest h; simp [removeMin] at h
  | cons a ns ih =>
    intro m rest h
    simp only [removeMin] at h
    cases hr : removeMin ns with
    | none =>
      rw [removeMin_none_iff] at hr
      subst hr
      simp [removeMin] at h
      obtain ⟨rfl, rfl⟩ := h
      exact ⟨List.Perm.refl _, by simp⟩
    | some p =>
      obtain ⟨b, rest'⟩ := p
      obtain ⟨hp, hb⟩ := ih hr
      rw [hr] at h
      simp only at h
      split at h
      · next hab =>
        simp only [Option.some.injEq, Prod.mk.injEq] at h
        obtain ⟨rfl, rfl⟩ := h
        refine ⟨List.Perm.refl _, fun n hn => ?_⟩
        rcases List.mem_cons.1 (hp.mem_iff.1 hn) with rfl | hn
        · exact before_asymm hab
        · exact before_negTrans (hb n hn) (before_asymm hab)
      · next hab =>
        simp only [Option.some.injEq, Prod.mk.injEq] at h
        obtain ⟨rfl, rfl⟩ := h
        refine ⟨(hp.cons a).trans (List.Perm.swap _ _ _), fun n hn => ?_⟩
        rcases List.mem_cons.1 hn with rfl | hn
        · simpa using hab
        · exact hb n hn

/-- One round of merging, where there are two nodes to merge. -/
theorem mergeAll_round {fuel seq : Nat} {q : List HuffNode} (h : 2 ≤ q.length) : ∃ a b rest,
    q.Perm (a :: b :: rest) ∧ (∀ n ∈ b :: rest, n.before a = false) ∧ (∀ n ∈ rest, n.before b = false) ∧
      mergeAll (fuel + 1) seq q = mergeAll fuel (seq + 1) (.internal (a.weight + b.weight) a b seq :: rest) := by
  cases h1 : removeMin q with
  | none => rw [removeMin_none_iff] at h1; subst h1; simp at h
  | some p =>
    obtain ⟨a, q1⟩ := p
    obtain ⟨hp1, hm1⟩ := removeMin_some h1
    cases h2 : removeMin q1 with
    | none => rw [removeMin_none_iff] at h2; subst h2; simp [hp1.length_eq] at h
    | some p2 =>
      obtain ⟨b, q2⟩ := p2
      obtain ⟨hp2, hm2⟩ := removeMin_some h2
      exact ⟨a, b, q2, hp1.trans (hp2.cons a), fun n hn => hm1 n (hp2.mem_iff.2 hn), hm2, by simp [mergeAll, h1, h2]⟩

/-- With at most one node there is nothing to merge. -/
theorem mergeAll_stop {fuel seq : Nat} {q : List HuffNode} (h : q.length ≤ 1) : mergeAll fuel seq q = q := by
  match q, fuel with
  | [], 0 => rfl
  | [], _ + 1 => rfl
  | [_], 0 => rfl
  | [_], _ + 1 => rfl

/-- Merging keeps the leaves. -/
theorem mergeAll_leaves (fuel : Nat) : ∀ (seq : Nat) (q : List HuffNode),
    ((mergeAll fuel seq q).flatMap HuffNode.leaves).Perm (q.flatMap HuffNode.leaves) := by
  induction fuel with
  | zero => intro seq q; exact List.Perm.refl _
  | succ fuel ih =>
    intro seq q
    by_cases h : 2 ≤ q.length
    · obtain ⟨a, b, rest, hp, -, -, e⟩ := mergeAll_round (fuel := fuel) (seq := seq) h
      rw [e]
      refine (ih _ _).trans ?_
      have := (hp.flatMap_right HuffNode.leaves).symm
      simpa [HuffNode.leaves, List.append_assoc] using this
    · rw [mergeAll_stop (by omega)]

/-- Merging with enough rounds leaves one tree. -/
theorem mergeAll_one (fuel : Nat) : ∀ (seq : Nat) {q : List HuffNode}, q ≠ [] → q.length ≤ fuel + 1 →
    ∃ n, mergeAll fuel seq q = [n] := by
  induction fuel with
  | zero =>
    intro seq q hq hl
    match q, hq with
    | [n], _ => exact ⟨n, rfl⟩
    | _ :: _ :: _, _ => simp at hl
  | succ fuel ih =>
    intro seq q hq hl
    by_cases h : 2 ≤ q.length
    · obtain ⟨a, b, rest, hp, -, -, e⟩ := mergeAll_round (fuel := fuel) (seq := seq) h
      rw [e]
      refine ih _ (by simp) ?_
      have := hp.length_eq
      simp at this ⊢
      omega
    · rw [mergeAll_stop (by omega)]
      match q, hq with
      | [n], _ => exact ⟨n, rfl⟩
      | _ :: _ :: _, _ => simp at h

/-! ## Depths (rules R251, R259) -/

theorem depths_leaves (n : HuffNode) : ∀ d, (n.depths d).map Prod.fst = n.leaves := by
  induction n with
  | leaf s w => intro d; rfl
  | internal w l r q ihl ihr => intro d; simp [HuffNode.depths, HuffNode.leaves, ihl, ihr]

/-- No leaf lies above its tree's root, and a tree of k leaves is at most k − 1 deep. -/
theorem depths_range (n : HuffNode) : ∀ d, ∀ p ∈ n.depths d, d ≤ p.2 ∧ p.2 + 1 ≤ d + n.leaves.length := by
  induction n with
  | leaf s w => intro d p hp; simp [HuffNode.depths] at hp; subst hp; simp [HuffNode.leaves]
  | internal w l r q ihl ihr =>
    intro d p hp
    have hl := leaves_length_pos l
    have hr := leaves_length_pos r
    rcases List.mem_append.1 hp with hp | hp
    · have := ihl _ p hp
      simp [HuffNode.leaves]
      omega
    · have := ihr _ p hp
      simp [HuffNode.leaves]
      omega

/-- In a full binary tree Σ 2^(D − depth) = 2^(D − d) for every D that no depth passes. -/
theorem depths_kraft (n : HuffNode) (D : Nat) : ∀ d, (∀ p ∈ n.depths d, p.2 ≤ D) →
    ((n.depths d).map fun p => 2 ^ (D - p.2)).sum = 2 ^ (D - d) := by
  induction n with
  | leaf s w => intro d _; simp [HuffNode.depths]
  | internal w l r q ihl ihr =>
    intro d h
    simp only [HuffNode.depths, List.mem_append] at h
    have hl : ∀ p ∈ l.depths (d + 1), p.2 ≤ D := fun p hp => h p (.inl hp)
    have hr : ∀ p ∈ r.depths (d + 1), p.2 ≤ D := fun p hp => h p (.inr hp)
    have hd : d + 1 ≤ D := by
      have hne : l.depths (d + 1) ≠ [] := fun e => by
        have := depths_leaves l (d + 1)
        have hpos := leaves_length_pos l
        rw [e] at this
        simp [← this] at hpos
      obtain ⟨p, hp⟩ := List.exists_mem_of_ne_nil _ hne
      exact Nat.le_trans (depths_range l _ p hp).1 (hl p hp)
    simp only [HuffNode.depths, List.map_append, List.sum_append, ihl _ hl, ihr _ hr]
    rw [show D - d = D - (d + 1) + 1 by omega, Nat.pow_succ]
    omega

/-- The initial queue has one leaf for each symbol with a count, in ascending order. -/
theorem leafQueue_leaves (freq : Table Word) :
    (leafQueue freq).flatMap HuffNode.leaves = allSyms.filter fun x => tget freq x != 0 := by
  rw [leafQueue, entries_eq_map, List.filter_map, List.map_map, List.flatMap_map]
  simp only [Function.comp_def, HuffNode.leaves]
  rw [List.flatMap_singleton']

theorem leafQueue_length (freq : Table Word) : (leafQueue freq).length = nonzeroCounts freq := by
  rw [leafQueue, entries_eq_map, List.filter_map, List.map_map, List.length_map, nonzeroCounts, countNonzero_eq,
    List.countP_eq_length_filter]
  rfl

/-- The tree of a model with two or more symbols: all its leaves, from the root on. -/
theorem symbolDepths_tree {freq : Table Word} (h : 2 ≤ nonzeroCounts freq) : ∃ n : HuffNode,
    symbolDepths freq = n.depths 0 ∧ n.leaves.Perm (allSyms.filter fun x => tget freq x != 0) := by
  rw [← leafQueue_length] at h
  obtain ⟨n, hn⟩ := mergeAll_one (leafQueue freq).length 0 (q := leafQueue freq)
    (fun e => by rw [e] at h; simp at h) (by omega)
  refine ⟨n, ?_, ?_⟩
  · unfold symbolDepths
    split
    · next e => rw [e] at h; simp at h
    · next e => rw [e] at h; simp at h
    · rw [hn]; simp
  · have := mergeAll_leaves (leafQueue freq).length 0 (leafQueue freq)
    rw [hn, leafQueue_leaves] at this
    simpa using this

/-- The symbols with a depth are those with a count, each once. -/
theorem symbolDepths_symbols (freq : Table Word) :
    ((symbolDepths freq).map Prod.fst).Perm (allSyms.filter fun x => tget freq x != 0) := by
  by_cases h : 2 ≤ nonzeroCounts freq
  · obtain ⟨n, e, hp⟩ := symbolDepths_tree h
    rw [e, depths_leaves]
    exact hp
  · rw [← leafQueue_length] at h
    rw [← leafQueue_leaves]
    unfold symbolDepths
    split
    · next e => rw [e]; simp
    · next n e => rw [e, depths_leaves]; simp
    · next h0 h1 =>
      exfalso
      match hq : leafQueue freq with
      | [] => exact h0 hq
      | [n] => exact h1 n hq
      | _ :: _ :: _ => rw [hq] at h; simp at h

/-- Every depth is between 1 and 255 (rule R259). -/
theorem symbolDepths_range (freq : Table Word) : ∀ p ∈ symbolDepths freq, 1 ≤ p.2 ∧ p.2 ≤ 255 := by
  intro p hp
  by_cases h : 2 ≤ nonzeroCounts freq
  · obtain ⟨n, e, hl⟩ := symbolDepths_tree h
    rw [e] at hp
    have hlen : n.leaves.length = nonzeroCounts freq := by
      rw [hl.length_eq, nonzeroCounts, countNonzero_eq, List.countP_eq_length_filter]
    have hle : nonzeroCounts freq ≤ 256 := countNonzero_le freq
    have top := depths_range n 0 p hp
    refine ⟨?_, by omega⟩
    match n with
    | .leaf s w => simp [HuffNode.leaves] at hlen; omega
    | .internal w l r q =>
      rcases List.mem_append.1 hp with hp | hp
      · exact (depths_range l 1 p hp).1
      · exact (depths_range r 1 p hp).1
  · rw [← leafQueue_length] at h
    unfold symbolDepths at hp
    split at hp
    · simp at hp
    · next n e =>
      have hn : ∃ x w, n = .leaf x w := by
        have : n ∈ leafQueue freq := by rw [e]; simp
        obtain ⟨y, -, rfl⟩ := List.mem_map.1 this
        exact ⟨_, _, rfl⟩
      obtain ⟨x, w, rfl⟩ := hn
      simp [HuffNode.depths] at hp
      subst hp
      simp
    · next h0 h1 =>
      exfalso
      match hq : leafQueue freq with
      | [] => exact h0 hq
      | [n] => exact h1 n hq
      | _ :: _ :: _ => rw [hq] at h; simp at h

/-- In a list of pairs without a repeated key a lookup finds each pair. -/
theorem lookup_of_mem {α β : Type} [BEq α] [LawfulBEq α] {l : List (α × β)} (h : (l.map Prod.fst).Nodup)
    {p : α × β} (hp : p ∈ l) : l.lookup p.1 = some p.2 := by
  induction l with
  | nil => simp at hp
  | cons a l ih =>
    obtain ⟨k, v⟩ := a
    simp only [List.map_cons, List.nodup_cons] at h
    rcases List.mem_cons.1 hp with rfl | hm
    · simp
    · have hne : (p.1 == k) = false := by
        rw [beq_eq_false_iff_ne]
        rintro rfl
        exact h.1 (List.mem_map.2 ⟨p, hm, rfl⟩)
      rw [List.lookup_cons, hne]
      exact ih h.2 hm

theorem lookup_none {α β : Type} [BEq α] [LawfulBEq α] {l : List (α × β)} {k : α} (h : k ∉ l.map Prod.fst) :
    l.lookup k = none := by
  induction l with
  | nil => rfl
  | cons a l ih =>
    simp only [List.map_cons, List.mem_cons, not_or] at h
    rw [List.lookup_cons, beq_eq_false_iff_ne.2 h.1]
    exact ih h.2

theorem symbolDepths_nodup (freq : Table Word) : ((symbolDepths freq).map Prod.fst).Nodup :=
  (symbolDepths_symbols freq).nodup_iff.2 (allSyms_nodup.filter _)

theorem mem_symbolDepths {freq : Table Word} {x : Sym} :
    x ∈ (symbolDepths freq).map Prod.fst ↔ tget freq x ≠ 0 := by
  rw [(symbolDepths_symbols freq).mem_iff]
  simp

/-- The length of a symbol with a depth is that depth. -/
theorem buildLengths_of_mem {freq : Table Word} {p : Sym × Nat} (hp : p ∈ symbolDepths freq) :
    (tget (buildLengths freq) p.1).toNat = p.2 := by
  have hr := symbolDepths_range freq p hp
  simp only [buildLengths, tget_tmake, lookup_of_mem (symbolDepths_nodup freq) hp, Option.getD_some,
    BitVec.toNat_ofNat]
  omega

/-- The length of a symbol without a count is 0, and of no other. -/
theorem buildLengths_zero_iff {freq : Table Word} {x : Sym} : tget (buildLengths freq) x = 0 ↔ tget freq x = 0 := by
  constructor
  · intro h
    by_contra hf
    obtain ⟨p, hp, rfl⟩ := List.mem_map.1 (mem_symbolDepths.2 hf)
    have := buildLengths_of_mem hp
    have hr := symbolDepths_range freq p hp
    rw [h] at this
    simp at this
    omega
  · intro h
    have hx : x ∉ (symbolDepths freq).map Prod.fst := fun hm => mem_symbolDepths.1 hm h
    simp [buildLengths, lookup_none hx]

/-! ## Canonical codes (rule R252) -/

/-- The order of `Canon`: length, then symbol. -/
def codeBefore (a b : Nat × Sym) : Prop := a.1 < b.1 ∨ (a.1 = b.1 ∧ a.2.toNat ≤ b.2.toNat)

theorem codeOrder_perm (len : Table Byte) : (codeOrder len).Perm
    ((allSyms.filter fun x => tget len x != 0).map fun x => ((tget len x).toNat, x)) := by
  unfold codeOrder
  refine (List.perm_insertionSort _ _).trans ?_
  rw [entries_eq_map, List.filter_map, List.map_map]
  exact List.Perm.refl _

theorem mem_codeOrder {len : Table Byte} {e : Nat × Sym} :
    e ∈ codeOrder len ↔ e.1 = (tget len e.2).toNat ∧ tget len e.2 ≠ 0 := by
  rw [(codeOrder_perm len).mem_iff, List.mem_map]
  constructor
  · rintro ⟨x, hx, rfl⟩
    simpa using hx
  · rintro ⟨h1, h2⟩
    exact ⟨e.2, by simpa using h2, by rw [← h1]⟩

theorem codeOrder_nodup (len : Table Byte) : ((codeOrder len).map Prod.snd).Nodup := by
  refine ((codeOrder_perm len).map Prod.snd).nodup_iff.2 ?_
  rw [List.map_map]
  simpa [Function.comp_def] using allSyms_nodup.filter _

theorem codeOrder_sorted (len : Table Byte) : (codeOrder len).Pairwise codeBefore := by
  unfold codeOrder
  have total : Std.Total (fun a b : Nat × Sym => a.1 < b.1 ∨ (a.1 = b.1 ∧ a.2.toNat ≤ b.2.toNat)) :=
    ⟨fun a b => by omega⟩
  have trans : IsTrans (Nat × Sym) (fun a b : Nat × Sym => a.1 < b.1 ∨ (a.1 = b.1 ∧ a.2.toNat ≤ b.2.toNat)) :=
    ⟨fun a b c h1 h2 => by omega⟩
  exact (List.pairwise_insertionSort
    (fun a b : Nat × Sym => a.1 < b.1 ∨ (a.1 = b.1 ∧ a.2.toNat ≤ b.2.toNat)) _).imp id

theorem assignCodes_symbols (es : List (Nat × Sym)) : ∀ prev,
    (assignCodes prev es).map (fun e => (e.2.1, e.1)) = es := by
  induction es with
  | nil => intro prev; rfl
  | cons e es ih => intro prev; obtain ⟨l, x⟩ := e; simp [assignCodes, ih]

/-- What the codes before `prev` took of the code space, in units of 2^−255. -/
def codeSpace : Option (Nat × Nat) → Nat
  | none => 0
  | some (c, l) => (c + 1) * 2 ^ (255 - l)

/-- The code of an entry, scaled to the code space, is all that the entries before it took (rules R252, R259). -/
theorem assignCodes_space (es : List (Nat × Sym)) : ∀ (prev : Option (Nat × Nat)), es.Pairwise codeBefore →
    (∀ e ∈ es, e.1 ≤ 255 ∧ ∀ c l, prev = some (c, l) → l ≤ e.1) →
    ∀ (i : Nat) (h : i < (assignCodes prev es).length),
      (assignCodes prev es)[i].2.2 * 2 ^ (255 - (assignCodes prev es)[i].2.1) =
        codeSpace prev + ((es.take i).map fun e => 2 ^ (255 - e.1)).sum := by
  induction es with
  | nil => intro prev _ _ i h; simp [assignCodes] at h
  | cons e es ih =>
    intro prev hs hb i h
    obtain ⟨l, x⟩ := e
    obtain ⟨hs1, hs2⟩ := List.pairwise_cons.1 hs
    have hl := hb (l, x) (by simp)
    obtain ⟨c, hc⟩ : ∃ c, c = (match prev with | none => 0 | some (c, lprev) => (c + 1) <<< (l - lprev)) := ⟨_, rfl⟩
    have space : c * 2 ^ (255 - l) = codeSpace prev := by
      rw [hc]
      match prev, hl.2 with
      | none, _ => simp [codeSpace]
      | some (c', l'), hle =>
        have := hle c' l' rfl
        have h255 := hl.1
        simp only at this h255
        simp only [codeSpace]
        rw [Nat.shiftLeft_eq, Nat.mul_assoc, ← Nat.pow_add, show l - l' + (255 - l) = 255 - l' by omega]
    have tail := ih (some (c, l)) hs2 fun e he => ⟨(hb e (by simp [he])).1, fun c' l' h' => by
      simp only [Option.some.injEq, Prod.mk.injEq] at h'
      obtain ⟨-, rfl⟩ := h'
      have := hs1 e he
      simp only [codeBefore] at this
      omega⟩
    have shape : assignCodes prev ((l, x) :: es) = (x, l, c) :: assignCodes (some (c, l)) es := by
      rw [hc]; rfl
    simp only [shape] at h ⊢
    match i with
    | 0 => simpa using space
    | i + 1 =>
      simp only [List.getElem_cons_succ, List.take_succ_cons, List.map_cons, List.sum_cons]
      rw [tail i (by simpa using h), codeSpace, ← Nat.add_assoc, ← space]
      ring

/-! ## The decode walk (rule R258) -/

/-- One round of the walk inside the data. -/
theorem decodeWalk_step {s : State} {fuel l : Nat} (h : s.bsRpos.toNat + l < s.bsRlimit.toNat)
    (hl : s.bsRlimit.toNat ≤ s.capBits) :
    decodeWalk s (fuel + 1) l (streamValue s.bsmem s.bsRpos.toNat l) =
      match s.symbolOfCode (l + 1) (streamValue s.bsmem s.bsRpos.toNat (l + 1)) with
      | some x => .ok (x, l + 1)
      | none => decodeWalk s fuel (l + 1) (streamValue s.bsmem s.bsRpos.toNat (l + 1)) := by
  rw [decodeWalk, decide_eq_true h, guardRaise_true, ok_bind, getBit_ok (by omega), ok_bind]
  rfl

/-- The walk ends at the first code the stream goes on with. -/
theorem decodeWalk_found {s : State} {x : Sym} (hl : s.bsRlimit.toNat ≤ s.capBits) (d : Nat) :
    ∀ {fuel l : Nat}, d < fuel → s.bsRpos.toNat + (l + d) < s.bsRlimit.toNat →
    (∀ j, l < j → j ≤ l + d → s.symbolOfCode j (streamValue s.bsmem s.bsRpos.toNat j) = none) →
    s.symbolOfCode (l + d + 1) (streamValue s.bsmem s.bsRpos.toNat (l + d + 1)) = some x →
    decodeWalk s fuel l (streamValue s.bsmem s.bsRpos.toNat l) = .ok (x, l + d + 1) := by
  induction d with
  | zero =>
    intro fuel l hf hp _ hx
    obtain ⟨k, rfl⟩ : ∃ k, fuel = k + 1 := ⟨fuel - 1, by omega⟩
    rw [decodeWalk_step (by omega) hl]
    simp only [Nat.add_zero] at hx ⊢
    rw [hx]
  | succ d ih =>
    intro fuel l hf hp hn hx
    obtain ⟨k, rfl⟩ : ∃ k, fuel = k + 1 := ⟨fuel - 1, by omega⟩
    rw [decodeWalk_step (by omega) hl, hn (l + 1) (by omega) (by omega)]
    have e : l + (d + 1) + 1 = l + 1 + d + 1 := by omega
    rw [e] at hx ⊢
    exact ih (by omega) (by omega) (fun j h1 h2 => hn j (by omega) (by omega)) hx

/-- Where the stream goes on with no code, the walk fails at the longest length, or at the end of the data. -/
theorem decodeWalk_none {s : State} (hl : s.bsRlimit.toNat ≤ s.capBits) (fuel : Nat) : ∀ {l : Nat},
    s.bsRpos.toNat + l ≤ s.bsRlimit.toNat →
    (∀ j, l < j → j ≤ l + fuel → s.bsRpos.toNat + j ≤ s.bsRlimit.toNat →
      s.symbolOfCode j (streamValue s.bsmem s.bsRpos.toNat j) = none) →
    decodeWalk s fuel l (streamValue s.bsmem s.bsRpos.toNat l) =
      .error (.raise (if s.bsRpos.toNat + l + fuel ≤ s.bsRlimit.toNat then .corruptStream else .outOfData)) := by
  induction fuel with
  | zero => intro l hp _; rw [if_pos (by omega)]; rfl
  | succ fuel ih =>
    intro l hp hn
    by_cases hd : s.bsRpos.toNat + l < s.bsRlimit.toNat
    · rw [decodeWalk_step hd hl, hn (l + 1) (by omega) (by omega) (by omega)]
      simp only
      rw [ih (by omega) fun j h1 h2 h3 => hn j (by omega) (by omega) h3,
        show s.bsRpos.toNat + (l + 1) + fuel = s.bsRpos.toNat + l + (fuel + 1) by omega]
    · rw [decodeWalk, decide_eq_false hd, guardRaise_false, error_bind, if_neg (by omega)]

end Sys2Proof.Machine
end

