-- ==== Sys2Proof/Laws/Renorm.lean ====
section
/-! SUPPORT. Renormalization (rules R305, R309): the two loops follow one path of cases; the bounds along it stay
ordered, and it ends within 32 shifts. -/

namespace Sys2Proof.Machine

/-! ## Words -/

theorem shiftWord_toNat (r : Word) (b : Bool) : (shiftWord r b).toNat = (2 * r.toNat + b.toNat) % 2 ^ 32 := by
  have h : (r <<< 1) &&& (BitVec.ofBool b).setWidth 32 = 0#32 := by
    apply BitVec.eq_of_getLsbD_eq
    intro i hi
    cases i with
    | zero => simp
    | succ i => simp
  rw [shiftWord, ← BitVec.add_eq_or_of_and_eq_zero _ _ h]
  cases b <;> simp [BitVec.toNat_add, BitVec.toNat_shiftLeft, Nat.shiftLeft_eq] <;> omega

theorem flipSecond_flipSecond (r : Word) : flipSecond (flipSecond r) = r := by
  simp [flipSecond]

theorem flipSecond_clear {r : Word} (h : r.getLsbD 30 = false) : (flipSecond r).toNat = (r.toNat + quarter) % 2 ^ 32 := by
  have hq : (BitVec.ofNat 32 quarter : Word) = BitVec.twoPow 32 30 := by decide
  have h0 : r &&& BitVec.twoPow 32 30 = 0#32 := by
    apply BitVec.eq_of_getLsbD_eq
    intro i hi
    rw [BitVec.getLsbD_and, BitVec.getLsbD_twoPow, BitVec.getLsbD_zero]
    by_cases e : i = 30
    · subst e; rw [h, Bool.false_and]
    · simp [Ne.symm e]
  have h1 : flipSecond r = r + BitVec.twoPow 32 30 := by
    rw [BitVec.add_eq_or_of_and_eq_zero _ _ h0, flipSecond, hq]
    apply BitVec.eq_of_getLsbD_eq
    intro i hi
    have := congrArg (fun v => v.getLsbD i) h0
    simp only [BitVec.getLsbD_and, BitVec.getLsbD_xor, BitVec.getLsbD_or, BitVec.getLsbD_zero] at this ⊢
    revert this
    cases r.getLsbD i <;> cases (BitVec.twoPow 32 30).getLsbD i <;> simp
  rw [h1, BitVec.toNat_add, ← hq]
  rfl

theorem getLsbD_thirty (r : Word) : r.getLsbD 30 = decide (r.toNat / 2 ^ 30 % 2 = 1) := by
  rw [BitVec.getLsbD, Nat.testBit_eq_decide_div_mod_eq]

/-- "complement the second bit" on a value whose second bit is 1 takes a quarter away (rule R315). -/
theorem flipSecond_sub {r : Word} (h1 : quarter ≤ r.toNat) (h2 : r.toNat < half) :
    (flipSecond r).toNat = r.toNat - quarter := by
  simp only [quarter, half, arcPrecision] at *
  have hb : (flipSecond r).getLsbD 30 = false := by
    have : r.getLsbD 30 = true := by
      rw [getLsbD_thirty, decide_eq_true_eq]
      omega
    rw [flipSecond, BitVec.getLsbD_xor, this]
    decide
  have e := flipSecond_clear hb
  rw [flipSecond_flipSecond] at e
  have hd := hb
  rw [getLsbD_thirty, decide_eq_false_iff_not] at hd
  have := (flipSecond r).isLt
  simp only [quarter, arcPrecision] at e
  omega

/-- … and on a value whose second bit is 0 adds one (rule R315). -/
theorem flipSecond_add {r : Word} (h1 : half ≤ r.toNat) (h2 : r.toNat < 3 * quarter) :
    (flipSecond r).toNat = r.toNat + quarter := by
  simp only [quarter, half, arcPrecision] at *
  have hb : r.getLsbD 30 = false := by
    rw [getLsbD_thirty, decide_eq_false_iff_not]
    omega
  rw [flipSecond_clear hb]
  simp only [quarter, arcPrecision]
  omega

/-! ## The cases -/

theorem renormCase_e1_iff {low high : Word} : renormCase low high = some .e1 ↔ high.toNat < half := by
  unfold renormCase
  split
  · simp [*]
  · split
    · simp [*]
    · split <;> simp [*]

theorem renormCase_e2_iff {low high : Word} :
    renormCase low high = some .e2 ↔ half ≤ high.toNat ∧ half ≤ low.toNat := by
  unfold renormCase
  split
  · simp; omega
  · split
    · simp; omega
    · split <;> (simp; omega)

theorem renormCase_e3_iff {low high : Word} : renormCase low high = some .e3 ↔
    half ≤ high.toNat ∧ low.toNat < half ∧ quarter ≤ low.toNat ∧ high.toNat < 3 * quarter := by
  unfold renormCase
  split
  · simp; omega
  · split
    · simp; omega
    · split <;> (simp; omega)

theorem renormCase_none_iff {low high : Word} : renormCase low high = none ↔
    half ≤ high.toNat ∧ low.toNat < half ∧ (low.toNat < quarter ∨ 3 * quarter ≤ high.toNat) := by
  unfold renormCase
  split
  · simp; omega
  · split
    · simp; omega
    · split <;> (simp; omega)

/-- The loop leaves only where there is headroom (rule R314 item 2). -/
theorem renormCase_none_headroom {low high : Word} (h : renormCase low high = none) : Headroom low high := by
  rw [renormCase_none_iff] at h
  unfold Headroom
  omega

/-- What an iteration subtracts from both bounds before it doubles them: 0, a half, or a quarter. -/
def RenormCase.offset : RenormCase → Nat
  | .e1 => 0
  | .e2 => half
  | .e3 => quarter

/-- One iteration on ordered bounds doubles the interval, measured from the case's offset (rule R315). -/
theorem bounds_toNat {c : RenormCase} {low high : Word} (h : low.toNat ≤ high.toNat)
    (hc : renormCase low high = some c) :
    c.offset ≤ low.toNat ∧ high.toNat - c.offset < half ∧
    (c.bounds low high).1.toNat = 2 * (low.toNat - c.offset) ∧
    (c.bounds low high).2.toNat = 2 * (high.toNat - c.offset) + 1 := by
  have h1 := low.isLt
  have h2 := high.isLt
  cases c with
  | e1 =>
    rw [renormCase_e1_iff] at hc
    simp only [RenormCase.bounds, RenormCase.offset, shiftWord_toNat, Bool.toNat_false, Bool.toNat_true, half,
      arcPrecision] at *
    omega
  | e2 =>
    rw [renormCase_e2_iff] at hc
    simp only [RenormCase.bounds, RenormCase.offset, shiftWord_toNat, Bool.toNat_false, Bool.toNat_true, half,
      arcPrecision] at *
    omega
  | e3 =>
    rw [renormCase_e3_iff] at hc
    have e1 := flipSecond_sub hc.2.2.1 hc.2.1
    have e2 := flipSecond_add hc.1 hc.2.2.2
    simp only [RenormCase.bounds, RenormCase.offset, shiftWord_toNat, Bool.toNat_false, Bool.toNat_true, e1, e2, half,
      quarter, arcPrecision] at *
    omega

/-! ## Paths -/

theorem renormPath_step {fuel : Nat} {low high : Word} {c : RenormCase} (h : renormCase low high = some c) :
    renormPath (fuel + 1) low high = c :: renormPath fuel (c.bounds low high).1 (c.bounds low high).2 := by
  simp [renormPath, h]

theorem renormPath_end {fuel : Nat} {low high : Word} (h : renormCase low high = none) :
    renormPath fuel low high = [] := by
  cases fuel <;> simp [renormPath, h]

/-- Ordered bounds stay ordered, and the interval doubles with every case of the path. -/
theorem pathBounds_range {fuel : Nat} : ∀ {low high : Word} {cs : List RenormCase}, low.toNat ≤ high.toNat →
    cs <+: renormPath fuel low high →
    (pathBounds cs (low, high)).1.toNat ≤ (pathBounds cs (low, high)).2.toNat ∧
    (pathBounds cs (low, high)).2.toNat + 1 - (pathBounds cs (low, high)).1.toNat =
      2 ^ cs.length * (high.toNat + 1 - low.toNat) := by
  induction fuel with
  | zero =>
    intro low high cs h hp
    have : cs = [] := by simpa [renormPath] using hp
    subst this
    simp [pathBounds, h]
  | succ fuel ih =>
    intro low high cs h hp
    cases cs with
    | nil => simp [pathBounds, h]
    | cons c cs =>
      cases hc : renormCase low high with
      | none => rw [renormPath_end hc] at hp; simp at hp
      | some d =>
        rw [renormPath_step hc, List.cons_prefix_cons] at hp
        obtain ⟨rfl, hp⟩ := hp
        obtain ⟨b1, b2, b3, b4⟩ := bounds_toNat h hc
        have := ih (by omega) hp
        refine ⟨this.1, ?_⟩
        have e : (c.bounds low high).2.toNat + 1 - (c.bounds low high).1.toNat = 2 * (high.toNat + 1 - low.toNat) := by
          omega
        rw [pathBounds, this.2, e, List.length_cons, Nat.pow_succ]
        ring

/-- A case applies only while the interval is at most half the range. -/
theorem renormCase_range {low high : Word} {c : RenormCase} (h : low.toNat ≤ high.toNat)
    (hc : renormCase low high = some c) : high.toNat + 1 - low.toNat ≤ half := by
  have := bounds_toNat h hc
  omega

/-- From ordered bounds the path ends: its fuel of 32 is enough (rule R305). -/
theorem renormPath_ends {fuel : Nat} : ∀ {low high : Word}, low.toNat ≤ high.toNat →
    2 ^ 32 ≤ 2 ^ fuel * (high.toNat + 1 - low.toNat) → PathEnds low high (renormPath fuel low high) := by
  induction fuel with
  | zero =>
    intro low high h hr
    cases hc : renormCase low high with
    | none => exact hc
    | some c =>
      have := renormCase_range h hc
      simp only [half, arcPrecision] at this
      omega
  | succ fuel ih =>
    intro low high h hr
    cases hc : renormCase low high with
    | none => rw [renormPath_end hc]; exact hc
    | some c =>
      obtain ⟨b1, b2, b3, b4⟩ := bounds_toNat h hc
      have e : (c.bounds low high).2.toNat + 1 - (c.bounds low high).1.toNat = 2 * (high.toNat + 1 - low.toNat) := by
        omega
      rw [renormPath_step hc]
      refine ih (by omega) ?_
      rw [e]
      calc 2 ^ 32 ≤ 2 ^ (fuel + 1) * (high.toNat + 1 - low.toNat) := hr
        _ = 2 ^ fuel * (2 * (high.toNat + 1 - low.toNat)) := by rw [Nat.pow_succ]; ring

theorem renormPath_length_le (fuel : Nat) : ∀ low high : Word, (renormPath fuel low high).length ≤ fuel := by
  induction fuel with
  | zero => intro _ _; simp [renormPath]
  | succ fuel ih =>
    intro low high
    cases hc : renormCase low high with
    | none => rw [renormPath_end hc]; simp
    | some c => rw [renormPath_step hc]; simpa using ih _ _

/-! ## The encoder's loop -/

/-- `Emit(b)` (rule R305): the bit and the pending opposite ones, or `BUFFER_FULL`. -/
theorem emit_eq (b : Bool) {s : State} (hc : s.config.wf) : emit b s =
    if s.bsWpos.toNat + (1 + s.acPend.toNat) ≤ s.capBits
    then .ok { s.put (b :: List.replicate s.acPend.toNat !b) with acPend := 0 }
    else .error (.raise .bufferFull) := by
  unfold emit State.fits
  split
  · next h =>
    have h1 : s.bsWpos.toNat + [b].length ≤ s.capBits := by simp; omega
    have h2 := put_bsWpos hc h1
    have h3 : (s.put [b]).bsWpos.toNat + s.acPend.toNat ≤ (s.put [b]).capBits := by
      rw [h2, put_capBits]; simp; omega
    rw [decide_eq_true h, guardRaise_true, ok_bind, putBit_put b (by omega), ok_bind,
      putRepeat_ok (!b) s.acPend.toNat (s := s.put [b]) hc h3, ok_bind, put_append _ _ hc h1]
    rfl
  · next h => rw [decide_eq_false h, guardRaise_false, error_bind]

theorem addPending_eq (s : State) : addPending s =
    if s.acPend.toNat = countMax then .error (.raise .countOverflow) else .ok { s with acPend := s.acPend + 1 } := by
  unfold addPending
  split
  · next h => simp [h]
  · next h => simp [h]

/-- The state at the end of a path of the encoder. -/
def State.followed (s : State) (cs : List RenormCase) : State :=
  { s.put (pathBits cs s.acPend.toNat) with
    acLow := (pathBounds cs (s.acLow, s.acHigh)).1
    acHigh := (pathBounds cs (s.acLow, s.acHigh)).2
    acPend := BitVec.ofNat 32 (pathPend cs s.acPend.toNat) }

theorem put_cons_append (s : State) (as bs : List Bool) (hc : s.config.wf)
    (hp : s.bsWpos.toNat + as.length ≤ s.capBits) :
    (s.put (as ++ bs)).bsmem = ((s.put as).put bs).bsmem ∧ (s.put (as ++ bs)).bsWpos = ((s.put as).put bs).bsWpos := by
  rw [put_append as bs hc hp]
  exact ⟨rfl, rfl⟩

/-- `EncRenorm()` follows the path from the bounds it starts with, or raises the first error the path meets (rules
R305, R425). -/
theorem encRenorm_path (fuel : Nat) : ∀ {s : State}, s.config.wf → encRenorm fuel s =
    match pathError s.capBits (renormPath fuel s.acLow s.acHigh) s.acPend.toNat s.bsWpos.toNat with
    | none => .ok (s.followed (renormPath fuel s.acLow s.acHigh))
    | some e => .error (.raise e) := by
  have stay : ∀ s : State, s.followed [] = s := by
    intro s
    simp [State.followed, pathBits, pathBounds, pathPend]
  induction fuel with
  | zero =>
    intro s hc
    simp [encRenorm, renormPath, pathError, stay]
  | succ fuel ih =>
    intro s hc
    cases hr : renormCase s.acLow s.acHigh with
    | none =>
      rw [renormPath_end hr]
      simp [encRenorm, hr, pathError, stay]
    | some c =>
      rw [renormPath_step hr]
      simp only [encRenorm, hr]
      have emitted : ∀ (b : Bool), c.bounds s.acLow s.acHigh = (shiftWord s.acLow false, shiftWord s.acHigh true) →
          (∀ cs, pathBits (c :: cs) s.acPend.toNat = b :: (List.replicate s.acPend.toNat (!b) ++ pathBits cs 0)) →
          (∀ cs, pathPend (c :: cs) s.acPend.toNat = pathPend cs 0) →
          (∀ cs, pathError s.capBits (c :: cs) s.acPend.toNat s.bsWpos.toNat =
            if s.capBits < s.bsWpos.toNat + 1 + s.acPend.toNat then some .bufferFull
            else pathError s.capBits cs 0 (s.bsWpos.toNat + 1 + s.acPend.toNat)) →
          encCase c s = emit b s →
          (do encRenorm fuel (shiftBounds (← encCase c s))) =
            match pathError s.capBits (c :: renormPath fuel (c.bounds s.acLow s.acHigh).1
                (c.bounds s.acLow s.acHigh).2) s.acPend.toNat s.bsWpos.toNat with
            | none => .ok (s.followed (c :: renormPath fuel (c.bounds s.acLow s.acHigh).1
                (c.bounds s.acLow s.acHigh).2))
            | some e => .error (.raise e) := by
        intro b hb hbits hpend herr hemit
        rw [hemit, emit_eq b hc, herr]
        by_cases hf : s.capBits < s.bsWpos.toNat + 1 + s.acPend.toNat
        · rw [if_neg (by omega), if_pos hf, error_bind]
        · have hl : s.bsWpos.toNat + (b :: List.replicate s.acPend.toNat !b).length ≤ s.capBits := by
            simp; omega
          have hw := put_bsWpos hc hl
          obtain ⟨T, hT⟩ : ∃ T, T = ({ s.put (b :: List.replicate s.acPend.toNat !b) with acPend := 0 } : State) :=
            ⟨_, rfl⟩
          have e1 : (shiftBounds T).capBits = s.capBits := by subst hT; rfl
          have e2 : (shiftBounds T).acLow = shiftWord s.acLow false := by subst hT; rfl
          have e3 : (shiftBounds T).acHigh = shiftWord s.acHigh true := by subst hT; rfl
          have e4 : (shiftBounds T).acPend.toNat = 0 := by subst hT; rfl
          have e5 : (shiftBounds T).bsWpos.toNat = s.bsWpos.toNat + 1 + s.acPend.toNat := by
            subst hT
            show (s.put (b :: List.replicate s.acPend.toNat !b)).bsWpos.toNat = _
            rw [hw]; simp; omega
          rw [if_pos (by omega), if_neg hf, ok_bind, ← hT, ih (by subst hT; exact hc), e1, e2, e3, e4, e5, hb]
          generalize pathError s.capBits (renormPath fuel (shiftWord s.acLow false) (shiftWord s.acHigh true)) 0
            (s.bsWpos.toNat + 1 + s.acPend.toNat) = r
          cases r with
          | some e => rfl
          | none =>
            have happ := put_cons_append s (b :: List.replicate s.acPend.toNat !b)
              (pathBits (renormPath fuel (shiftWord s.acLow false) (shiftWord s.acHigh true)) 0) hc hl
            simp only [State.followed, hbits, hpend, pathBounds, hb, e2, e3, e4]
            rw [← List.cons_append]
            have h1 := happ.1
            have h2 := happ.2
            subst hT
            simp only [State.put, shiftBounds] at h1 h2 ⊢
            rw [h1, h2]
      cases c with
      | e1 => exact emitted false rfl (fun _ => rfl) (fun _ => rfl) (fun _ => rfl) rfl
      | e2 => exact emitted true rfl (fun _ => rfl) (fun _ => rfl) (fun _ => rfl) rfl
      | e3 =>
        simp only [encCase, addPending_eq, pathError]
        by_cases hp : s.acPend.toNat = countMax
        · simp [hp]
        · have hn : (s.acPend + 1).toNat = s.acPend.toNat + 1 := by
            have := s.acPend.isLt
            simp only [countMax] at hp
            rw [BitVec.toNat_add]
            simp
            omega
          obtain ⟨T, hT⟩ : ∃ T, T = ({ s with
            acPend := s.acPend + 1, acLow := flipSecond s.acLow, acHigh := flipSecond s.acHigh } : State) := ⟨_, rfl⟩
          have e1 : (shiftBounds T).capBits = s.capBits := by subst hT; rfl
          have e2 : (shiftBounds T).acLow = shiftWord (flipSecond s.acLow) false := by subst hT; rfl
          have e3 : (shiftBounds T).acHigh = shiftWord (flipSecond s.acHigh) true := by subst hT; rfl
          have e4 : (shiftBounds T).acPend.toNat = s.acPend.toNat + 1 := by subst hT; exact hn
          have e5 : (shiftBounds T).bsWpos.toNat = s.bsWpos.toNat := by subst hT; rfl
          rw [if_neg hp, if_neg hp, ok_bind, ok_bind, ← hT, ih (by subst hT; exact hc), e1, e2, e3, e4, e5]
          simp only [RenormCase.bounds]
          generalize pathError s.capBits (renormPath fuel (shiftWord (flipSecond s.acLow) false)
            (shiftWord (flipSecond s.acHigh) true)) (s.acPend.toNat + 1) s.bsWpos.toNat = r
          cases r with
          | some e => rfl
          | none =>
            simp only [State.followed, pathBits, pathPend, pathBounds, RenormCase.bounds, e2, e3, e4]
            subst hT
            simp only [State.put, shiftBounds]

/-- On a path without an error all bits fit, and the pending count stays below its limit. -/
theorem pathError_none {cap : Nat} : ∀ {cs : List RenormCase} {pend wpos : Nat}, pend ≤ countMax → wpos ≤ cap →
    pathError cap cs pend wpos = none →
    wpos + (pathBits cs pend).length ≤ cap ∧ pathPend cs pend ≤ countMax := by
  intro cs
  induction cs with
  | nil => intro pend wpos h1 h2 _; exact ⟨by simpa [pathBits] using h2, h1⟩
  | cons c cs ih =>
    intro pend wpos h1 h2 h
    cases c with
    | e1 =>
      simp only [pathError] at h
      split at h
      · simp at h
      · have := ih (Nat.zero_le _) (by omega) h
        simp only [pathBits, pathPend, List.length_cons, List.length_append, List.length_replicate]
        exact ⟨by omega, this.2⟩
    | e2 =>
      simp only [pathError] at h
      split at h
      · simp at h
      · have := ih (Nat.zero_le _) (by omega) h
        simp only [pathBits, pathPend, List.length_cons, List.length_append, List.length_replicate]
        exact ⟨by omega, this.2⟩
    | e3 =>
      simp only [pathError] at h
      split at h
      · simp at h
      · exact ih (by omega) h2 h

/-! ## The decoder's loop -/

/-- `AC_CODE` takes one zero-filled bit (rules R152, R309). -/
theorem shiftCode_ok {s : State} (h : s.bsRlimit.toNat ≤ s.capBits) (hp : s.bsRpos.toNat ≤ s.bsRlimit.toNat) :
    shiftCode s = .ok { s with
      acCode := shiftWord s.acCode (zeroFilled s.bsmem s.bsRlimit.toNat s.bsRpos.toNat)
      bsRpos := BitVec.ofNat 32 (min (s.bsRpos.toNat + 1) s.bsRlimit.toNat) } := by
  unfold shiftCode
  rw [getBitZF_ok h]
  by_cases hl : s.bsRpos.toNat < s.bsRlimit.toNat
  · have e : BitVec.ofNat 32 (min (s.bsRpos.toNat + 1) s.bsRlimit.toNat) = s.bsRpos + 1 := by
      apply BitVec.eq_of_toNat_eq
      rw [Nat.min_eq_left (by omega), BitVec.toNat_add, BitVec.toNat_ofNat]
      rfl
    rw [e]
    simp [hl, zeroFilled]
  · have e : BitVec.ofNat 32 (min (s.bsRpos.toNat + 1) s.bsRlimit.toNat) = s.bsRpos := by
      rw [Nat.min_eq_right (by omega), show s.bsRlimit.toNat = s.bsRpos.toNat by omega]
      simp
    rw [e]
    simp [hl, zeroFilled]

theorem min_cursor_toNat {s : State} (k : Nat) :
    (BitVec.ofNat 32 (min (s.bsRpos.toNat + k) s.bsRlimit.toNat) : Word).toNat =
      min (s.bsRpos.toNat + k) s.bsRlimit.toNat := by
  have := s.bsRlimit.isLt
  rw [BitVec.toNat_ofNat]
  omega

theorem zeroFilled_min (m : Memory) (limit p : Nat) : zeroFilled m limit (min p limit) = zeroFilled m limit p := by
  unfold zeroFilled
  by_cases h : p < limit
  · rw [Nat.min_eq_left (by omega)]
  · rw [Nat.min_eq_right (by omega)]
    simp [h]

theorem pathCode_min (m : Memory) (limit : Nat) (cs : List RenormCase) :
    ∀ (p q : Nat) (code : Word), (p < limit ∨ q < limit → p = q) → pathCode m limit cs p code = pathCode m limit cs q code := by
  induction cs with
  | nil => intro p q code _; rfl
  | cons c cs ih =>
    intro p q code h
    have e : zeroFilled m limit p = zeroFilled m limit q := by
      unfold zeroFilled
      by_cases hp : p < limit
      · rw [h (.inl hp)]
      · by_cases hq : q < limit
        · rw [h (.inr hq)]
        · simp [hp, hq]
    cases c <;> (simp only [pathCode, e]; exact ih _ _ _ (by omega))

/-- `DecRenorm()` follows the path from the bounds it starts with (rule R309); it always succeeds. -/
theorem decRenorm_path (fuel : Nat) : ∀ {s : State}, s.bsRlimit.toNat ≤ s.capBits →
    s.bsRpos.toNat ≤ s.bsRlimit.toNat → decRenorm fuel s = .ok { s with
      acLow := (pathBounds (renormPath fuel s.acLow s.acHigh) (s.acLow, s.acHigh)).1
      acHigh := (pathBounds (renormPath fuel s.acLow s.acHigh) (s.acLow, s.acHigh)).2
      acCode := pathCode s.bsmem s.bsRlimit.toNat (renormPath fuel s.acLow s.acHigh) s.bsRpos.toNat s.acCode
      bsRpos := BitVec.ofNat 32
        (min (s.bsRpos.toNat + (renormPath fuel s.acLow s.acHigh).length) s.bsRlimit.toNat) } := by
  have stay : ∀ {s : State}, s.bsRpos.toNat ≤ s.bsRlimit.toNat →
      BitVec.ofNat 32 (min (s.bsRpos.toNat + 0) s.bsRlimit.toNat) = s.bsRpos := by
    intro s h
    rw [Nat.min_eq_left (by omega)]
    simp
  induction fuel with
  | zero =>
    intro s _ hp
    simp only [decRenorm, renormPath, pathBounds, pathCode, List.length_nil, stay hp]
  | succ fuel ih =>
    intro s hl hp
    cases hr : renormCase s.acLow s.acHigh with
    | none =>
      rw [renormPath_end hr]
      simp only [decRenorm, hr, pathBounds, pathCode, List.length_nil, stay hp]
    | some c =>
      rw [renormPath_step hr]
      simp only [decRenorm, hr]
      have fields : (shiftBounds (decCase c s)).bsRlimit = s.bsRlimit ∧ (shiftBounds (decCase c s)).bsRpos = s.bsRpos ∧
          (shiftBounds (decCase c s)).bsmem = s.bsmem ∧ (shiftBounds (decCase c s)).capBits = s.capBits := by
        cases c <;> exact ⟨rfl, rfl, rfl, rfl⟩
      obtain ⟨f1, f2, f3, f4⟩ := fields
      rw [shiftCode_ok (by rw [f1, f4]; exact hl) (by rw [f1, f2]; exact hp), ok_bind]
      have hmin := min_cursor_toNat (s := s) 1
      rw [ih (by rw [f1]; exact f4 ▸ hl) (by simp only [f1, f2]; rw [hmin]; omega)]
      simp only [f1, f2, f3, hmin, List.length_cons]
      have e1 : min (min (s.bsRpos.toNat + 1) s.bsRlimit.toNat +
          (renormPath fuel (c.bounds s.acLow s.acHigh).1 (c.bounds s.acLow s.acHigh).2).length) s.bsRlimit.toNat =
          min (s.bsRpos.toNat + ((renormPath fuel (c.bounds s.acLow s.acHigh).1
            (c.bounds s.acLow s.acHigh).2).length + 1)) s.bsRlimit.toNat := by omega
      have e2 : ∀ cs code, pathCode s.bsmem s.bsRlimit.toNat cs (min (s.bsRpos.toNat + 1) s.bsRlimit.toNat) code =
          pathCode s.bsmem s.bsRlimit.toNat cs (s.bsRpos.toNat + 1) code :=
        fun cs code => pathCode_min _ _ cs _ _ code (by omega)
      cases c <;>
        (simp only [decCase, shiftBounds, RenormCase.bounds, pathBounds, pathCode, e2] at e1 ⊢
         rw [e1])

theorem pathCode_nil_bits (m : Memory) (limit p : Nat) (h : limit ≤ p) : zeroFilled m limit p = false := by
  simp [zeroFilled, Nat.not_lt.2 h]

/-- Loading `k` zero-filled bits (rule R311). -/
theorem loadCode_ok (k : Nat) : ∀ {s : State}, s.bsRlimit.toNat ≤ s.capBits → s.bsRpos.toNat ≤ s.bsRlimit.toNat →
    ∃ c : Word, loadCode k s = .ok { s with
        acCode := c, bsRpos := BitVec.ofNat 32 (min (s.bsRpos.toNat + k) s.bsRlimit.toNat) } ∧
      c.toNat = (2 ^ k * s.acCode.toNat + zeroFilledValue s.bsmem s.bsRlimit.toNat s.bsRpos.toNat k) % 2 ^ 32 := by
  induction k with
  | zero =>
    intro s _ hp
    refine ⟨s.acCode, ?_, ?_⟩
    · rw [loadCode, Nat.min_eq_left (by omega)]
      simp
    · have := s.acCode.isLt
      rw [zeroFilledValue]
      omega
  | succ k ih =>
    intro s hl hp
    have hmin := min_cursor_toNat (s := s) 1
    rw [loadCode, shiftCode_ok hl hp, ok_bind]
    obtain ⟨c, h1, h2⟩ := ih (s := { s with
      acCode := shiftWord s.acCode (zeroFilled s.bsmem s.bsRlimit.toNat s.bsRpos.toNat)
      bsRpos := BitVec.ofNat 32 (min (s.bsRpos.toNat + 1) s.bsRlimit.toNat) }) hl (by simp only [hmin]; omega)
    refine ⟨c, ?_, ?_⟩
    · rw [h1]
      simp only [hmin]
      congr 3
      omega
    · rw [h2]
      simp only [hmin, shiftWord_toNat]
      have split : ∀ n p, zeroFilledValue s.bsmem s.bsRlimit.toNat p (n + 1) =
          2 ^ n * (zeroFilled s.bsmem s.bsRlimit.toNat p).toNat +
            zeroFilledValue s.bsmem s.bsRlimit.toNat (p + 1) n := by
        intro n p
        induction n with
        | zero => simp [zeroFilledValue]
        | succ n ihn =>
          rw [zeroFilledValue, ihn, zeroFilledValue, Nat.pow_succ, Nat.add_right_comm p 1 n, Nat.add_assoc p n 1]
          ring
      have clamp : ∀ n, zeroFilledValue s.bsmem s.bsRlimit.toNat (min (s.bsRpos.toNat + 1) s.bsRlimit.toNat) n =
          zeroFilledValue s.bsmem s.bsRlimit.toNat (s.bsRpos.toNat + 1) n := by
        intro n
        induction n with
        | zero => rfl
        | succ n ihn =>
          rw [zeroFilledValue, zeroFilledValue, ihn]
          by_cases hq : s.bsRpos.toNat + 1 ≤ s.bsRlimit.toNat
          · rw [Nat.min_eq_left hq]
          · rw [pathCode_nil_bits _ _ _ (by omega), pathCode_nil_bits _ _ _ (by omega)]
      have e : 2 ^ (k + 1) * s.acCode.toNat = 2 ^ k * (2 * s.acCode.toNat) := by rw [Nat.pow_succ]; ring
      rw [clamp, split, e, ← Nat.add_assoc, ← Nat.mul_add, Nat.add_mod, Nat.mul_mod_mod, ← Nat.add_mod]

end Sys2Proof.Machine
end

