-- ==== Sys2Proof/Laws/Sums.lean ====
section
/-! SUPPORT. Sums of counts: what one table write does to them, and that the loop of rule R204 computes them. -/

namespace Sys2Proof.Machine

/-- The count of the symbol with number `i`, as a number. -/
def countAt (freq : Table Word) (i : Nat) : Nat := (tget freq (BitVec.ofNat 8 i)).toNat

theorem countAt_toNat (freq : Table Word) (x : Sym) : countAt freq x.toNat = (tget freq x).toNat := by
  simp [countAt]

theorem countAt_lt (freq : Table Word) (i : Nat) : countAt freq i < 2 ^ 32 := (tget freq _).isLt

theorem sumCounts_range (freq : Table Word) : sumCounts freq = ((List.range 256).map (countAt freq)).sum := by
  rw [sumCounts, allSyms, List.map_map]
  rfl

theorem sumUpTo_range (freq : Table Word) (x : Sym) :
    sumUpTo freq x = ((List.range (x.toNat + 1)).map (countAt freq)).sum := by
  have hx := x.isLt
  have split : List.range 256 = List.range (x.toNat + 1) ++ (List.range (255 - x.toNat)).map (x.toNat + 1 + ·) := by
    rw [← List.range_add]
    congr 1
    omega
  have keep : ((List.range (x.toNat + 1)).map (BitVec.ofNat 8)).filter (fun y => decide (y.toNat ≤ x.toNat))
      = (List.range (x.toNat + 1)).map (BitVec.ofNat 8) := by
    refine List.filter_eq_self.2 fun y hy => ?_
    obtain ⟨i, hi, rfl⟩ := List.mem_map.1 hy
    have := List.mem_range.1 hi
    simp only [BitVec.toNat_ofNat, decide_eq_true_eq]
    omega
  have drop : (((List.range (255 - x.toNat)).map (x.toNat + 1 + ·)).map (BitVec.ofNat 8)).filter
      (fun y : Sym => decide (y.toNat ≤ x.toNat)) = [] := by
    refine List.filter_eq_nil_iff.2 fun y hy => ?_
    obtain ⟨j, hj, rfl⟩ := List.mem_map.1 hy
    obtain ⟨i, hi, rfl⟩ := List.mem_map.1 hj
    have := List.mem_range.1 hi
    simp only [BitVec.toNat_ofNat, decide_eq_true_eq]
    omega
  rw [sumUpTo, allSyms, split, List.map_append, List.filter_append, keep, drop, List.append_nil, List.map_map]
  rfl

theorem sumUpTo_first (freq : Table Word) : sumUpTo freq 0 = (tget freq 0).toNat := by
  rw [sumUpTo_range]
  simp [countAt]

theorem sumUpTo_next (freq : Table Word) {x y : Sym} (h : x.toNat = y.toNat + 1) :
    sumUpTo freq x = sumUpTo freq y + (tget freq x).toNat := by
  rw [sumUpTo_range, sumUpTo_range, List.range_succ, List.map_append, List.sum_append, ← countAt_toNat, h]
  simp

theorem sumUpTo_last (freq : Table Word) : sumUpTo freq 255 = sumCounts freq := by
  rw [sumUpTo_range, sumCounts_range]
  rfl

theorem sumUpTo_mono (freq : Table Word) {x y : Sym} (h : x.toNat ≤ y.toNat) : sumUpTo freq x ≤ sumUpTo freq y := by
  rw [sumUpTo_range, sumUpTo_range]
  obtain ⟨d, hd⟩ : ∃ d, y.toNat + 1 = x.toNat + 1 + d := ⟨y.toNat - x.toNat, by omega⟩
  have e : List.range (x.toNat + 1 + d) = _ := List.range_add
  rw [hd, e, List.map_append, List.sum_append]
  exact Nat.le_add_right _ _

theorem sumUpTo_le (freq : Table Word) (x : Sym) : sumUpTo freq x ≤ sumCounts freq := by
  rw [← sumUpTo_last]
  have := x.isLt
  exact sumUpTo_mono freq (show x.toNat ≤ 255 by omega)

/-- A symbol's own count is part of the sum up to it. -/
theorem count_le_sumUpTo (freq : Table Word) (x : Sym) : (tget freq x).toNat ≤ sumUpTo freq x := by
  rw [sumUpTo_range, List.range_succ, List.map_append, List.sum_append, ← countAt_toNat]
  simp

/-- A later symbol's interval starts no lower than an earlier symbol's sum. -/
theorem sumUpTo_add_le (freq : Table Word) {x y : Sym} (h : x.toNat < y.toNat) :
    sumUpTo freq x + (tget freq y).toNat ≤ sumUpTo freq y := by
  rw [sumUpTo_range, sumUpTo_range, List.range_succ (n := y.toNat), List.map_append, List.sum_append,
    ← countAt_toNat]
  obtain ⟨d, hd⟩ : ∃ d, y.toNat = x.toNat + 1 + d := ⟨y.toNat - x.toNat - 1, by omega⟩
  have e : (List.range y.toNat).map (countAt freq) =
      (List.range (x.toNat + 1)).map (countAt freq) ++ ((List.range d).map (x.toNat + 1 + ·)).map (countAt freq) := by
    rw [hd, List.range_add, List.map_append]
  rw [e, List.sum_append]
  simp only [List.map_cons, List.map_nil, List.sum_cons, List.sum_nil]
  omega

theorem sumCounts_lt (freq : Table Word) : sumCounts freq < 2 ^ 40 := by
  have bound : ∀ n, ((List.range n).map (countAt freq)).sum ≤ n * (2 ^ 32 - 1) := by
    intro n
    induction n with
    | zero => simp
    | succ n ih =>
      have := countAt_lt freq n
      rw [List.range_succ, List.map_append, List.sum_append]
      simp only [List.map_cons, List.map_nil, List.sum_cons, List.sum_nil]
      omega
  have := bound 256
  rw [sumCounts_range]
  omega

theorem sumCounts_zero : sumCounts (tfill 0) = 0 := by
  rw [sumCounts, List.sum_eq_zero]
  intro n hn
  obtain ⟨x, -, rfl⟩ := List.mem_map.1 hn
  simp

theorem countAt_tset (freq : Table Word) (x : Sym) (v : Word) (i : Nat) (hi : i < 256) :
    countAt (tset freq x v) i = if i = x.toNat then v.toNat else countAt freq i := by
  unfold countAt
  rw [tget_tset]
  by_cases h : i = x.toNat
  · subst h
    simp
  · have : BitVec.ofNat 8 i ≠ x := fun e => h (by rw [← e]; simp [Nat.mod_eq_of_lt hi])
    simp [h, this]

/-- One table write changes the sum by the change of the entry (rules R201, R202). -/
theorem sumCounts_tset (freq : Table Word) (x : Sym) (v : Word) :
    sumCounts (tset freq x v) + (tget freq x).toNat = sumCounts freq + v.toNat := by
  have part : ∀ n, n ≤ 256 → ((List.range n).map (countAt (tset freq x v))).sum +
      (if x.toNat < n then (tget freq x).toNat else 0) =
      ((List.range n).map (countAt freq)).sum + (if x.toNat < n then v.toNat else 0) := by
    intro n
    induction n with
    | zero => intro _; simp
    | succ n ih =>
      intro hn
      have ih := ih (by omega)
      rw [List.range_succ, List.map_append, List.map_append, List.sum_append, List.sum_append]
      simp only [List.map_cons, List.map_nil, List.sum_cons, List.sum_nil, countAt_tset freq x v n (by omega)]
      by_cases h : n = x.toNat
      · subst h
        rw [countAt_toNat]
        simp at ih ⊢
        omega
      · rw [if_neg h]
        by_cases h' : x.toNat < n
        · rw [if_pos h', if_pos h'] at ih
          rw [if_pos (by omega), if_pos (by omega)]
          omega
        · rw [if_neg h', if_neg h'] at ih
          rw [if_neg (by omega), if_neg (by omega)]
          omega
  have := part 256 (Nat.le_refl _)
  rwa [if_pos x.isLt, if_pos x.isLt, ← sumCounts_range, ← sumCounts_range] at this

/-- The loop of rule R204 stores the running sums. -/
theorem prefixSums_getElem (fs : List Word) : ∀ (acc i : Nat) (h : i < (prefixSums acc fs).length),
    (prefixSums acc fs)[i] = BitVec.ofNat 64 (acc + ((fs.take (i + 1)).map BitVec.toNat).sum) := by
  induction fs with
  | nil => intro acc i h; simp [prefixSums] at h
  | cons f fs ih =>
    intro acc i h
    cases i with
    | zero => simp [prefixSums]
    | succ i =>
      simp only [prefixSums, List.getElem_cons_succ, List.take_succ_cons, List.map_cons, List.sum_cons]
      rw [ih, Nat.add_assoc]

theorem take_counts (freq : Table Word) (n : Nat) (hn : n ≤ 256) :
    (freq.toList.take n).map BitVec.toNat = (List.range n).map (countAt freq) := by
  apply List.ext_getElem
  · simp [hn]
  · intro i h1 h2
    have hi : i < n := by simpa using h2
    have : i % 256 = i := Nat.mod_eq_of_lt (by omega)
    simp [countAt, tget, this]

theorem cumTable_get (freq : Table Word) (x : Sym) : tget (cumTable freq) x = BitVec.ofNat 64 (sumUpTo freq x) := by
  have hx := x.isLt
  simp only [tget, cumTable, Vector.getElem_mk, List.getElem_toArray]
  rw [prefixSums_getElem, take_counts freq _ (by omega), ← sumUpTo_range, Nat.zero_add]

/-- The cumulative table holds the exact running sums (rules R31, R204). -/
theorem cumTable_toNat (freq : Table Word) (x : Sym) : (tget (cumTable freq) x).toNat = sumUpTo freq x := by
  have h1 := sumUpTo_le freq x
  have h2 := sumCounts_lt freq
  rw [cumTable_get, BitVec.toNat_ofNat]
  omega

/-- The sum is 0 exactly where every count is. -/
theorem sumCounts_eq_zero_iff (freq : Table Word) : sumCounts freq = 0 ↔ ∀ x, tget freq x = 0 := by
  rw [sumCounts, List.sum_eq_zero_iff]
  constructor
  · intro h x
    exact BitVec.eq_of_toNat_eq (h _ (List.mem_map.2 ⟨x, mem_allSyms x, rfl⟩))
  · rintro h n hn
    obtain ⟨x, -, rfl⟩ := List.mem_map.1 hn
    rw [h x]
    rfl

/-- Every value below the sum lies in the interval of exactly one symbol (rule R302). -/
theorem exists_interval (freq : Table Word) {v : Nat} (hv : v < sumCounts freq) :
    ∃ x, sumUpTo freq x - (tget freq x).toNat ≤ v ∧ v < sumUpTo freq x := by
  have find : ∀ n, n ≤ 256 → v < ((List.range n).map (countAt freq)).sum →
      ∃ x : Sym, sumUpTo freq x - (tget freq x).toNat ≤ v ∧ v < sumUpTo freq x := by
    intro n
    induction n with
    | zero => intro _ h; simp at h
    | succ n ih =>
      intro hn h
      by_cases h' : v < ((List.range n).map (countAt freq)).sum
      · exact ih (by omega) h'
      · refine ⟨BitVec.ofNat 8 n, ?_⟩
        have e : (BitVec.ofNat 8 n : Sym).toNat = n := by
          rw [BitVec.toNat_ofNat]
          omega
        have c : (tget freq (BitVec.ofNat 8 n)).toNat = countAt freq n := rfl
        rw [sumUpTo_range, c, e]
        rw [List.range_succ, List.map_append, List.sum_append] at h ⊢
        simp only [List.map_cons, List.map_nil, List.sum_cons, List.sum_nil] at h ⊢
        omega
  exact find 256 (Nat.le_refl _) (by rwa [← sumCounts_range])

/-- … and of no other. -/
theorem interval_unique (freq : Table Word) {v : Nat} {x y : Sym}
    (hx : sumUpTo freq x - (tget freq x).toNat ≤ v ∧ v < sumUpTo freq x)
    (hy : sumUpTo freq y - (tget freq y).toNat ≤ v ∧ v < sumUpTo freq y) : x = y := by
  have hxc := count_le_sumUpTo freq x
  have hyc := count_le_sumUpTo freq y
  rcases Nat.lt_trichotomy x.toNat y.toNat with h | h | h
  · have := sumUpTo_add_le freq h
    omega
  · exact BitVec.eq_of_toNat_eq h
  · have := sumUpTo_add_le freq h
    omega

/-- The sum of the counts, taken from the table's own list. -/
theorem sumCounts_toList (freq : Table Word) : sumCounts freq = (freq.toList.map BitVec.toNat).sum := by
  rw [sumCounts, toList_eq_map, List.map_map]
  rfl

/-- The Kraft sum, taken from the table's own list. -/
theorem kraftSum_toList (len : Table Byte) :
    kraftSum len = ((len.toList.filter (· != 0)).map fun l => 2 ^ (255 - l.toNat)).sum := by
  rw [kraftSum, toList_eq_map, List.filter_map, List.map_map]
  rfl

end Sys2Proof.Machine
end

