-- ==== Sys2Proof/Laws/Session.lean ====
section
/-! SUPPORT. The model checks, the start of a session, narrowing and the decoder's value (rules R302 to R304, R306,
R311, R312). -/

namespace Sys2Proof.Machine

/-! ## The intervals as sums -/

theorem totalCount_eq {s : State} (h : CountsAgree s) : s.totalCount = (sumCounts s.freq : Int) := by
  rw [State.totalCount, h.total]

theorem cumHigh_eq {s : State} (h : CountsAgree s) (hv : s.cumValid = true) (x : Sym) :
    s.cumHigh x = (sumUpTo s.freq x : Int) := by
  rw [State.cumHigh, h.cum hv x]

theorem cumLow_eq {s : State} (h : CountsAgree s) (hv : s.cumValid = true) (x : Sym) :
    s.cumLow x = ((sumUpTo s.freq x - (tget s.freq x).toNat : Nat) : Int) := by
  rw [State.cumLow, cumHigh_eq h hv, Int.ofNat_sub (count_le_sumUpTo s.freq x)]

theorem present_iff {s : State} {x : Sym} : s.present x = true ↔ tget s.freq x ≠ 0 := by
  simp [State.present]

theorem count_pos {s : State} {x : Sym} (h : s.present x = true) : 1 ≤ (tget s.freq x).toNat := by
  rw [present_iff] at h
  by_contra hc
  exact h (BitVec.eq_of_toNat_eq (by simpa using hc))

/-- The interval of a symbol lies inside [0, T), and is not empty where the count is not 0 (rule R302). -/
theorem interval_bounds {s : State} (h : CountsAgree s) (hv : s.cumValid = true) (x : Sym) :
    0 ≤ s.cumLow x ∧ s.cumLow x ≤ s.cumHigh x ∧ s.cumHigh x ≤ s.totalCount ∧
      (s.present x = true → s.cumLow x < s.cumHigh x) := by
  have h1 := count_le_sumUpTo s.freq x
  have h2 := sumUpTo_le s.freq x
  rw [cumLow_eq h hv, cumHigh_eq h hv, totalCount_eq h]
  refine ⟨by omega, by omega, by omega, fun hp => ?_⟩
  have := count_pos hp
  omega

/-- The lookup of rule R312 finds a symbol for every value in [0, T). -/
theorem symbolAt_some {s : State} (h : CountsAgree s) (hv : s.cumValid = true) {v : Int} (h0 : 0 ≤ v)
    (h1 : v < s.totalCount) :
    ∃ x, s.symbolAt v = some x ∧ s.present x = true ∧ s.cumLow x ≤ v ∧ v < s.cumHigh x := by
  have hlt : v.toNat < sumCounts s.freq := by
    rw [totalCount_eq h] at h1
    omega
  obtain ⟨x, hx1, hx2⟩ := exists_interval s.freq hlt
  cases hf : s.symbolAt v with
  | none =>
    have := findSym_none_iff.1 hf x
    have hp : s.present x = true := by
      rw [present_iff]
      intro e
      rw [e] at hx1
      simp at hx1
      omega
    have hl := cumLow_eq h hv x
    have hh := cumHigh_eq h hv x
    rw [hp, decide_eq_true (show s.cumLow x ≤ v by omega), decide_eq_true (show v < s.cumHigh x by omega)] at this
    simp at this
  | some y =>
    have := findSym_has hf
    simp only [Bool.and_eq_true, decide_eq_true_eq] at this
    exact ⟨y, rfl, this.1.1, this.1.2, this.2⟩

/-! ## Narrowing -/

/-- `Narrow(x)` where T > 0 (rule R304). -/
theorem narrow_ok {s : State} (x : Sym) (h : 0 < s.totalCount) :
    narrow x s = .ok { s with acHigh := (s.narrowed x).2, acLow := (s.narrowed x).1 } := by
  simp [narrow, h, State.narrowed]

theorem totalCount_pos_iff {s : State} : 0 < s.totalCount ↔ s.total ≠ 0 := by
  rw [State.totalCount]
  constructor
  · rintro h e
    rw [e] at h
    simp at h
  · intro h
    have : s.total.toNat ≠ 0 := fun e => h (BitVec.eq_of_toNat_eq e)
    omega

/-- `codeValue` where the range is not empty (rule R312). -/
theorem codeValue_ok {s : State} (h : 0 < s.acRange) : codeValue s = .ok s.decodedValue := by
  simp [codeValue, h, State.decodedValue]

/-- Bounds with headroom leave a range above `QUARTER` (rule R314 item 2). -/
theorem headroom_range {s : State} (h : Headroom s.acLow s.acHigh) : (quarter : Int) < s.acRange := by
  simp only [Headroom, quarter, half, arcPrecision, State.acRange] at *
  omega

/-- A code value between the bounds gives a value in [0, T) (rule R314 item 4). -/
theorem decodedValue_range {s : State} (hr : 0 < s.acRange) (ht : 0 < s.totalCount)
    (h1 : s.acLow.toNat ≤ s.acCode.toNat) (h2 : s.acCode.toNat ≤ s.acHigh.toNat) :
    0 ≤ s.decodedValue ∧ s.decodedValue < s.totalCount := by
  have hc : (1 : Int) ≤ s.acCode.toNat - s.acLow.toNat + 1 := by omega
  have hle : (s.acCode.toNat : Int) - s.acLow.toNat + 1 ≤ s.acRange := by rw [State.acRange]; omega
  have m1 : (1 : Int) * s.totalCount ≤ (s.acCode.toNat - s.acLow.toNat + 1) * s.totalCount :=
    Int.mul_le_mul_of_nonneg_right hc (by omega)
  have m2 : ((s.acCode.toNat : Int) - s.acLow.toNat + 1) * s.totalCount ≤ s.acRange * s.totalCount :=
    Int.mul_le_mul_of_nonneg_right hle (by omega)
  rw [State.decodedValue]
  refine ⟨Int.ediv_nonneg (by omega) (by omega), Int.ediv_lt_of_lt_mul hr ?_⟩
  have := Int.mul_comm s.totalCount s.acRange
  omega

/-! ## Session start -/

/-- `ModelCheck()` in the order of rule R303. -/
theorem modelCheck_eq (s : State) : modelCheck s =
    if s.cumValid = false then .error (.raise .badState)
    else if s.total = 0 then .error (.raise .emptyAlphabet)
    else if quarter < s.total.toNat then .error (.raise .modelTooLarge) else .ok () := by
  unfold modelCheck State.requireCum
  cases s.cumValid
  · rfl
  · by_cases h1 : s.total = 0
    · simp [h1]
    · have h1' : (s.total != 0) = true := bne_iff_ne.2 h1
      by_cases h2 : quarter < s.total.toNat
      · rw [h1', decide_eq_false (by omega), if_neg (by simp), if_neg h1, if_pos h2]
        rfl
      · rw [h1', decide_eq_true (by omega), if_neg (by simp), if_neg h1, if_neg h2]
        rfl

theorem singleModel_eq (s : State) : s.singleModel = decide (s.ftNsym.toNat = 1) :=
  Bool.eq_iff_iff.2 ⟨fun h => decide_eq_true (by rw [eq_of_beq h]; rfl),
    fun h => beq_iff_eq.2 (BitVec.eq_of_toNat_eq (of_decide_eq_true h))⟩

/-- `AC_SYM` at session start: the lone symbol of a single-symbol model, else 0 (rule R310). -/
theorem sessionSymbol_ok {s : State} (h : CountsAgree s) (hv : s.cumValid = true) :
    ∃ x, sessionSymbol s = .ok x ∧ (s.ftNsym.toNat = 1 → ∀ y, tget s.freq y ≠ 0 ↔ y = x) ∧
      (s.ftNsym.toNat ≠ 1 → x = 0) := by
  have hs := singleModel_eq s
  by_cases e : s.ftNsym.toNat = 1
  · have hn := h.nsym hv
    rw [e, nonzeroCounts] at hn
    obtain ⟨x, hx, hy⟩ := countNonzero_one hn.symm
    refine ⟨x, ?_, fun _ => hy, fun h => absurd e h⟩
    have : s.loneSymbol = some x := hx
    simp [sessionSymbol, hs, e, this]
  · exact ⟨0, by simp [sessionSymbol, hs, e], fun h => absurd h e, fun _ => rfl⟩

/-- What `AC.EINIT` and `AC.DINIT` share, where every gate is open (rules R306, R311). -/
theorem openSession_ok {s : State} (a : AcState) (h : CountsAgree s) (hm : s.mode = .arithmetic)
    (hi : s.acState = .idle) (hv : s.cumValid = true) (h1 : 1 ≤ s.total.toNat) (h2 : s.total.toNat ≤ quarter) :
    ∃ x, openSession a s = .ok { s with
        acLow := 0, acHigh := 0xFFFFFFFF, acPend := 0, acCode := 0, acSingle := decide (s.ftNsym.toNat = 1),
        acSym := x, acState := a } ∧
      (s.ftNsym.toNat = 1 → ∀ y, tget s.freq y ≠ 0 ↔ y = x) ∧ (s.ftNsym.toNat ≠ 1 → x = 0) := by
  obtain ⟨x, hx, hx1, hx2⟩ := sessionSymbol_ok h hv
  refine ⟨x, ?_, hx1, hx2⟩
  have ht : s.total ≠ 0 := fun e => by rw [e] at h1; simp at h1
  rw [openSession, requireMode_ok hm, ok_bind, requireSession_ok hi, ok_bind, modelCheck_eq, if_neg (by simp [hv]),
    if_neg ht, if_neg (by omega), ok_bind, hx, ok_bind, singleModel_eq]
  rfl

end Sys2Proof.Machine
end

