-- ==== Sys2Proof/Laws/State.lean ====
section
/-! SUPPORT. One lemma per field per named update of the state, true by unfolding, so that no later proof unfolds a
record update. -/

namespace Sys2Proof.Machine

section setResult
variable (s : State) (v : Word)
@[simp] theorem setResult_config : (s.setResult v).config = s.config := rfl
@[simp] theorem setResult_arg0 : (s.setResult v).arg0 = s.arg0 := rfl
@[simp] theorem setResult_res : (s.setResult v).res = v := rfl
@[simp] theorem setResult_resHi : (s.setResult v).resHi = 0 := rfl
@[simp] theorem setResult_busy : (s.setResult v).busy = s.busy := rfl
@[simp] theorem setResult_err : (s.setResult v).err = s.err := rfl
@[simp] theorem setResult_lost : (s.setResult v).lost = s.lost := rfl
@[simp] theorem setResult_errCode : (s.setResult v).errCode = s.errCode := rfl
@[simp] theorem setResult_mode : (s.setResult v).mode = s.mode := rfl
@[simp] theorem setResult_cumValid : (s.setResult v).cumValid = s.cumValid := rfl
@[simp] theorem setResult_ctValid : (s.setResult v).ctValid = s.ctValid := rfl
@[simp] theorem setResult_acState : (s.setResult v).acState = s.acState := rfl
@[simp] theorem setResult_acSingle : (s.setResult v).acSingle = s.acSingle := rfl
@[simp] theorem setResult_errCmd : (s.setResult v).errCmd = s.errCmd := rfl
@[simp] theorem setResult_errPos : (s.setResult v).errPos = s.errPos := rfl
@[simp] theorem setResult_bsWpos : (s.setResult v).bsWpos = s.bsWpos := rfl
@[simp] theorem setResult_bsRpos : (s.setResult v).bsRpos = s.bsRpos := rfl
@[simp] theorem setResult_bsRlimit : (s.setResult v).bsRlimit = s.bsRlimit := rfl
@[simp] theorem setResult_bsRlen : (s.setResult v).bsRlen = s.bsRlen := rfl
@[simp] theorem setResult_memAddr : (s.setResult v).memAddr = s.memAddr := rfl
@[simp] theorem setResult_freq : (s.setResult v).freq = s.freq := rfl
@[simp] theorem setResult_total : (s.setResult v).total = s.total := rfl
@[simp] theorem setResult_cum : (s.setResult v).cum = s.cum := rfl
@[simp] theorem setResult_ftNsym : (s.setResult v).ftNsym = s.ftNsym := rfl
@[simp] theorem setResult_len : (s.setResult v).len = s.len := rfl
@[simp] theorem setResult_code : (s.setResult v).code = s.code := rfl
@[simp] theorem setResult_hufNsym : (s.setResult v).hufNsym = s.hufNsym := rfl
@[simp] theorem setResult_hufMaxlen : (s.setResult v).hufMaxlen = s.hufMaxlen := rfl
@[simp] theorem setResult_acLow : (s.setResult v).acLow = s.acLow := rfl
@[simp] theorem setResult_acHigh : (s.setResult v).acHigh = s.acHigh := rfl
@[simp] theorem setResult_acCode : (s.setResult v).acCode = s.acCode := rfl
@[simp] theorem setResult_acPend : (s.setResult v).acPend = s.acPend := rfl
@[simp] theorem setResult_acSym : (s.setResult v).acSym = s.acSym := rfl
@[simp] theorem setResult_bsmem : (s.setResult v).bsmem = s.bsmem := rfl
@[simp] theorem setResult_pendCmd : (s.setResult v).pendCmd = s.pendCmd := rfl
@[simp] theorem setResult_host : (s.setResult v).host = s.host := rfl
end setResult

section setResult64
variable (s : State) (v : DWord)
@[simp] theorem setResult64_config : (s.setResult64 v).config = s.config := rfl
@[simp] theorem setResult64_arg0 : (s.setResult64 v).arg0 = s.arg0 := rfl
@[simp] theorem setResult64_res : (s.setResult64 v).res = v.extractLsb' 0 32 := rfl
@[simp] theorem setResult64_resHi : (s.setResult64 v).resHi = v.extractLsb' 32 32 := rfl
@[simp] theorem setResult64_busy : (s.setResult64 v).busy = s.busy := rfl
@[simp] theorem setResult64_err : (s.setResult64 v).err = s.err := rfl
@[simp] theorem setResult64_lost : (s.setResult64 v).lost = s.lost := rfl
@[simp] theorem setResult64_errCode : (s.setResult64 v).errCode = s.errCode := rfl
@[simp] theorem setResult64_mode : (s.setResult64 v).mode = s.mode := rfl
@[simp] theorem setResult64_cumValid : (s.setResult64 v).cumValid = s.cumValid := rfl
@[simp] theorem setResult64_ctValid : (s.setResult64 v).ctValid = s.ctValid := rfl
@[simp] theorem setResult64_acState : (s.setResult64 v).acState = s.acState := rfl
@[simp] theorem setResult64_acSingle : (s.setResult64 v).acSingle = s.acSingle := rfl
@[simp] theorem setResult64_errCmd : (s.setResult64 v).errCmd = s.errCmd := rfl
@[simp] theorem setResult64_errPos : (s.setResult64 v).errPos = s.errPos := rfl
@[simp] theorem setResult64_bsWpos : (s.setResult64 v).bsWpos = s.bsWpos := rfl
@[simp] theorem setResult64_bsRpos : (s.setResult64 v).bsRpos = s.bsRpos := rfl
@[simp] theorem setResult64_bsRlimit : (s.setResult64 v).bsRlimit = s.bsRlimit := rfl
@[simp] theorem setResult64_bsRlen : (s.setResult64 v).bsRlen = s.bsRlen := rfl
@[simp] theorem setResult64_memAddr : (s.setResult64 v).memAddr = s.memAddr := rfl
@[simp] theorem setResult64_freq : (s.setResult64 v).freq = s.freq := rfl
@[simp] theorem setResult64_total : (s.setResult64 v).total = s.total := rfl
@[simp] theorem setResult64_cum : (s.setResult64 v).cum = s.cum := rfl
@[simp] theorem setResult64_ftNsym : (s.setResult64 v).ftNsym = s.ftNsym := rfl
@[simp] theorem setResult64_len : (s.setResult64 v).len = s.len := rfl
@[simp] theorem setResult64_code : (s.setResult64 v).code = s.code := rfl
@[simp] theorem setResult64_hufNsym : (s.setResult64 v).hufNsym = s.hufNsym := rfl
@[simp] theorem setResult64_hufMaxlen : (s.setResult64 v).hufMaxlen = s.hufMaxlen := rfl
@[simp] theorem setResult64_acLow : (s.setResult64 v).acLow = s.acLow := rfl
@[simp] theorem setResult64_acHigh : (s.setResult64 v).acHigh = s.acHigh := rfl
@[simp] theorem setResult64_acCode : (s.setResult64 v).acCode = s.acCode := rfl
@[simp] theorem setResult64_acPend : (s.setResult64 v).acPend = s.acPend := rfl
@[simp] theorem setResult64_acSym : (s.setResult64 v).acSym = s.acSym := rfl
@[simp] theorem setResult64_bsmem : (s.setResult64 v).bsmem = s.bsmem := rfl
@[simp] theorem setResult64_pendCmd : (s.setResult64 v).pendCmd = s.pendCmd := rfl
@[simp] theorem setResult64_host : (s.setResult64 v).host = s.host := rfl
end setResult64

section raiseError
variable (e : ErrCode) (s : State)
@[simp] theorem raiseError_config : (raiseError e s).config = s.config := rfl
@[simp] theorem raiseError_arg0 : (raiseError e s).arg0 = s.arg0 := rfl
@[simp] theorem raiseError_res : (raiseError e s).res = s.res := rfl
@[simp] theorem raiseError_resHi : (raiseError e s).resHi = s.resHi := rfl
@[simp] theorem raiseError_busy : (raiseError e s).busy = false := rfl
@[simp] theorem raiseError_err : (raiseError e s).err = true := rfl
@[simp] theorem raiseError_lost : (raiseError e s).lost = s.lost := rfl
@[simp] theorem raiseError_errCode : (raiseError e s).errCode = e := rfl
@[simp] theorem raiseError_mode : (raiseError e s).mode = s.mode := rfl
@[simp] theorem raiseError_cumValid : (raiseError e s).cumValid = s.cumValid := rfl
@[simp] theorem raiseError_ctValid : (raiseError e s).ctValid = s.ctValid := rfl
@[simp] theorem raiseError_acState : (raiseError e s).acState = s.acState := rfl
@[simp] theorem raiseError_acSingle : (raiseError e s).acSingle = s.acSingle := rfl
@[simp] theorem raiseError_errCmd : (raiseError e s).errCmd = s.pendCmd := rfl
@[simp] theorem raiseError_errPos : (raiseError e s).errPos = errorPosition e s := rfl
@[simp] theorem raiseError_bsWpos : (raiseError e s).bsWpos = s.bsWpos := rfl
@[simp] theorem raiseError_bsRpos : (raiseError e s).bsRpos = s.bsRpos := rfl
@[simp] theorem raiseError_bsRlimit : (raiseError e s).bsRlimit = s.bsRlimit := rfl
@[simp] theorem raiseError_bsRlen : (raiseError e s).bsRlen = s.bsRlen := rfl
@[simp] theorem raiseError_memAddr : (raiseError e s).memAddr = s.memAddr := rfl
@[simp] theorem raiseError_freq : (raiseError e s).freq = s.freq := rfl
@[simp] theorem raiseError_total : (raiseError e s).total = s.total := rfl
@[simp] theorem raiseError_cum : (raiseError e s).cum = s.cum := rfl
@[simp] theorem raiseError_ftNsym : (raiseError e s).ftNsym = s.ftNsym := rfl
@[simp] theorem raiseError_len : (raiseError e s).len = s.len := rfl
@[simp] theorem raiseError_code : (raiseError e s).code = s.code := rfl
@[simp] theorem raiseError_hufNsym : (raiseError e s).hufNsym = s.hufNsym := rfl
@[simp] theorem raiseError_hufMaxlen : (raiseError e s).hufMaxlen = s.hufMaxlen := rfl
@[simp] theorem raiseError_acLow : (raiseError e s).acLow = s.acLow := rfl
@[simp] theorem raiseError_acHigh : (raiseError e s).acHigh = s.acHigh := rfl
@[simp] theorem raiseError_acCode : (raiseError e s).acCode = s.acCode := rfl
@[simp] theorem raiseError_acPend : (raiseError e s).acPend = s.acPend := rfl
@[simp] theorem raiseError_acSym : (raiseError e s).acSym = s.acSym := rfl
@[simp] theorem raiseError_bsmem : (raiseError e s).bsmem = s.bsmem := rfl
@[simp] theorem raiseError_pendCmd : (raiseError e s).pendCmd = s.pendCmd := rfl
@[simp] theorem raiseError_host : (raiseError e s).host = s.host := rfl
end raiseError

section clearError
variable (s : State)
@[simp] theorem clearError_config : (clearError s).config = s.config := rfl
@[simp] theorem clearError_arg0 : (clearError s).arg0 = s.arg0 := rfl
@[simp] theorem clearError_res : (clearError s).res = s.res := rfl
@[simp] theorem clearError_resHi : (clearError s).resHi = s.resHi := rfl
@[simp] theorem clearError_busy : (clearError s).busy = s.busy := rfl
@[simp] theorem clearError_err : (clearError s).err = false := rfl
@[simp] theorem clearError_lost : (clearError s).lost = s.lost := rfl
@[simp] theorem clearError_errCode : (clearError s).errCode = .none := rfl
@[simp] theorem clearError_mode : (clearError s).mode = s.mode := rfl
@[simp] theorem clearError_cumValid : (clearError s).cumValid = s.cumValid := rfl
@[simp] theorem clearError_ctValid : (clearError s).ctValid = s.ctValid := rfl
@[simp] theorem clearError_acState : (clearError s).acState = s.acState := rfl
@[simp] theorem clearError_acSingle : (clearError s).acSingle = s.acSingle := rfl
@[simp] theorem clearError_errCmd : (clearError s).errCmd = s.errCmd := rfl
@[simp] theorem clearError_errPos : (clearError s).errPos = s.errPos := rfl
@[simp] theorem clearError_bsWpos : (clearError s).bsWpos = s.bsWpos := rfl
@[simp] theorem clearError_bsRpos : (clearError s).bsRpos = s.bsRpos := rfl
@[simp] theorem clearError_bsRlimit : (clearError s).bsRlimit = s.bsRlimit := rfl
@[simp] theorem clearError_bsRlen : (clearError s).bsRlen = s.bsRlen := rfl
@[simp] theorem clearError_memAddr : (clearError s).memAddr = s.memAddr := rfl
@[simp] theorem clearError_freq : (clearError s).freq = s.freq := rfl
@[simp] theorem clearError_total : (clearError s).total = s.total := rfl
@[simp] theorem clearError_cum : (clearError s).cum = s.cum := rfl
@[simp] theorem clearError_ftNsym : (clearError s).ftNsym = s.ftNsym := rfl
@[simp] theorem clearError_len : (clearError s).len = s.len := rfl
@[simp] theorem clearError_code : (clearError s).code = s.code := rfl
@[simp] theorem clearError_hufNsym : (clearError s).hufNsym = s.hufNsym := rfl
@[simp] theorem clearError_hufMaxlen : (clearError s).hufMaxlen = s.hufMaxlen := rfl
@[simp] theorem clearError_acLow : (clearError s).acLow = s.acLow := rfl
@[simp] theorem clearError_acHigh : (clearError s).acHigh = s.acHigh := rfl
@[simp] theorem clearError_acCode : (clearError s).acCode = s.acCode := rfl
@[simp] theorem clearError_acPend : (clearError s).acPend = s.acPend := rfl
@[simp] theorem clearError_acSym : (clearError s).acSym = s.acSym := rfl
@[simp] theorem clearError_bsmem : (clearError s).bsmem = s.bsmem := rfl
@[simp] theorem clearError_pendCmd : (clearError s).pendCmd = s.pendCmd := rfl
@[simp] theorem clearError_host : (clearError s).host = s.host := rfl
end clearError

section endCommand
variable (s : State)
@[simp] theorem endCommand_config : (endCommand s).config = s.config := rfl
@[simp] theorem endCommand_arg0 : (endCommand s).arg0 = s.arg0 := rfl
@[simp] theorem endCommand_res : (endCommand s).res = s.res := rfl
@[simp] theorem endCommand_resHi : (endCommand s).resHi = s.resHi := rfl
@[simp] theorem endCommand_busy : (endCommand s).busy = false := rfl
@[simp] theorem endCommand_err : (endCommand s).err = s.err := rfl
@[simp] theorem endCommand_lost : (endCommand s).lost = s.lost := rfl
@[simp] theorem endCommand_errCode : (endCommand s).errCode = s.errCode := rfl
@[simp] theorem endCommand_mode : (endCommand s).mode = s.mode := rfl
@[simp] theorem endCommand_cumValid : (endCommand s).cumValid = s.cumValid := rfl
@[simp] theorem endCommand_ctValid : (endCommand s).ctValid = s.ctValid := rfl
@[simp] theorem endCommand_acState : (endCommand s).acState = s.acState := rfl
@[simp] theorem endCommand_acSingle : (endCommand s).acSingle = s.acSingle := rfl
@[simp] theorem endCommand_errCmd : (endCommand s).errCmd = s.errCmd := rfl
@[simp] theorem endCommand_errPos : (endCommand s).errPos = s.errPos := rfl
@[simp] theorem endCommand_bsWpos : (endCommand s).bsWpos = s.bsWpos := rfl
@[simp] theorem endCommand_bsRpos : (endCommand s).bsRpos = s.bsRpos := rfl
@[simp] theorem endCommand_bsRlimit : (endCommand s).bsRlimit = s.bsRlimit := rfl
@[simp] theorem endCommand_bsRlen : (endCommand s).bsRlen = s.bsRlen := rfl
@[simp] theorem endCommand_memAddr : (endCommand s).memAddr = s.memAddr := rfl
@[simp] theorem endCommand_freq : (endCommand s).freq = s.freq := rfl
@[simp] theorem endCommand_total : (endCommand s).total = s.total := rfl
@[simp] theorem endCommand_cum : (endCommand s).cum = s.cum := rfl
@[simp] theorem endCommand_ftNsym : (endCommand s).ftNsym = s.ftNsym := rfl
@[simp] theorem endCommand_len : (endCommand s).len = s.len := rfl
@[simp] theorem endCommand_code : (endCommand s).code = s.code := rfl
@[simp] theorem endCommand_hufNsym : (endCommand s).hufNsym = s.hufNsym := rfl
@[simp] theorem endCommand_hufMaxlen : (endCommand s).hufMaxlen = s.hufMaxlen := rfl
@[simp] theorem endCommand_acLow : (endCommand s).acLow = s.acLow := rfl
@[simp] theorem endCommand_acHigh : (endCommand s).acHigh = s.acHigh := rfl
@[simp] theorem endCommand_acCode : (endCommand s).acCode = s.acCode := rfl
@[simp] theorem endCommand_acPend : (endCommand s).acPend = s.acPend := rfl
@[simp] theorem endCommand_acSym : (endCommand s).acSym = s.acSym := rfl
@[simp] theorem endCommand_bsmem : (endCommand s).bsmem = s.bsmem := rfl
@[simp] theorem endCommand_pendCmd : (endCommand s).pendCmd = s.pendCmd := rfl
@[simp] theorem endCommand_host : (endCommand s).host = s.host := rfl
end endCommand

section withCodes
variable (s : State) (cs : Table CodeWord)
@[simp] theorem withCodes_config : (s.withCodes cs).config = s.config := rfl
@[simp] theorem withCodes_arg0 : (s.withCodes cs).arg0 = s.arg0 := rfl
@[simp] theorem withCodes_res : (s.withCodes cs).res = s.res := rfl
@[simp] theorem withCodes_resHi : (s.withCodes cs).resHi = s.resHi := rfl
@[simp] theorem withCodes_busy : (s.withCodes cs).busy = s.busy := rfl
@[simp] theorem withCodes_err : (s.withCodes cs).err = s.err := rfl
@[simp] theorem withCodes_lost : (s.withCodes cs).lost = s.lost := rfl
@[simp] theorem withCodes_errCode : (s.withCodes cs).errCode = s.errCode := rfl
@[simp] theorem withCodes_mode : (s.withCodes cs).mode = s.mode := rfl
@[simp] theorem withCodes_cumValid : (s.withCodes cs).cumValid = s.cumValid := rfl
@[simp] theorem withCodes_ctValid : (s.withCodes cs).ctValid = true := rfl
@[simp] theorem withCodes_acState : (s.withCodes cs).acState = s.acState := rfl
@[simp] theorem withCodes_acSingle : (s.withCodes cs).acSingle = s.acSingle := rfl
@[simp] theorem withCodes_errCmd : (s.withCodes cs).errCmd = s.errCmd := rfl
@[simp] theorem withCodes_errPos : (s.withCodes cs).errPos = s.errPos := rfl
@[simp] theorem withCodes_bsWpos : (s.withCodes cs).bsWpos = s.bsWpos := rfl
@[simp] theorem withCodes_bsRpos : (s.withCodes cs).bsRpos = s.bsRpos := rfl
@[simp] theorem withCodes_bsRlimit : (s.withCodes cs).bsRlimit = s.bsRlimit := rfl
@[simp] theorem withCodes_bsRlen : (s.withCodes cs).bsRlen = s.bsRlen := rfl
@[simp] theorem withCodes_memAddr : (s.withCodes cs).memAddr = s.memAddr := rfl
@[simp] theorem withCodes_freq : (s.withCodes cs).freq = s.freq := rfl
@[simp] theorem withCodes_total : (s.withCodes cs).total = s.total := rfl
@[simp] theorem withCodes_cum : (s.withCodes cs).cum = s.cum := rfl
@[simp] theorem withCodes_ftNsym : (s.withCodes cs).ftNsym = s.ftNsym := rfl
@[simp] theorem withCodes_len : (s.withCodes cs).len = s.len := rfl
@[simp] theorem withCodes_code : (s.withCodes cs).code = cs := rfl
@[simp] theorem withCodes_hufNsym : (s.withCodes cs).hufNsym = BitVec.ofNat 9 (nonzeroLengths s.len) := rfl
@[simp] theorem withCodes_hufMaxlen : (s.withCodes cs).hufMaxlen = BitVec.ofNat 8 (maxLength s.len) := rfl
@[simp] theorem withCodes_acLow : (s.withCodes cs).acLow = s.acLow := rfl
@[simp] theorem withCodes_acHigh : (s.withCodes cs).acHigh = s.acHigh := rfl
@[simp] theorem withCodes_acCode : (s.withCodes cs).acCode = s.acCode := rfl
@[simp] theorem withCodes_acPend : (s.withCodes cs).acPend = s.acPend := rfl
@[simp] theorem withCodes_acSym : (s.withCodes cs).acSym = s.acSym := rfl
@[simp] theorem withCodes_bsmem : (s.withCodes cs).bsmem = s.bsmem := rfl
@[simp] theorem withCodes_pendCmd : (s.withCodes cs).pendCmd = s.pendCmd := rfl
@[simp] theorem withCodes_host : (s.withCodes cs).host = s.host := rfl
end withCodes

section shiftBounds
variable (s : State)
@[simp] theorem shiftBounds_config : (shiftBounds s).config = s.config := rfl
@[simp] theorem shiftBounds_arg0 : (shiftBounds s).arg0 = s.arg0 := rfl
@[simp] theorem shiftBounds_res : (shiftBounds s).res = s.res := rfl
@[simp] theorem shiftBounds_resHi : (shiftBounds s).resHi = s.resHi := rfl
@[simp] theorem shiftBounds_busy : (shiftBounds s).busy = s.busy := rfl
@[simp] theorem shiftBounds_err : (shiftBounds s).err = s.err := rfl
@[simp] theorem shiftBounds_lost : (shiftBounds s).lost = s.lost := rfl
@[simp] theorem shiftBounds_errCode : (shiftBounds s).errCode = s.errCode := rfl
@[simp] theorem shiftBounds_mode : (shiftBounds s).mode = s.mode := rfl
@[simp] theorem shiftBounds_cumValid : (shiftBounds s).cumValid = s.cumValid := rfl
@[simp] theorem shiftBounds_ctValid : (shiftBounds s).ctValid = s.ctValid := rfl
@[simp] theorem shiftBounds_acState : (shiftBounds s).acState = s.acState := rfl
@[simp] theorem shiftBounds_acSingle : (shiftBounds s).acSingle = s.acSingle := rfl
@[simp] theorem shiftBounds_errCmd : (shiftBounds s).errCmd = s.errCmd := rfl
@[simp] theorem shiftBounds_errPos : (shiftBounds s).errPos = s.errPos := rfl
@[simp] theorem shiftBounds_bsWpos : (shiftBounds s).bsWpos = s.bsWpos := rfl
@[simp] theorem shiftBounds_bsRpos : (shiftBounds s).bsRpos = s.bsRpos := rfl
@[simp] theorem shiftBounds_bsRlimit : (shiftBounds s).bsRlimit = s.bsRlimit := rfl
@[simp] theorem shiftBounds_bsRlen : (shiftBounds s).bsRlen = s.bsRlen := rfl
@[simp] theorem shiftBounds_memAddr : (shiftBounds s).memAddr = s.memAddr := rfl
@[simp] theorem shiftBounds_freq : (shiftBounds s).freq = s.freq := rfl
@[simp] theorem shiftBounds_total : (shiftBounds s).total = s.total := rfl
@[simp] theorem shiftBounds_cum : (shiftBounds s).cum = s.cum := rfl
@[simp] theorem shiftBounds_ftNsym : (shiftBounds s).ftNsym = s.ftNsym := rfl
@[simp] theorem shiftBounds_len : (shiftBounds s).len = s.len := rfl
@[simp] theorem shiftBounds_code : (shiftBounds s).code = s.code := rfl
@[simp] theorem shiftBounds_hufNsym : (shiftBounds s).hufNsym = s.hufNsym := rfl
@[simp] theorem shiftBounds_hufMaxlen : (shiftBounds s).hufMaxlen = s.hufMaxlen := rfl
@[simp] theorem shiftBounds_acLow : (shiftBounds s).acLow = shiftWord s.acLow false := rfl
@[simp] theorem shiftBounds_acHigh : (shiftBounds s).acHigh = shiftWord s.acHigh true := rfl
@[simp] theorem shiftBounds_acCode : (shiftBounds s).acCode = s.acCode := rfl
@[simp] theorem shiftBounds_acPend : (shiftBounds s).acPend = s.acPend := rfl
@[simp] theorem shiftBounds_acSym : (shiftBounds s).acSym = s.acSym := rfl
@[simp] theorem shiftBounds_bsmem : (shiftBounds s).bsmem = s.bsmem := rfl
@[simp] theorem shiftBounds_pendCmd : (shiftBounds s).pendCmd = s.pendCmd := rfl
@[simp] theorem shiftBounds_host : (shiftBounds s).host = s.host := rfl
end shiftBounds

section nextWindow
variable (s : State)
@[simp] theorem nextWindow_config : (s.nextWindow).config = s.config := rfl
@[simp] theorem nextWindow_arg0 : (s.nextWindow).arg0 = s.arg0 := rfl
@[simp] theorem nextWindow_res : (s.nextWindow).res = s.res := rfl
@[simp] theorem nextWindow_resHi : (s.nextWindow).resHi = s.resHi := rfl
@[simp] theorem nextWindow_busy : (s.nextWindow).busy = s.busy := rfl
@[simp] theorem nextWindow_err : (s.nextWindow).err = s.err := rfl
@[simp] theorem nextWindow_lost : (s.nextWindow).lost = s.lost := rfl
@[simp] theorem nextWindow_errCode : (s.nextWindow).errCode = s.errCode := rfl
@[simp] theorem nextWindow_mode : (s.nextWindow).mode = s.mode := rfl
@[simp] theorem nextWindow_cumValid : (s.nextWindow).cumValid = s.cumValid := rfl
@[simp] theorem nextWindow_ctValid : (s.nextWindow).ctValid = s.ctValid := rfl
@[simp] theorem nextWindow_acState : (s.nextWindow).acState = s.acState := rfl
@[simp] theorem nextWindow_acSingle : (s.nextWindow).acSingle = s.acSingle := rfl
@[simp] theorem nextWindow_errCmd : (s.nextWindow).errCmd = s.errCmd := rfl
@[simp] theorem nextWindow_errPos : (s.nextWindow).errPos = s.errPos := rfl
@[simp] theorem nextWindow_bsWpos : (s.nextWindow).bsWpos = s.bsWpos := rfl
@[simp] theorem nextWindow_bsRpos : (s.nextWindow).bsRpos = s.bsRpos := rfl
@[simp] theorem nextWindow_bsRlimit : (s.nextWindow).bsRlimit = s.bsRlimit := rfl
@[simp] theorem nextWindow_bsRlen : (s.nextWindow).bsRlen = s.bsRlen := rfl
@[simp] theorem nextWindow_memAddr : (s.nextWindow).memAddr = s.memAddr + 1 := rfl
@[simp] theorem nextWindow_freq : (s.nextWindow).freq = s.freq := rfl
@[simp] theorem nextWindow_total : (s.nextWindow).total = s.total := rfl
@[simp] theorem nextWindow_cum : (s.nextWindow).cum = s.cum := rfl
@[simp] theorem nextWindow_ftNsym : (s.nextWindow).ftNsym = s.ftNsym := rfl
@[simp] theorem nextWindow_len : (s.nextWindow).len = s.len := rfl
@[simp] theorem nextWindow_code : (s.nextWindow).code = s.code := rfl
@[simp] theorem nextWindow_hufNsym : (s.nextWindow).hufNsym = s.hufNsym := rfl
@[simp] theorem nextWindow_hufMaxlen : (s.nextWindow).hufMaxlen = s.hufMaxlen := rfl
@[simp] theorem nextWindow_acLow : (s.nextWindow).acLow = s.acLow := rfl
@[simp] theorem nextWindow_acHigh : (s.nextWindow).acHigh = s.acHigh := rfl
@[simp] theorem nextWindow_acCode : (s.nextWindow).acCode = s.acCode := rfl
@[simp] theorem nextWindow_acPend : (s.nextWindow).acPend = s.acPend := rfl
@[simp] theorem nextWindow_acSym : (s.nextWindow).acSym = s.acSym := rfl
@[simp] theorem nextWindow_bsmem : (s.nextWindow).bsmem = s.bsmem := rfl
@[simp] theorem nextWindow_pendCmd : (s.nextWindow).pendCmd = s.pendCmd := rfl
@[simp] theorem nextWindow_host : (s.nextWindow).host = s.host := rfl
end nextWindow

section loseWrite
variable (s : State)
@[simp] theorem loseWrite_config : (s.loseWrite).config = s.config := rfl
@[simp] theorem loseWrite_arg0 : (s.loseWrite).arg0 = s.arg0 := rfl
@[simp] theorem loseWrite_res : (s.loseWrite).res = s.res := rfl
@[simp] theorem loseWrite_resHi : (s.loseWrite).resHi = s.resHi := rfl
@[simp] theorem loseWrite_busy : (s.loseWrite).busy = s.busy := rfl
@[simp] theorem loseWrite_err : (s.loseWrite).err = s.err := rfl
@[simp] theorem loseWrite_lost : (s.loseWrite).lost = true := rfl
@[simp] theorem loseWrite_errCode : (s.loseWrite).errCode = s.errCode := rfl
@[simp] theorem loseWrite_mode : (s.loseWrite).mode = s.mode := rfl
@[simp] theorem loseWrite_cumValid : (s.loseWrite).cumValid = s.cumValid := rfl
@[simp] theorem loseWrite_ctValid : (s.loseWrite).ctValid = s.ctValid := rfl
@[simp] theorem loseWrite_acState : (s.loseWrite).acState = s.acState := rfl
@[simp] theorem loseWrite_acSingle : (s.loseWrite).acSingle = s.acSingle := rfl
@[simp] theorem loseWrite_errCmd : (s.loseWrite).errCmd = s.errCmd := rfl
@[simp] theorem loseWrite_errPos : (s.loseWrite).errPos = s.errPos := rfl
@[simp] theorem loseWrite_bsWpos : (s.loseWrite).bsWpos = s.bsWpos := rfl
@[simp] theorem loseWrite_bsRpos : (s.loseWrite).bsRpos = s.bsRpos := rfl
@[simp] theorem loseWrite_bsRlimit : (s.loseWrite).bsRlimit = s.bsRlimit := rfl
@[simp] theorem loseWrite_bsRlen : (s.loseWrite).bsRlen = s.bsRlen := rfl
@[simp] theorem loseWrite_memAddr : (s.loseWrite).memAddr = s.memAddr := rfl
@[simp] theorem loseWrite_freq : (s.loseWrite).freq = s.freq := rfl
@[simp] theorem loseWrite_total : (s.loseWrite).total = s.total := rfl
@[simp] theorem loseWrite_cum : (s.loseWrite).cum = s.cum := rfl
@[simp] theorem loseWrite_ftNsym : (s.loseWrite).ftNsym = s.ftNsym := rfl
@[simp] theorem loseWrite_len : (s.loseWrite).len = s.len := rfl
@[simp] theorem loseWrite_code : (s.loseWrite).code = s.code := rfl
@[simp] theorem loseWrite_hufNsym : (s.loseWrite).hufNsym = s.hufNsym := rfl
@[simp] theorem loseWrite_hufMaxlen : (s.loseWrite).hufMaxlen = s.hufMaxlen := rfl
@[simp] theorem loseWrite_acLow : (s.loseWrite).acLow = s.acLow := rfl
@[simp] theorem loseWrite_acHigh : (s.loseWrite).acHigh = s.acHigh := rfl
@[simp] theorem loseWrite_acCode : (s.loseWrite).acCode = s.acCode := rfl
@[simp] theorem loseWrite_acPend : (s.loseWrite).acPend = s.acPend := rfl
@[simp] theorem loseWrite_acSym : (s.loseWrite).acSym = s.acSym := rfl
@[simp] theorem loseWrite_bsmem : (s.loseWrite).bsmem = s.bsmem := rfl
@[simp] theorem loseWrite_pendCmd : (s.loseWrite).pendCmd = s.pendCmd := rfl
@[simp] theorem loseWrite_host : (s.loseWrite).host = s.host := rfl
end loseWrite

section acceptCommand
variable (w : Word) (s : State)
@[simp] theorem acceptCommand_config : (s.acceptCommand w).config = s.config := rfl
@[simp] theorem acceptCommand_arg0 : (s.acceptCommand w).arg0 = s.arg0 := rfl
@[simp] theorem acceptCommand_res : (s.acceptCommand w).res = s.res := rfl
@[simp] theorem acceptCommand_resHi : (s.acceptCommand w).resHi = s.resHi := rfl
@[simp] theorem acceptCommand_busy : (s.acceptCommand w).busy = true := rfl
@[simp] theorem acceptCommand_err : (s.acceptCommand w).err = s.err := rfl
@[simp] theorem acceptCommand_lost : (s.acceptCommand w).lost = s.lost := rfl
@[simp] theorem acceptCommand_errCode : (s.acceptCommand w).errCode = s.errCode := rfl
@[simp] theorem acceptCommand_mode : (s.acceptCommand w).mode = s.mode := rfl
@[simp] theorem acceptCommand_cumValid : (s.acceptCommand w).cumValid = s.cumValid := rfl
@[simp] theorem acceptCommand_ctValid : (s.acceptCommand w).ctValid = s.ctValid := rfl
@[simp] theorem acceptCommand_acState : (s.acceptCommand w).acState = s.acState := rfl
@[simp] theorem acceptCommand_acSingle : (s.acceptCommand w).acSingle = s.acSingle := rfl
@[simp] theorem acceptCommand_errCmd : (s.acceptCommand w).errCmd = s.errCmd := rfl
@[simp] theorem acceptCommand_errPos : (s.acceptCommand w).errPos = s.errPos := rfl
@[simp] theorem acceptCommand_bsWpos : (s.acceptCommand w).bsWpos = s.bsWpos := rfl
@[simp] theorem acceptCommand_bsRpos : (s.acceptCommand w).bsRpos = s.bsRpos := rfl
@[simp] theorem acceptCommand_bsRlimit : (s.acceptCommand w).bsRlimit = s.bsRlimit := rfl
@[simp] theorem acceptCommand_bsRlen : (s.acceptCommand w).bsRlen = s.bsRlen := rfl
@[simp] theorem acceptCommand_memAddr : (s.acceptCommand w).memAddr = s.memAddr := rfl
@[simp] theorem acceptCommand_freq : (s.acceptCommand w).freq = s.freq := rfl
@[simp] theorem acceptCommand_total : (s.acceptCommand w).total = s.total := rfl
@[simp] theorem acceptCommand_cum : (s.acceptCommand w).cum = s.cum := rfl
@[simp] theorem acceptCommand_ftNsym : (s.acceptCommand w).ftNsym = s.ftNsym := rfl
@[simp] theorem acceptCommand_len : (s.acceptCommand w).len = s.len := rfl
@[simp] theorem acceptCommand_code : (s.acceptCommand w).code = s.code := rfl
@[simp] theorem acceptCommand_hufNsym : (s.acceptCommand w).hufNsym = s.hufNsym := rfl
@[simp] theorem acceptCommand_hufMaxlen : (s.acceptCommand w).hufMaxlen = s.hufMaxlen := rfl
@[simp] theorem acceptCommand_acLow : (s.acceptCommand w).acLow = s.acLow := rfl
@[simp] theorem acceptCommand_acHigh : (s.acceptCommand w).acHigh = s.acHigh := rfl
@[simp] theorem acceptCommand_acCode : (s.acceptCommand w).acCode = s.acCode := rfl
@[simp] theorem acceptCommand_acPend : (s.acceptCommand w).acPend = s.acPend := rfl
@[simp] theorem acceptCommand_acSym : (s.acceptCommand w).acSym = s.acSym := rfl
@[simp] theorem acceptCommand_bsmem : (s.acceptCommand w).bsmem = s.bsmem := rfl
@[simp] theorem acceptCommand_pendCmd : (s.acceptCommand w).pendCmd = w := rfl
@[simp] theorem acceptCommand_host : (s.acceptCommand w).host = { s.host with wait := s.host.delays.headD 0, delays := s.host.delays.tail } := rfl
end acceptCommand

section withScript
variable (s : State) (ops : List HostOp)
@[simp] theorem withScript_config : (s.withScript ops).config = s.config := rfl
@[simp] theorem withScript_arg0 : (s.withScript ops).arg0 = s.arg0 := rfl
@[simp] theorem withScript_res : (s.withScript ops).res = s.res := rfl
@[simp] theorem withScript_resHi : (s.withScript ops).resHi = s.resHi := rfl
@[simp] theorem withScript_busy : (s.withScript ops).busy = s.busy := rfl
@[simp] theorem withScript_err : (s.withScript ops).err = s.err := rfl
@[simp] theorem withScript_lost : (s.withScript ops).lost = s.lost := rfl
@[simp] theorem withScript_errCode : (s.withScript ops).errCode = s.errCode := rfl
@[simp] theorem withScript_mode : (s.withScript ops).mode = s.mode := rfl
@[simp] theorem withScript_cumValid : (s.withScript ops).cumValid = s.cumValid := rfl
@[simp] theorem withScript_ctValid : (s.withScript ops).ctValid = s.ctValid := rfl
@[simp] theorem withScript_acState : (s.withScript ops).acState = s.acState := rfl
@[simp] theorem withScript_acSingle : (s.withScript ops).acSingle = s.acSingle := rfl
@[simp] theorem withScript_errCmd : (s.withScript ops).errCmd = s.errCmd := rfl
@[simp] theorem withScript_errPos : (s.withScript ops).errPos = s.errPos := rfl
@[simp] theorem withScript_bsWpos : (s.withScript ops).bsWpos = s.bsWpos := rfl
@[simp] theorem withScript_bsRpos : (s.withScript ops).bsRpos = s.bsRpos := rfl
@[simp] theorem withScript_bsRlimit : (s.withScript ops).bsRlimit = s.bsRlimit := rfl
@[simp] theorem withScript_bsRlen : (s.withScript ops).bsRlen = s.bsRlen := rfl
@[simp] theorem withScript_memAddr : (s.withScript ops).memAddr = s.memAddr := rfl
@[simp] theorem withScript_freq : (s.withScript ops).freq = s.freq := rfl
@[simp] theorem withScript_total : (s.withScript ops).total = s.total := rfl
@[simp] theorem withScript_cum : (s.withScript ops).cum = s.cum := rfl
@[simp] theorem withScript_ftNsym : (s.withScript ops).ftNsym = s.ftNsym := rfl
@[simp] theorem withScript_len : (s.withScript ops).len = s.len := rfl
@[simp] theorem withScript_code : (s.withScript ops).code = s.code := rfl
@[simp] theorem withScript_hufNsym : (s.withScript ops).hufNsym = s.hufNsym := rfl
@[simp] theorem withScript_hufMaxlen : (s.withScript ops).hufMaxlen = s.hufMaxlen := rfl
@[simp] theorem withScript_acLow : (s.withScript ops).acLow = s.acLow := rfl
@[simp] theorem withScript_acHigh : (s.withScript ops).acHigh = s.acHigh := rfl
@[simp] theorem withScript_acCode : (s.withScript ops).acCode = s.acCode := rfl
@[simp] theorem withScript_acPend : (s.withScript ops).acPend = s.acPend := rfl
@[simp] theorem withScript_acSym : (s.withScript ops).acSym = s.acSym := rfl
@[simp] theorem withScript_bsmem : (s.withScript ops).bsmem = s.bsmem := rfl
@[simp] theorem withScript_pendCmd : (s.withScript ops).pendCmd = s.pendCmd := rfl
@[simp] theorem withScript_host : (s.withScript ops).host = { s.host with script := ops } := rfl
end withScript

section recordRead
variable (s : State) (v : Word)
@[simp] theorem recordRead_config : (s.recordRead v).config = s.config := rfl
@[simp] theorem recordRead_arg0 : (s.recordRead v).arg0 = s.arg0 := rfl
@[simp] theorem recordRead_res : (s.recordRead v).res = s.res := rfl
@[simp] theorem recordRead_resHi : (s.recordRead v).resHi = s.resHi := rfl
@[simp] theorem recordRead_busy : (s.recordRead v).busy = s.busy := rfl
@[simp] theorem recordRead_err : (s.recordRead v).err = s.err := rfl
@[simp] theorem recordRead_lost : (s.recordRead v).lost = s.lost := rfl
@[simp] theorem recordRead_errCode : (s.recordRead v).errCode = s.errCode := rfl
@[simp] theorem recordRead_mode : (s.recordRead v).mode = s.mode := rfl
@[simp] theorem recordRead_cumValid : (s.recordRead v).cumValid = s.cumValid := rfl
@[simp] theorem recordRead_ctValid : (s.recordRead v).ctValid = s.ctValid := rfl
@[simp] theorem recordRead_acState : (s.recordRead v).acState = s.acState := rfl
@[simp] theorem recordRead_acSingle : (s.recordRead v).acSingle = s.acSingle := rfl
@[simp] theorem recordRead_errCmd : (s.recordRead v).errCmd = s.errCmd := rfl
@[simp] theorem recordRead_errPos : (s.recordRead v).errPos = s.errPos := rfl
@[simp] theorem recordRead_bsWpos : (s.recordRead v).bsWpos = s.bsWpos := rfl
@[simp] theorem recordRead_bsRpos : (s.recordRead v).bsRpos = s.bsRpos := rfl
@[simp] theorem recordRead_bsRlimit : (s.recordRead v).bsRlimit = s.bsRlimit := rfl
@[simp] theorem recordRead_bsRlen : (s.recordRead v).bsRlen = s.bsRlen := rfl
@[simp] theorem recordRead_memAddr : (s.recordRead v).memAddr = s.memAddr := rfl
@[simp] theorem recordRead_freq : (s.recordRead v).freq = s.freq := rfl
@[simp] theorem recordRead_total : (s.recordRead v).total = s.total := rfl
@[simp] theorem recordRead_cum : (s.recordRead v).cum = s.cum := rfl
@[simp] theorem recordRead_ftNsym : (s.recordRead v).ftNsym = s.ftNsym := rfl
@[simp] theorem recordRead_len : (s.recordRead v).len = s.len := rfl
@[simp] theorem recordRead_code : (s.recordRead v).code = s.code := rfl
@[simp] theorem recordRead_hufNsym : (s.recordRead v).hufNsym = s.hufNsym := rfl
@[simp] theorem recordRead_hufMaxlen : (s.recordRead v).hufMaxlen = s.hufMaxlen := rfl
@[simp] theorem recordRead_acLow : (s.recordRead v).acLow = s.acLow := rfl
@[simp] theorem recordRead_acHigh : (s.recordRead v).acHigh = s.acHigh := rfl
@[simp] theorem recordRead_acCode : (s.recordRead v).acCode = s.acCode := rfl
@[simp] theorem recordRead_acPend : (s.recordRead v).acPend = s.acPend := rfl
@[simp] theorem recordRead_acSym : (s.recordRead v).acSym = s.acSym := rfl
@[simp] theorem recordRead_bsmem : (s.recordRead v).bsmem = s.bsmem := rfl
@[simp] theorem recordRead_pendCmd : (s.recordRead v).pendCmd = s.pendCmd := rfl
@[simp] theorem recordRead_host : (s.recordRead v).host = { s.host with seen := s.host.seen ++ [v] } := rfl
end recordRead

section withFetchWord
variable (s : State) (nbits w : Nat)
@[simp] theorem withFetchWord_config : (s.withFetchWord nbits w).config = s.config := rfl
@[simp] theorem withFetchWord_arg0 : (s.withFetchWord nbits w).arg0 = s.arg0 := rfl
@[simp] theorem withFetchWord_res : (s.withFetchWord nbits w).res = s.res := rfl
@[simp] theorem withFetchWord_resHi : (s.withFetchWord nbits w).resHi = s.resHi := rfl
@[simp] theorem withFetchWord_busy : (s.withFetchWord nbits w).busy = true := rfl
@[simp] theorem withFetchWord_err : (s.withFetchWord nbits w).err = s.err := rfl
@[simp] theorem withFetchWord_lost : (s.withFetchWord nbits w).lost = s.lost := rfl
@[simp] theorem withFetchWord_errCode : (s.withFetchWord nbits w).errCode = s.errCode := rfl
@[simp] theorem withFetchWord_mode : (s.withFetchWord nbits w).mode = s.mode := rfl
@[simp] theorem withFetchWord_cumValid : (s.withFetchWord nbits w).cumValid = s.cumValid := rfl
@[simp] theorem withFetchWord_ctValid : (s.withFetchWord nbits w).ctValid = s.ctValid := rfl
@[simp] theorem withFetchWord_acState : (s.withFetchWord nbits w).acState = s.acState := rfl
@[simp] theorem withFetchWord_acSingle : (s.withFetchWord nbits w).acSingle = s.acSingle := rfl
@[simp] theorem withFetchWord_errCmd : (s.withFetchWord nbits w).errCmd = s.errCmd := rfl
@[simp] theorem withFetchWord_errPos : (s.withFetchWord nbits w).errPos = s.errPos := rfl
@[simp] theorem withFetchWord_bsWpos : (s.withFetchWord nbits w).bsWpos = s.bsWpos := rfl
@[simp] theorem withFetchWord_bsRpos : (s.withFetchWord nbits w).bsRpos = s.bsRpos := rfl
@[simp] theorem withFetchWord_bsRlimit : (s.withFetchWord nbits w).bsRlimit = s.bsRlimit := rfl
@[simp] theorem withFetchWord_bsRlen : (s.withFetchWord nbits w).bsRlen = s.bsRlen := rfl
@[simp] theorem withFetchWord_memAddr : (s.withFetchWord nbits w).memAddr = s.memAddr := rfl
@[simp] theorem withFetchWord_freq : (s.withFetchWord nbits w).freq = s.freq := rfl
@[simp] theorem withFetchWord_total : (s.withFetchWord nbits w).total = s.total := rfl
@[simp] theorem withFetchWord_cum : (s.withFetchWord nbits w).cum = s.cum := rfl
@[simp] theorem withFetchWord_ftNsym : (s.withFetchWord nbits w).ftNsym = s.ftNsym := rfl
@[simp] theorem withFetchWord_len : (s.withFetchWord nbits w).len = s.len := rfl
@[simp] theorem withFetchWord_code : (s.withFetchWord nbits w).code = s.code := rfl
@[simp] theorem withFetchWord_hufNsym : (s.withFetchWord nbits w).hufNsym = s.hufNsym := rfl
@[simp] theorem withFetchWord_hufMaxlen : (s.withFetchWord nbits w).hufMaxlen = s.hufMaxlen := rfl
@[simp] theorem withFetchWord_acLow : (s.withFetchWord nbits w).acLow = s.acLow := rfl
@[simp] theorem withFetchWord_acHigh : (s.withFetchWord nbits w).acHigh = s.acHigh := rfl
@[simp] theorem withFetchWord_acCode : (s.withFetchWord nbits w).acCode = s.acCode := rfl
@[simp] theorem withFetchWord_acPend : (s.withFetchWord nbits w).acPend = s.acPend := rfl
@[simp] theorem withFetchWord_acSym : (s.withFetchWord nbits w).acSym = s.acSym := rfl
@[simp] theorem withFetchWord_bsmem : (s.withFetchWord nbits w).bsmem = s.bsmem := rfl
@[simp] theorem withFetchWord_pendCmd : (s.withFetchWord nbits w).pendCmd = BitVec.ofNat 32 (w % 2 ^ nbits) := rfl
@[simp] theorem withFetchWord_host : (s.withFetchWord nbits w).host = { s.host with wait := 0 } := rfl
end withFetchWord

section engineReset
variable (s : State)
@[simp] theorem engineReset_config : (engineReset s).config = s.config := rfl
@[simp] theorem engineReset_arg0 : (engineReset s).arg0 = 0 := rfl
@[simp] theorem engineReset_res : (engineReset s).res = 0 := rfl
@[simp] theorem engineReset_resHi : (engineReset s).resHi = 0 := rfl
@[simp] theorem engineReset_busy : (engineReset s).busy = false := rfl
@[simp] theorem engineReset_err : (engineReset s).err = false := rfl
@[simp] theorem engineReset_lost : (engineReset s).lost = false := rfl
@[simp] theorem engineReset_errCode : (engineReset s).errCode = .none := rfl
@[simp] theorem engineReset_mode : (engineReset s).mode = .huffman := rfl
@[simp] theorem engineReset_cumValid : (engineReset s).cumValid = true := rfl
@[simp] theorem engineReset_ctValid : (engineReset s).ctValid = false := rfl
@[simp] theorem engineReset_acState : (engineReset s).acState = .idle := rfl
@[simp] theorem engineReset_acSingle : (engineReset s).acSingle = false := rfl
@[simp] theorem engineReset_errCmd : (engineReset s).errCmd = 0 := rfl
@[simp] theorem engineReset_errPos : (engineReset s).errPos = 0 := rfl
@[simp] theorem engineReset_bsWpos : (engineReset s).bsWpos = 0 := rfl
@[simp] theorem engineReset_bsRpos : (engineReset s).bsRpos = 0 := rfl
@[simp] theorem engineReset_bsRlimit : (engineReset s).bsRlimit = 0 := rfl
@[simp] theorem engineReset_bsRlen : (engineReset s).bsRlen = 0 := rfl
@[simp] theorem engineReset_memAddr : (engineReset s).memAddr = 0 := rfl
@[simp] theorem engineReset_freq : (engineReset s).freq = Vector.replicate 256 0 := rfl
@[simp] theorem engineReset_total : (engineReset s).total = 0 := rfl
@[simp] theorem engineReset_cum : (engineReset s).cum = Vector.replicate 256 0 := rfl
@[simp] theorem engineReset_ftNsym : (engineReset s).ftNsym = 0 := rfl
@[simp] theorem engineReset_len : (engineReset s).len = Vector.replicate 256 0 := rfl
@[simp] theorem engineReset_code : (engineReset s).code = Vector.replicate 256 0 := rfl
@[simp] theorem engineReset_hufNsym : (engineReset s).hufNsym = 0 := rfl
@[simp] theorem engineReset_hufMaxlen : (engineReset s).hufMaxlen = 0 := rfl
@[simp] theorem engineReset_acLow : (engineReset s).acLow = 0 := rfl
@[simp] theorem engineReset_acHigh : (engineReset s).acHigh = 0xFFFFFFFF := rfl
@[simp] theorem engineReset_acCode : (engineReset s).acCode = 0 := rfl
@[simp] theorem engineReset_acPend : (engineReset s).acPend = 0 := rfl
@[simp] theorem engineReset_acSym : (engineReset s).acSym = 0 := rfl
@[simp] theorem engineReset_bsmem : (engineReset s).bsmem = s.bsmem := rfl
@[simp] theorem engineReset_pendCmd : (engineReset s).pendCmd = 0 := rfl
@[simp] theorem engineReset_host : (engineReset s).host = s.host := rfl
end engineReset

section powerOn
variable (c : Config) (m : Memory)
@[simp] theorem powerOn_config : (State.powerOn c m).config = c := rfl
@[simp] theorem powerOn_arg0 : (State.powerOn c m).arg0 = 0 := rfl
@[simp] theorem powerOn_res : (State.powerOn c m).res = 0 := rfl
@[simp] theorem powerOn_resHi : (State.powerOn c m).resHi = 0 := rfl
@[simp] theorem powerOn_busy : (State.powerOn c m).busy = false := rfl
@[simp] theorem powerOn_err : (State.powerOn c m).err = false := rfl
@[simp] theorem powerOn_lost : (State.powerOn c m).lost = false := rfl
@[simp] theorem powerOn_errCode : (State.powerOn c m).errCode = .none := rfl
@[simp] theorem powerOn_mode : (State.powerOn c m).mode = .huffman := rfl
@[simp] theorem powerOn_cumValid : (State.powerOn c m).cumValid = true := rfl
@[simp] theorem powerOn_ctValid : (State.powerOn c m).ctValid = false := rfl
@[simp] theorem powerOn_acState : (State.powerOn c m).acState = .idle := rfl
@[simp] theorem powerOn_acSingle : (State.powerOn c m).acSingle = false := rfl
@[simp] theorem powerOn_errCmd : (State.powerOn c m).errCmd = 0 := rfl
@[simp] theorem powerOn_errPos : (State.powerOn c m).errPos = 0 := rfl
@[simp] theorem powerOn_bsWpos : (State.powerOn c m).bsWpos = 0 := rfl
@[simp] theorem powerOn_bsRpos : (State.powerOn c m).bsRpos = 0 := rfl
@[simp] theorem powerOn_bsRlimit : (State.powerOn c m).bsRlimit = 0 := rfl
@[simp] theorem powerOn_bsRlen : (State.powerOn c m).bsRlen = 0 := rfl
@[simp] theorem powerOn_memAddr : (State.powerOn c m).memAddr = 0 := rfl
@[simp] theorem powerOn_freq : (State.powerOn c m).freq = Vector.replicate 256 0 := rfl
@[simp] theorem powerOn_total : (State.powerOn c m).total = 0 := rfl
@[simp] theorem powerOn_cum : (State.powerOn c m).cum = Vector.replicate 256 0 := rfl
@[simp] theorem powerOn_ftNsym : (State.powerOn c m).ftNsym = 0 := rfl
@[simp] theorem powerOn_len : (State.powerOn c m).len = Vector.replicate 256 0 := rfl
@[simp] theorem powerOn_code : (State.powerOn c m).code = Vector.replicate 256 0 := rfl
@[simp] theorem powerOn_hufNsym : (State.powerOn c m).hufNsym = 0 := rfl
@[simp] theorem powerOn_hufMaxlen : (State.powerOn c m).hufMaxlen = 0 := rfl
@[simp] theorem powerOn_acLow : (State.powerOn c m).acLow = 0 := rfl
@[simp] theorem powerOn_acHigh : (State.powerOn c m).acHigh = 0xFFFFFFFF := rfl
@[simp] theorem powerOn_acCode : (State.powerOn c m).acCode = 0 := rfl
@[simp] theorem powerOn_acPend : (State.powerOn c m).acPend = 0 := rfl
@[simp] theorem powerOn_acSym : (State.powerOn c m).acSym = 0 := rfl
@[simp] theorem powerOn_bsmem : (State.powerOn c m).bsmem = m := rfl
@[simp] theorem powerOn_pendCmd : (State.powerOn c m).pendCmd = 0 := rfl
@[simp] theorem powerOn_host : (State.powerOn c m).host = HostSide.empty := rfl
end powerOn

/-- Counting an access touches the host's own side only. -/
theorem countAccess_eq (s : State) : s.countAccess = { s with host := s.countAccess.host } := by
  unfold State.countAccess; split <;> rfl

section countAccess
variable (s : State)
@[simp] theorem countAccess_config : s.countAccess.config = s.config := by rw [countAccess_eq]
@[simp] theorem countAccess_arg0 : s.countAccess.arg0 = s.arg0 := by rw [countAccess_eq]
@[simp] theorem countAccess_res : s.countAccess.res = s.res := by rw [countAccess_eq]
@[simp] theorem countAccess_resHi : s.countAccess.resHi = s.resHi := by rw [countAccess_eq]
@[simp] theorem countAccess_busy : s.countAccess.busy = s.busy := by rw [countAccess_eq]
@[simp] theorem countAccess_err : s.countAccess.err = s.err := by rw [countAccess_eq]
@[simp] theorem countAccess_lost : s.countAccess.lost = s.lost := by rw [countAccess_eq]
@[simp] theorem countAccess_errCode : s.countAccess.errCode = s.errCode := by rw [countAccess_eq]
@[simp] theorem countAccess_mode : s.countAccess.mode = s.mode := by rw [countAccess_eq]
@[simp] theorem countAccess_cumValid : s.countAccess.cumValid = s.cumValid := by rw [countAccess_eq]
@[simp] theorem countAccess_ctValid : s.countAccess.ctValid = s.ctValid := by rw [countAccess_eq]
@[simp] theorem countAccess_acState : s.countAccess.acState = s.acState := by rw [countAccess_eq]
@[simp] theorem countAccess_acSingle : s.countAccess.acSingle = s.acSingle := by rw [countAccess_eq]
@[simp] theorem countAccess_errCmd : s.countAccess.errCmd = s.errCmd := by rw [countAccess_eq]
@[simp] theorem countAccess_errPos : s.countAccess.errPos = s.errPos := by rw [countAccess_eq]
@[simp] theorem countAccess_bsWpos : s.countAccess.bsWpos = s.bsWpos := by rw [countAccess_eq]
@[simp] theorem countAccess_bsRpos : s.countAccess.bsRpos = s.bsRpos := by rw [countAccess_eq]
@[simp] theorem countAccess_bsRlimit : s.countAccess.bsRlimit = s.bsRlimit := by rw [countAccess_eq]
@[simp] theorem countAccess_bsRlen : s.countAccess.bsRlen = s.bsRlen := by rw [countAccess_eq]
@[simp] theorem countAccess_memAddr : s.countAccess.memAddr = s.memAddr := by rw [countAccess_eq]
@[simp] theorem countAccess_freq : s.countAccess.freq = s.freq := by rw [countAccess_eq]
@[simp] theorem countAccess_total : s.countAccess.total = s.total := by rw [countAccess_eq]
@[simp] theorem countAccess_cum : s.countAccess.cum = s.cum := by rw [countAccess_eq]
@[simp] theorem countAccess_ftNsym : s.countAccess.ftNsym = s.ftNsym := by rw [countAccess_eq]
@[simp] theorem countAccess_len : s.countAccess.len = s.len := by rw [countAccess_eq]
@[simp] theorem countAccess_code : s.countAccess.code = s.code := by rw [countAccess_eq]
@[simp] theorem countAccess_hufNsym : s.countAccess.hufNsym = s.hufNsym := by rw [countAccess_eq]
@[simp] theorem countAccess_hufMaxlen : s.countAccess.hufMaxlen = s.hufMaxlen := by rw [countAccess_eq]
@[simp] theorem countAccess_acLow : s.countAccess.acLow = s.acLow := by rw [countAccess_eq]
@[simp] theorem countAccess_acHigh : s.countAccess.acHigh = s.acHigh := by rw [countAccess_eq]
@[simp] theorem countAccess_acCode : s.countAccess.acCode = s.acCode := by rw [countAccess_eq]
@[simp] theorem countAccess_acPend : s.countAccess.acPend = s.acPend := by rw [countAccess_eq]
@[simp] theorem countAccess_acSym : s.countAccess.acSym = s.acSym := by rw [countAccess_eq]
@[simp] theorem countAccess_bsmem : s.countAccess.bsmem = s.bsmem := by rw [countAccess_eq]
@[simp] theorem countAccess_pendCmd : s.countAccess.pendCmd = s.pendCmd := by rw [countAccess_eq]
@[simp] theorem countAccess_host_busy (h : s.busy = true) : s.countAccess.host = { s.host with wait := s.host.wait - 1 } := by simp [State.countAccess, h]
@[simp] theorem countAccess_host_idle (h : s.busy = false) : s.countAccess.host = s.host := by simp [State.countAccess, h]
end countAccess

end Sys2Proof.Machine
end

