-- ==== Sys2Proof/Laws/Step.lean ====
section
/-! SUPPORT. What one step can do: whose turn it is, how the engine's turn ends, and what the host's turn touches. -/

namespace Sys2Proof.Machine

/-- A pending command whose turn has come (rules R350, R490). -/
def State.engineTurn (s : State) : Bool := s.busy && (s.host.wait == 0 || s.host.script.isEmpty)

theorem step_engine {s : State} (h : s.engineTurn = true) : step s = engineStep s := by
  unfold State.engineTurn at h
  simp [step, machineStep, h]

theorem step_host {s : State} (h : s.engineTurn = false) : step s = hostTurn s := by
  unfold State.engineTurn at h
  simp [step, machineStep, h]

/-- Every command's meaning is its pseudocode, concluded on the state it started from. -/
theorem exec_concludes (i : Instr) (s : State) : ∃ r, exec i s = conclude s r := by
  cases i <;>
    (simp only [exec, execNop, execCtlReset, execCtlClrerr, execCtrMode, execBsWinit, execBsWr, execBsFlush,
      execBsRinit, execBsRd, execFtClr, execFtAcc, execFtLd, execFtRd, execFtCum, execFtCrd, execHufBuild,
      execHufLdlen, execHufCanon, execHufRdlen, execHufRdcode, execHufEnc, execHufDec, execAcEinit, execAcEnc,
      execAcEfin, execAcDinit, execAcDec, execAcDfin]
     exact ⟨_, rfl⟩)

/-- No command refuses. -/
theorem exec_ne_refused (i : Instr) (s : State) (x : Refusal) : exec i s ≠ .refused x := by
  obtain ⟨r, h⟩ := exec_concludes i s
  rw [h]
  exact conclude_ne_refused

/-- The engine's turn ends in one of four ways (rules R350, R352): the word is illegal and raises, it is discarded,
it runs to a next state, or it faults. -/
theorem engineStep_cases {s t : State} (h : engineStep s = .next t) :
    (decode s.pendCmd = none ∧ s.err = false ∧ t = endCommand (raiseError .illegalCmd s)) ∨
    (s.err = true ∧ (∀ i, decode s.pendCmd = some i → acceptedUnderError i = false) ∧ t = endCommand s) ∨
    (∃ i u, decode s.pendCmd = some i ∧ (s.err = false ∨ acceptedUnderError i = true) ∧ exec i s = .next u ∧
      t = endCommand u) := by
  unfold engineStep at h
  cases hd : decode s.pendCmd with
  | none =>
    cases he : s.err
    · exact .inl ⟨rfl, rfl, by simpa [hd, he] using h.symm⟩
    · exact .inr (.inl ⟨rfl, by simp, by simpa [hd, he] using h.symm⟩)
  | some i =>
    simp only [hd] at h
    split at h
    · next hc =>
      simp only [Bool.and_eq_true, Bool.not_eq_true'] at hc
      exact .inr (.inl ⟨hc.1, by simpa using hc.2, by simpa using h.symm⟩)
    · next hc =>
      refine .inr (.inr ⟨i, ?_⟩)
      cases hx : exec i s with
      | next u =>
        refine ⟨u, rfl, ?_, rfl, by simpa [hx, finishCommand] using h.symm⟩
        cases he : s.err <;> simp_all
      | fault f => simp [hx, finishCommand] at h
      | refused r => simp [hx, finishCommand] at h

/-- After the engine's turn no command is pending. -/
theorem engineStep_idle {s t : State} (h : engineStep s = .next t) : t.busy = false := by
  obtain ⟨-, -, rfl⟩ | ⟨-, -, rfl⟩ | ⟨i, u, -, -, -, rfl⟩ := engineStep_cases h <;> rfl

/-- A host read changes nothing but the window address and the count of unspecified reads (rules R91, R357). -/
theorem hostRead_frame (off : Nat) (s : State) :
    (hostRead off s).2 = { s with
      memAddr := (hostRead off s).2.memAddr
      host := { s.host with drawn := (hostRead off s).2.host.drawn } } := by
  unfold hostRead
  split
  · rfl
  · rfl
  · split
    · rfl
    · split <;> rfl
  · split <;> rfl

/-- A host write changes only the host-writable registers, `BSMEM`, and for an accepted command `PENDCMD`, `BUSY`
and the delay (rules R25, R357). -/
theorem hostWrite_frame (off : Nat) (w : Word) (s : State) :
    hostWrite off w s = { s with
      pendCmd := (hostWrite off w s).pendCmd
      busy := (hostWrite off w s).busy
      lost := (hostWrite off w s).lost
      arg0 := (hostWrite off w s).arg0
      bsRlen := (hostWrite off w s).bsRlen
      memAddr := (hostWrite off w s).memAddr
      bsmem := (hostWrite off w s).bsmem
      host := { s.host with
        wait := (hostWrite off w s).host.wait
        delays := (hostWrite off w s).host.delays } } := by
  unfold hostWrite
  split
  · split <;> rfl
  · split <;> rfl
  · split <;> rfl
  · split <;> rfl
  · split <;> rfl
  · split
    · rfl
    · unfold State.windowWrite
      split <;> rfl
  · rfl
  · rfl

/-- The host's turn ends in one of these ways. -/
theorem hostTurn_cases {s t : State} (h : hostTurn s = .next t) :
    (s.host.script = [] ∧ t = s) ∨
    (∃ size addr v ops off, s.host.script = .write size addr v :: ops ∧
      accessOffset s.config size addr = .ok off ∧ t = hostWrite off v (s.countAccess.withScript ops)) ∨
    (∃ size addr ops off, s.host.script = .read size addr :: ops ∧ accessOffset s.config size addr = .ok off ∧
      t = (hostRead off (s.countAccess.withScript ops)).2.recordRead
        (hostRead off (s.countAccess.withScript ops)).1) ∨
    (∃ ops, s.host.script = .wait :: ops ∧ t = if s.busy then s.countAccess else s.withScript ops) ∨
    (∃ ops, s.host.script = .check :: ops ∧
      t = (s.countAccess.withScript (if s.err then [] else ops)).recordRead s.statusWord) := by
  unfold hostTurn at h
  split at h
  · next hs => exact .inl ⟨hs, by simpa using h.symm⟩
  · next size addr v ops hs =>
    split at h
    · next off ho => exact .inr (.inl ⟨size, addr, v, ops, off, hs, ho, by simpa using h.symm⟩)
    · simp at h
  · next size addr ops hs =>
    split at h
    · next off ho => exact .inr (.inr (.inl ⟨size, addr, ops, off, hs, ho, by simpa using h.symm⟩))
    · simp at h
  · next ops hs => exact .inr (.inr (.inr (.inl ⟨ops, hs, by simpa using h.symm⟩)))
  · next ops hs => exact .inr (.inr (.inr (.inr ⟨ops, hs, by simpa using h.symm⟩)))

/-- Only the engine's turn can fault. -/
theorem step_fault {s : State} {f : Fault} (h : step s = .fault f) : s.engineTurn = true ∧ engineStep s = .fault f := by
  cases he : s.engineTurn
  · rw [step_host he] at h
    unfold hostTurn at h
    split at h <;> (try split at h) <;> simp at h
  · exact ⟨rfl, step_engine he ▸ h⟩

/-- The engine's turn faults only where the command's meaning does. -/
theorem engineStep_fault {s : State} {f : Fault} (h : engineStep s = .fault f) :
    ∃ i, decode s.pendCmd = some i ∧ exec i s = .fault f := by
  unfold engineStep at h
  cases hd : decode s.pendCmd with
  | none => simp [hd] at h
  | some i =>
    refine ⟨i, rfl, ?_⟩
    simp only [hd] at h
    split at h
    · simp at h
    · cases hx : exec i s <;> simp_all [finishCommand]

end Sys2Proof.Machine
end

