-- ==== Sys2Proof/Machine/HostProcedures.lean ====
section
/-! DEFINITION. The container (20_memory.md section 7) and the host procedures that build and parse it
(46_host_procedures.md). Each procedure is a fixed sequence of register accesses and commands; the host starts it
with `BUSY` = 0, waits for each command, and checks `ERR` after each `WAIT` (log 18). -/

namespace Sys2Proof.Machine

/-! ## Bytes of the container (rules R89, R99) -/

/-- `n` as `k` little-endian bytes. -/
def leBytes : Nat → Nat → List Byte
  | 0, _ => []
  | k + 1, n => BitVec.ofNat 8 n :: leBytes k (n / 256)

/-- The number that little-endian bytes stand for. -/
def leValue : List Byte → Nat
  | [] => 0
  | b :: bs => b.toNat + 256 * leValue bs

/-- The 9-byte header: the original length, then the mode tag (rule R99). -/
def containerHeader (n : Nat) (tag : Byte) : List Byte := leBytes 8 n ++ [tag]

/-- Where the payload of a Huffman container starts (rule R99). -/
def huffmanPayloadAt : Nat := 265

/-- Where the payload of an Arithmetic container starts (rule R99). -/
def arithmeticPayloadAt : Nat := 1033

/-! ## Procedures as state transformers -/

/-- A stop of the machine inside a procedure. No procedure meets one from a state a machine reaches. -/
inductive Halt where
  | fault (f : Fault)
  | refused (r : Refusal)
  deriving DecidableEq, Repr

/-- A host procedure: it ends with its result or with exactly one error kind (rule R387), and leaves the machine in
some state. -/
abbrev Proc (α : Type) := ExceptT ErrCode (StateT State (Except Halt)) α

/-- Write a register. -/
def writeReg (r : Reg) (v : Word) : Proc Unit := ExceptT.mk fun s => .ok (.ok (), hostWrite r.offset v s)

/-- Read a register. -/
def readReg (r : Reg) : Proc Word := ExceptT.mk fun s =>
  let (v, t) := hostRead r.offset s
  .ok (.ok v, t)

/-- A command line, its `WAIT` and its `CHECK` (rules R128, R380): on `ERR` = 1 the procedure stops with the error of
`ERRCODE` (rule R387). -/
def command (i : Instr) : Proc Unit := ExceptT.mk fun s =>
  match engineStep (hostWrite Reg.cmd.offset (encode i) s) with
  | .next t => .ok (if t.err then .error t.errCode else .ok (), t)
  | .fault f => .error (.fault f)
  | .refused r => .error (.refused r)

/-- Command lines in order. -/
def commands : List Instr → Proc Unit
  | [] => pure ()
  | i :: is => do
    command i
    commands is

/-- `HUF.RDLEN s ; RES`, or `FT.RD s ; RES`, for each symbol of a list (rules R380, R382). -/
def readEach (q : Sym → Instr) : List Sym → Proc (List Word)
  | [] => pure []
  | x :: xs => do
    command (q x)
    let v ← readReg .res
    return v :: (← readEach q xs)

/-- `MEMGET k`: the bytes of the next `k` window reads (rule R130). -/
def memGet : Nat → Proc (List Byte)
  | 0 => pure []
  | k + 1 => do
    let v ← readReg .memData
    return v.setWidth 8 :: (← memGet k)

/-- `MEMPUT` of a list of bytes (rule R130). -/
def memPut : List Byte → Proc Unit
  | [] => pure ()
  | b :: bs => do
    writeReg .memData (b.setWidth 32)
    memPut bs

/-- `BS.FLUSH`, then the payload bytes `BSMEM[0..m-1]` (rules R380, R382). -/
def takePayload : Proc (List Byte) := do
  command .bsFlush
  let m ← readReg .res
  writeReg .memAddr 0
  memGet m.toNat

/-- Load a payload at address 0 and start reading it; a payload longer than `BS_CAP` is refused before anything is
loaded (rules R383, R384). -/
def loadPayload (payload : List Byte) : Proc Unit := do
  let cap ← readReg .bsCapr
  if cap.toNat < payload.length then throw .bufferFull
  writeReg .memAddr 0
  memPut payload
  writeReg .bsRlen (BitVec.ofNat 32 payload.length)
  command .bsRinit

/-- `repeat n times: <decode> ; out <- out ++ [RES]` (rules R383, R384). -/
def decodeEach (i : Instr) : Nat → Proc (List Byte)
  | 0 => pure []
  | n + 1 => do
    command i
    let v ← readReg .res
    return v.setWidth 8 :: (← decodeEach i n)

/-- `SETCNT s, LE32 value` for each symbol, four model bytes each (rule R384). -/
def loadCounts : List Sym → List Byte → Proc Unit
  | [], _ => pure ()
  | x :: xs, bs => do
    writeReg .arg0 (BitVec.ofNat 32 (leValue (bs.take 4)))
    command (.ftLd x)
    loadCounts xs (bs.drop 4)

/-! ## Compression (rules R380 to R382, R386) -/

/-- `compressHuffman(b)` (rule R380). -/
def compressHuffman (b : List Byte) : Proc (List Byte) := do
  command .ctlReset
  command .ftClr
  commands (b.map .ftAcc)
  if b.isEmpty then return containerHeader 0 0
  command (.ctrMode 0)
  command .bsWinit
  command .hufBuild
  let lens ← readEach .hufRdlen allSyms
  commands (b.map .hufEnc)
  let payload ← takePayload
  return containerHeader b.length 0 ++ lens.map (fun v => v.setWidth 8) ++ payload

/-- `compressArithmetic(b)` (rule R382). -/
def compressArithmetic (b : List Byte) : Proc (List Byte) := do
  command .ctlReset
  command .ftClr
  commands (b.map .ftAcc)
  if b.isEmpty then return containerHeader 0 1
  command (.ctrMode 1)
  command .bsWinit
  command .ftCum
  let counts ← readEach .ftRd allSyms
  command .acEinit
  commands (b.map .acEnc)
  command .acEfin
  let payload ← takePayload
  return containerHeader b.length 1 ++ counts.flatMap (fun v => leBytes 4 v.toNat) ++ payload

/-! ## Decompression (rules R383 to R386) -/

/-- Rule R383 after the header: `n` symbols of the Huffman container `c`. -/
def decompressHuffmanBody (n : Nat) (c : List Byte) : Proc (List Byte) := do
  if n = 0 then return []
  if c.length < huffmanPayloadAt then throw .outOfData
  commands (List.zipWith Instr.hufLdlen allSyms (c.drop 9))
  command .hufCanon
  loadPayload (c.drop huffmanPayloadAt)
  decodeEach .hufDec n

/-- Rule R384 after the header: `n` symbols of the Arithmetic container `c`. -/
def decompressArithmeticBody (n : Nat) (c : List Byte) : Proc (List Byte) := do
  if n = 0 then return []
  if c.length < arithmeticPayloadAt then throw .outOfData
  command .ftClr
  loadCounts allSyms (c.drop 9)
  command .ftCum
  let lo ← readReg .totalLo
  let hi ← readReg .totalHi
  if lo.toNat + 2 ^ 32 * hi.toNat ≠ n then throw .corruptStream
  loadPayload (c.drop arithmeticPayloadAt)
  command .acDinit
  let out ← decodeEach .acDec n
  command .acDfin
  return out

/-- The common header steps, then the procedure the tag selects (rule R385). -/
def decompress (c : List Byte) : Proc (List Byte) := do
  command .ctlReset
  if c.length < 9 then throw .outOfData
  let n := leValue (c.take 8)
  let tag := (c.drop 8).headD 0
  command (.ctrMode tag)
  if tag = 0 then decompressHuffmanBody n c else decompressArithmeticBody n c

/-- `decompressHuffman(c)`: the tag, not the function's name, selects the procedure (rule R385). -/
def decompressHuffman (c : List Byte) : Proc (List Byte) := decompress c

/-- `decompressArithmetic(c)` (rule R385). -/
def decompressArithmetic (c : List Byte) : Proc (List Byte) := decompress c

/-- The result of a procedure started in a state: its value or its error kind, with the state it leaves. -/
def Proc.runOn {α : Type} (p : Proc α) (s : State) : Except Halt (Except ErrCode α × State) := (ExceptT.run p).run s

end Sys2Proof.Machine
end

