-- ==== Sys2Proof/Machine/HostProgram.lean ====
section
/-! DEFINITION. Host programs (rules R128 to R130): the lines and pseudo-instructions as data, what each makes the
host do, and the reading of their text. -/

namespace Sys2Proof.Machine

/-! ## Lines -/

/-- A line of a host program: the three kinds of rule R128, then the pseudo-instructions of rule R130. -/
inductive HostLine where
  /-- A command line: write the word to `CMD`, then `WAIT`. -/
  | command (i : Instr)
  /-- `WR REG, v` -/
  | write (r : Reg) (v : Word)
  /-- `RD REG` -/
  | read (r : Reg)
  /-- `WAIT` -/
  | wait
  /-- `LI v` -/
  | li (v : Word)
  /-- `PUT v, n` -/
  | put (v : Word) (n : Nat)
  /-- `SETCNT s, c` -/
  | setcnt (x : Sym) (c : Word)
  /-- `SEEK a` -/
  | seek (a : Word)
  /-- `MEMPUT b0, b1, ..., bk` -/
  | memput (bs : List Word)
  /-- `MEMGET k` -/
  | memget (k : Nat)
  /-- `CHECK` -/
  | check
  /-- `COUNT "text"` -/
  | count (text : List Sym)
  /-- `HENC "text"` -/
  | henc (text : List Sym)
  /-- `AENC "text"` -/
  | aenc (text : List Sym)
  deriving DecidableEq, Repr

/-- The aligned 32-bit write of a register at its host address (rules R85, R92). -/
def writeOp (c : Config) (r : Reg) (v : Word) : HostOp := .write .word (c.eceBase + r.offset) v

/-- The aligned 32-bit read of a register at its host address (rules R85, R92). -/
def readOp (c : Config) (r : Reg) : HostOp := .read .word (c.eceBase + r.offset)

/-- A command line: "write the encoded word to CMD, then WAIT" (rules R128, R129). -/
def commandOps (c : Config) (i : Instr) : List HostOp := [writeOp c .cmd (encode i), .wait]

/-- The accesses a line stands for (rules R128, R130). -/
def HostLine.ops (c : Config) : HostLine → List HostOp
  | .command i => commandOps c i
  | .write r v => [writeOp c r v]
  | .read r => [readOp c r]
  | .wait => [.wait]
  | .li v => [writeOp c .arg0 v]
  | .put v n => writeOp c .arg0 v :: commandOps c (.bsWr n)
  | .setcnt x n => writeOp c .arg0 n :: commandOps c (.ftLd x)
  | .seek a => [writeOp c .memAddr a]
  | .memput bs => bs.map (writeOp c .memData)
  | .memget k => List.replicate k (readOp c .memData)
  | .check => [.check]
  | .count text => text.flatMap fun x => commandOps c (.ftAcc x)
  | .henc text => text.flatMap fun x => commandOps c (.hufEnc x)
  | .aenc text => text.flatMap fun x => commandOps c (.acEnc x)

/-- The accesses of a program. -/
def programOps (c : Config) (p : List HostLine) : List HostOp := p.flatMap (HostLine.ops c)

/-- `s` with the program as what its host does next (log 5). -/
def State.withProgram (s : State) (p : List HostLine) : State := s.withScript (programOps s.config p)

/-! ## Names -/

/-- The name of a register (rule R21). -/
def Reg.name : Reg → String
  | .id => "ID"
  | .cmd => "CMD"
  | .arg0 => "ARG0"
  | .res => "RES"
  | .resHi => "RESHI"
  | .status => "STATUS"
  | .errCmd => "ERRCMD"
  | .errPos => "ERRPOS"
  | .bsWpos => "BS_WPOS"
  | .bsRpos => "BS_RPOS"
  | .bsRlimit => "BS_RLIMIT"
  | .bsRlen => "BS_RLEN"
  | .memAddr => "MEMADDR"
  | .memData => "MEMDATA"
  | .bsCapr => "BS_CAPR"
  | .totalLo => "TOTAL_LO"
  | .totalHi => "TOTAL_HI"
  | .ftNsym => "FT_NSYM"
  | .hufNsym => "HUF_NSYM"
  | .hufMaxlen => "HUF_MAXLEN"
  | .acLow => "AC_LOW"
  | .acHigh => "AC_HIGH"
  | .acCode => "AC_CODE"
  | .acPend => "AC_PEND"
  | .acSym => "AC_SYM"

/-- The register of a name. -/
def regNamed (name : String) : Option Reg := Reg.all.find? fun r => r.name == name

/-! ## Text (rules R9, R128; log 19) -/

/-- A piece of a line: a bare word, or what stood between quotes with the quote it stood in. -/
inductive Token where
  | bare (cs : List Char)
  | quoted (quote : Char) (cs : List Char)
  deriving DecidableEq, Repr

/-- The bare word gathered so far, reversed, as a token; nothing for the empty word. -/
def flushToken (cur : List Char) : List Token := if cur.isEmpty then [] else [.bare cur.reverse]

/-- The tokens of a line, `none` where a quote stays open. `quote` is the open quote, if any; `cur` what has been
gathered, reversed. `;` outside quotes starts a comment (rule R128). DESIGN CHOICE (log 19): blanks, tabs and commas
separate, a quote ends the word before it, a line that ends inside quotes is refused, and there is no escape, so a
quote never stands between two of its own kind. -/
def tokens (quote : Option Char) (cur : List Char) : List Char → Option (List Token)
  | [] => if quote.isSome then none else some (flushToken cur)
  | c :: cs =>
    match quote with
    | some q =>
      if c = q then (tokens none [] cs).map (.quoted q cur.reverse :: ·) else tokens (some q) (c :: cur) cs
    | none =>
      if c = ';' then some (flushToken cur)
      else if c = ' ' ∨ c = ',' ∨ c = '\t' then (tokens none [] cs).map (flushToken cur ++ ·)
      else if c = '\'' ∨ c = '"' then (tokens (some c) [] cs).map (flushToken cur ++ ·)
      else tokens none (c :: cur) cs

/-- The value of a digit in bases up to 16. -/
def digitValue (c : Char) : Option Nat :=
  if '0' ≤ c ∧ c ≤ '9' then some (c.toNat - 48)
  else if 'a' ≤ c ∧ c ≤ 'f' then some (c.toNat - 87)
  else if 'A' ≤ c ∧ c ≤ 'F' then some (c.toNat - 55)
  else none

/-- The digits of a number, most significant first, after those already in `v`; `afterDigit` says that the character
before was a digit. `_` is a digit separator (rule R9). DESIGN CHOICE (log 19): it stands between two digits only, and
a number has at least one digit, so a `_` that is alone, first, last or doubled is refused. -/
def digitsValue (base : Nat) (afterDigit : Bool) : List Char → Nat → Option Nat
  | [], v => if afterDigit then some v else none
  | c :: cs, v =>
    if c = '_' then (if afterDigit then digitsValue base false cs v else none)
    else match digitValue c with
      | some d => if d < base then digitsValue base true cs (base * v + d) else none
      | none => none

/-- A decimal, `0x` hexadecimal or `0b` binary number (rules R9, R128), with no sign (log 19). -/
def numberValue : List Char → Option Nat
  | '0' :: 'x' :: cs => digitsValue 16 false cs 0
  | '0' :: 'b' :: cs => digitsValue 2 false cs 0
  | cs => digitsValue 10 false cs 0

/-- An operand: a number, or a quoted character standing for its ASCII code (rule R128). DESIGN CHOICE (log 19): every
numeric operand takes either, not only `s` and `n`, and a character outside ASCII is refused. -/
def operandValue : Token → Option Nat
  | .bare cs => numberValue cs
  | .quoted q cs =>
    match cs with
    | [c] => if q = '\'' ∧ c.toNat < 128 then some c.toNat else none
    | _ => none

/-- An operand that must fit 8 bits; a larger one is refused (log 19). -/
def byteOperand (t : Token) : Option Byte :=
  match operandValue t with
  | some n => if n < 256 then some (BitVec.ofNat 8 n) else none
  | none => none

/-- An operand that must fit 32 bits; a larger one is refused (log 19). -/
def wordOperand (t : Token) : Option Word :=
  match operandValue t with
  | some n => if n < 2 ^ 32 then some (BitVec.ofNat 32 n) else none
  | none => none

/-- The bytes of a text in double quotes, each character by its ASCII code; a character outside ASCII is refused
(rules R128, R130; log 19). -/
def textOperand : Token → Option (List Sym)
  | .quoted q cs =>
    if q = '"' ∧ cs.all (fun c => c.toNat < 128) then some (cs.map fun c => BitVec.ofNat 8 c.toNat) else none
  | .bare _ => none

/-- The register of an operand. -/
def regOperand : Token → Option Reg
  | .bare cs => regNamed (String.ofList cs)
  | .quoted _ _ => none

/-- The command of a mnemonic of format `F0` (rule R125). -/
def commandF0 (name : String) : Option Instr :=
  if name = "NOP" then some .nop
  else if name = "CTL.RESET" then some .ctlReset
  else if name = "CTL.CLRERR" then some .ctlClrerr
  else if name = "BS.WINIT" then some .bsWinit
  else if name = "BS.FLUSH" then some .bsFlush
  else if name = "BS.RINIT" then some .bsRinit
  else if name = "FT.CLR" then some .ftClr
  else if name = "FT.CUM" then some .ftCum
  else if name = "HUF.BUILD" then some .hufBuild
  else if name = "HUF.CANON" then some .hufCanon
  else if name = "HUF.DEC" then some .hufDec
  else if name = "AC.EINIT" then some .acEinit
  else if name = "AC.EFIN" then some .acEfin
  else if name = "AC.DINIT" then some .acDinit
  else if name = "AC.DEC" then some .acDec
  else if name = "AC.DFIN" then some .acDfin
  else none

/-- The command of a mnemonic of format `FS` or `FI` with its operand (rule R125). -/
def commandF1 (name : String) (v : Byte) : Option Instr :=
  if name = "CTR.MODE" then some (.ctrMode v)
  else if name = "BS.WR" then some (.bsWr v.toNat)
  else if name = "BS.RD" then some (.bsRd v.toNat)
  else if name = "FT.ACC" then some (.ftAcc v)
  else if name = "FT.LD" then some (.ftLd v)
  else if name = "FT.RD" then some (.ftRd v)
  else if name = "FT.CRD" then some (.ftCrd v)
  else if name = "HUF.RDLEN" then some (.hufRdlen v)
  else if name = "HUF.ENC" then some (.hufEnc v)
  else if name = "AC.ENC" then some (.acEnc v)
  else none

/-- The command of a mnemonic of format `FSI` with its operands (rule R125). -/
def commandF2 (name : String) (x v : Byte) : Option Instr :=
  if name = "HUF.LDLEN" then some (.hufLdlen x v)
  else if name = "HUF.RDCODE" then some (.hufRdcode x v.toNat)
  else none

/-- A command line, if its operands are in range (rules R124, R128). -/
def commandLine (i : Option Instr) : Option HostLine :=
  match i with
  | some i => if i.wellFormed then some (.command i) else none
  | none => none

/-- A line with no operand. -/
def line0 (name : String) : Option HostLine :=
  if name = "WAIT" then some .wait
  else if name = "CHECK" then some .check
  else commandLine (commandF0 name)

/-- A line with one operand. -/
def line1 (name : String) (t : Token) : Option HostLine :=
  if name = "RD" then (regOperand t).map .read
  else if name = "LI" then (wordOperand t).map .li
  else if name = "SEEK" then (wordOperand t).map .seek
  else if name = "MEMPUT" then (wordOperand t).map fun b => .memput [b]
  else if name = "MEMGET" then (operandValue t).map .memget
  else if name = "COUNT" then (textOperand t).map .count
  else if name = "HENC" then (textOperand t).map .henc
  else if name = "AENC" then (textOperand t).map .aenc
  else commandLine ((byteOperand t).bind (commandF1 name))

/-- A line with two operands. -/
def line2 (name : String) (t u : Token) : Option HostLine :=
  if name = "WR" then (regOperand t).bind fun r => (wordOperand u).map (.write r)
  else if name = "PUT" then
    (wordOperand t).bind fun v => (operandValue u).bind fun n => if n ≤ 32 then some (.put v n) else none
  else if name = "SETCNT" then (byteOperand t).bind fun x => (wordOperand u).map (.setcnt x)
  else if name = "MEMPUT" then (wordOperand t).bind fun a => (wordOperand u).map fun b => .memput [a, b]
  else commandLine ((byteOperand t).bind fun x => (byteOperand u).bind (commandF2 name x))

/-- The line some text stands for: nothing for a blank line or a comment, `none` for text that is no line of rule
R128 or R130. -/
def readLine (text : String) : Option (List HostLine) :=
  match tokens none [] text.toList with
  | none => none
  | some [] => some []
  | some (.quoted _ _ :: _) => none
  | some [.bare n] => (line0 (String.ofList n)).map fun l => [l]
  | some [.bare n, t] => (line1 (String.ofList n) t).map fun l => [l]
  | some [.bare n, t, u] => (line2 (String.ofList n) t u).map fun l => [l]
  | some (.bare n :: ts) =>
    if String.ofList n = "MEMPUT" then (ts.mapM wordOperand).map fun bs => [.memput bs] else none

/-- The program some text stands for, one line a string. -/
def readProgram (lines : List String) : Option (List HostLine) := (lines.mapM readLine).map List.flatten

end Sys2Proof.Machine
end

