-- ==== Sys2Proof/Tests/Slice0.lean ====
section
/-! SUPPORT. The model's own tests. Expected results come from the spec: rule R129's words, each command rule's
example, and the vectors of 95_test_vectors.md named beside a test. -/

namespace Sys2Proof.Machine.Tests

set_option Elab.async false

/-! ## Well-formedness: an ill-formed term for each check is refused (rule R124) -/

theorem test_wf_bsWr_33 : (Instr.bsWr 33).wellFormed = false := by decide
theorem test_wf_bsRd_33 : (Instr.bsRd 33).wellFormed = false := by decide
theorem test_wf_hufRdcode_8 : (Instr.hufRdcode 0x41 8).wellFormed = false := by decide
theorem test_wf_limits : (Instr.bsWr 32).wellFormed ∧ (Instr.bsRd 32).wellFormed ∧
    (Instr.hufRdcode 0xFF 7).wellFormed := by decide

/-! ## Decoding: a word for each constructor, from rule R125 and the vectors -/

theorem test_decode_nop : decode 0x00000000 = some .nop := by decide
theorem test_decode_ctlReset : decode 0x00000001 = some .ctlReset := by decide
theorem test_decode_ctlClrerr : decode 0x00000002 = some .ctlClrerr := by decide
theorem test_decode_ctrMode : decode 0x00000103 = some (.ctrMode 1) := by decide
theorem test_decode_bsWinit : decode 0x00000010 = some .bsWinit := by decide
theorem test_decode_bsWr : decode 0x00050011 = some (.bsWr 5) := by decide
theorem test_decode_bsFlush : decode 0x00000012 = some .bsFlush := by decide
theorem test_decode_bsRinit : decode 0x00000013 = some .bsRinit := by decide
theorem test_decode_bsRd : decode 0x00100014 = some (.bsRd 16) := by decide
theorem test_decode_ftClr : decode 0x00000020 = some .ftClr := by decide
theorem test_decode_ftAcc : decode 0x00004121 = some (.ftAcc 0x41) := by decide
theorem test_decode_ftLd : decode 0x00004122 = some (.ftLd 0x41) := by decide
theorem test_decode_ftRd : decode 0x00005223 = some (.ftRd 0x52) := by decide
theorem test_decode_ftCum : decode 0x00000024 = some .ftCum := by decide
theorem test_decode_ftCrd : decode 0x00004225 = some (.ftCrd 0x42) := by decide
theorem test_decode_hufBuild : decode 0x00000030 = some .hufBuild := by decide
theorem test_decode_hufLdlen : decode 0x00034131 = some (.hufLdlen 0x41 3) := by decide
theorem test_decode_hufCanon : decode 0x00000032 = some .hufCanon := by decide
theorem test_decode_hufRdlen : decode 0x00005233 = some (.hufRdlen 0x52) := by decide
theorem test_decode_hufRdcode : decode 0x00010734 = some (.hufRdcode 7 1) := by decide
theorem test_decode_hufEnc : decode 0x00004135 = some (.hufEnc 0x41) := by decide
theorem test_decode_hufDec : decode 0x00000036 = some .hufDec := by decide
theorem test_decode_acEinit : decode 0x00000040 = some .acEinit := by decide
theorem test_decode_acEnc : decode 0x00004241 = some (.acEnc 0x42) := by decide
theorem test_decode_acEfin : decode 0x00000042 = some .acEfin := by decide
theorem test_decode_acDinit : decode 0x00000043 = some .acDinit := by decide
theorem test_decode_acDec : decode 0x00000044 = some .acDec := by decide
theorem test_decode_acDfin : decode 0x00000045 = some .acDfin := by decide

/-- Illegal words (V-BS-6, V-CTL-2): IMM out of range, a reserved opcode, a reserved bit, an unused field. -/
theorem test_decode_illegal : [0x00210011, 0x00000004, 0x01000000, 0x00000100, 0x00010021, 0x00084134].all
    (fun w : Word => decode w == none) := by decide

/-- The table numbers a word's bits as the register does (rule R88). -/
theorem test_decodeTableWord : decodeTableWord 32 0x00034131 = some (.hufLdlen 0x41 3) ∧
    decodeTableWord 8 0x24 = some .ftCum := by decide

/-! ## Small states -/

/-- A machine with `cap` bytes of `BSMEM` just after power-on, all bytes 0. -/
def fresh (cap : Nat) : State := State.powerOn { bsCap := cap, eceBase := 0 } []

/-- The table with the given entries, `d` elsewhere. -/
def tableOf {α : Type} (d : α) (es : List (Sym × α)) : Table α := tmake fun x => (es.lookup x).getD d

/-- `fresh cap` with these counts, none of them 0, and the `TOTAL`, `CUM` and `FT_NSYM` of the same counts. -/
def counted (cap : Nat) (es : List (Sym × Word)) : State :=
  let freq := tableOf 0 es
  { fresh cap with
    freq := freq
    total := BitVec.ofNat 64 (es.map fun e => e.2.toNat).sum
    cum := cumTable freq
    ftNsym := BitVec.ofNat 9 es.length }

/-- The ABRACADABRA counts. -/
def abra (cap : Nat) : State := counted cap [(0x41, 5), (0x42, 2), (0x43, 1), (0x44, 1), (0x52, 2)]

/-- The model A = B = C = 1 of V-ARC-1, in mode 1. -/
def abc (cap : Nat) : State := { counted cap [(0x41, 1), (0x42, 1), (0x43, 1)] with mode := .arithmetic }

/-- `abc` in an open encode session, as `AC.EINIT` leaves it. -/
def abcEnc (cap : Nat) : State := { abc cap with acState := .enc }

/-- `abc` in an open decode session over the payload 0x60, as V-ARC-1 step 5 leaves it after `AC.DINIT`. -/
def abcDec : State :=
  { abc 4096 with
    acState := .dec, acCode := 0x60000000, bsRlen := 1, bsRlimit := 8, bsRpos := 8, bsmem := [(0, 0x60)] }

/-- A model of the one symbol 'A' (V-ARC-8), in mode 1. -/
def lone (cap : Nat) : State := { counted cap [(0x41, 100)] with mode := .arithmetic }

/-- The code table A:0, B:10, C:11 of V-HUF-9. -/
def coded (cap : Nat) : State :=
  { fresh cap with
    len := tableOf 0 [(0x41, 1), (0x42, 2), (0x43, 2)]
    code := tableOf 0 [(0x42, 2), (0x43, 3)]
    hufNsym := 3, hufMaxlen := 2, ctValid := true }

/-- The incomplete table A:00, B:01 of V-HUF-10, over `BSMEM[0]` = 0x5C. -/
def codedAB : State :=
  { fresh 4096 with
    len := tableOf 0 [(0x41, 2), (0x42, 2)]
    code := tableOf 0 [(0x42, 1)]
    hufNsym := 2, hufMaxlen := 2, ctValid := true
    bsmem := [(0, 0x5C)], bsRlen := 1, bsRlimit := 8 }

/-- `s` with the word of `i` latched and its step next. -/
def latch (s : State) (i : Instr) : State := { s with pendCmd := encode i, busy := true }

/-- What `f` finds after one command. -/
def after {α : Type} (i : Instr) (s : State) (f : State → α) : Option α :=
  match exec i s with
  | .next t => some (f t)
  | .fault _ => none
  | .refused _ => none

/-- What `f` finds after one step. -/
def afterStep {α : Type} (s : State) (f : State → α) : Option α :=
  match step s with
  | .next t => some (f t)
  | .fault _ => none
  | .refused _ => none

/-- A check of every symbol. -/
theorem every {p : Sym → Prop} {q : Sym → Bool} (hq : ∀ x, q x = true → p x) (h : allSyms.all q = true) (x : Sym) :
    p x := hq x (List.all_eq_true.1 h x (mem_allSyms x))

/-! ## One command each -/

/-- V-CTL-1: the reset state. -/
theorem test_reset_status : State.reset.statusWord = 0x00000200 := by decide +kernel

/-- R353: `NOP` leaves the registers as they are. -/
theorem test_nop : after .nop { fresh 4 with res := 7, resHi := 1, bsWpos := 3, arg0 := 9 }
    (fun t => (t.res, t.resHi, t.bsWpos, t.arg0, t.statusWord)) = some (7, 1, 3, 9, 0x00000200) := by decide +kernel

/-- R354: from an encode session that raised `BUFFER_FULL`, `CTL.RESET` gives `STATUS` = 0x200 and keeps `BSMEM`. -/
theorem test_ctlReset : after .ctlReset { abcEnc 4 with err := true, errCode := .bufferFull, bsmem := [(0, 0x4E)] }
    (fun t => (t.statusWord, t.bsmem, t.acState)) = some (0x00000200, [(0, 0x4E)], .idle) := by decide +kernel

/-- R355: `CTL.CLRERR` keeps the record. -/
theorem test_ctlClrerr : after .ctlClrerr
    { fresh 4 with err := true, errCode := .outOfData, errCmd := 0x00080014, errPos := 16 }
    (fun t => (t.err, t.errCode, t.errCmd, t.errPos)) = some (false, .none, 0x00080014, 16) := by decide +kernel

/-- R356: tag 1 selects the arithmetic coder. -/
theorem test_ctrMode : after (.ctrMode 1) (fresh 4) (·.mode) = some .arithmetic := by decide +kernel

/-- R356: tag 2 raises `UNSUPPORTED_MODE` (code 4). -/
theorem test_ctrMode_unsupported : after (.ctrMode 2) { fresh 4 with pendCmd := 0x00000203 }
    (fun t => (t.mode, t.errCode, t.errCmd, t.errPos)) = some (.huffman, .unsupportedMode, 0x00000203, 0) := by
  decide +kernel

/-- R153. -/
theorem test_bsWinit : after .bsWinit { fresh 4 with bsWpos := 19 } (·.bsWpos) = some 0 := by decide +kernel

/-- V-BS-2: `BS.WR 32` of 0xDEADBEEF. -/
theorem test_bsWr : after (.bsWr 32) { fresh 4 with arg0 := 0xDEADBEEF } (fun t => (t.bsmem, t.bsWpos))
    = some ([(0, 0xDE), (1, 0xAD), (2, 0xBE), (3, 0xEF)], 32) := by decide +kernel

/-- V-BS-4: `BUFFER_FULL` is precise. -/
theorem test_bsWr_full : after (.bsWr 3)
    { fresh 1 with arg0 := 7, bsmem := [(0, 0xA8)], bsWpos := 6, pendCmd := 0x00030011 }
    (fun t => (t.bsmem, t.bsWpos, t.errCode, t.errPos, t.errCmd))
    = some ([(0, 0xA8)], 6, .bufferFull, 6, 0x00030011) := by decide +kernel

/-- R155: with `BS_WPOS` = 13, `BS.FLUSH` sets 16 and `RES` = 2. -/
theorem test_bsFlush : after .bsFlush { fresh 4 with bsWpos := 13, resHi := 1 } (fun t => (t.bsWpos, t.res, t.resHi))
    = some (16, 2, 0) := by decide +kernel

/-- R156: with `BS_RLEN` = 3, `BS.RINIT` gives `BS_RLIMIT` = 24. -/
theorem test_bsRinit : after .bsRinit { fresh 4 with bsRlen := 3, bsRpos := 7 } (fun t => (t.bsRpos, t.bsRlimit))
    = some (0, 24) := by decide +kernel

/-- V-BS-11: a read that crosses a byte. -/
theorem test_bsRd : after (.bsRd 16) { fresh 4 with bsmem := [(0, 0xA3), (1, 0xF0)], bsRlimit := 16 }
    (fun t => (t.res, t.bsRpos)) = some (0xA3F0, 16) := by decide +kernel

/-- V-BS-1 step 10: `OUT_OF_DATA` at the limit. -/
theorem test_bsRd_out : after (.bsRd 1) { fresh 4 with bsRpos := 16, bsRlimit := 16, pendCmd := 0x00010014 }
    (fun t => (t.statusWord, t.errPos, t.errCmd, t.bsRpos)) = some (0x00000212, 16, 0x00010014, 16) := by
  decide +kernel

/-- R200. -/
theorem test_ftClr : after .ftClr { abra 4 with cumValid := false }
    (fun t => (tget t.freq 0x41, t.total, t.ftNsym, t.cumValid)) = some (0, 0, 0, true) := by decide +kernel

/-- R201. -/
theorem test_ftAcc : after (.ftAcc 0x41) (abra 4) (fun t => (tget t.freq 0x41, t.total, t.cumValid))
    = some (6, 12, false) := by decide +kernel

/-- V-FT-3: count overflow. -/
theorem test_ftAcc_overflow : after (.ftAcc 0) { counted 4 [(0, 0xFFFFFFFF)] with cumValid := false }
    (fun t => (tget t.freq 0, t.total, t.statusWord)) = some (0xFFFFFFFF, 0xFFFFFFFF, 0x00000082) := by
  decide +kernel

/-- V-FT-2 step 1. -/
theorem test_ftLd : after (.ftLd 0x41) { abra 4 with arg0 := 2 } (fun t => (tget t.freq 0x41, t.total, t.cumValid))
    = some (2, 8, false) := by decide +kernel

/-- R203. -/
theorem test_ftRd : after (.ftRd 0x52) { abra 4 with resHi := 9 } (fun t => (t.res, t.resHi)) = some (2, 0) := by
  decide +kernel

/-- V-FT-1 step 4. -/
theorem test_ftCum : after .ftCum { abra 4 with cum := tfill 0, ftNsym := 0, cumValid := false }
    (fun t => (t.ftNsym, t.cumValid, [0x40, 0x41, 0x42, 0x43, 0x44, 0x45, 0x51, 0x52, 0xFF].map (tget t.cum)))
    = some (5, true, [0, 5, 7, 8, 9, 9, 9, 11, 11]) := by decide +kernel

/-- V-FT-4: a 64-bit cumulative entry. -/
theorem test_ftCrd : after (.ftCrd 1) (counted 4 [(0, 0xFFFFFFFF), (1, 0xFFFFFFFF)]) (fun t => (t.res, t.resHi))
    = some (0xFFFFFFFE, 1) := by decide +kernel

/-- V-HUF-1: lengths, codes, and `STATUS`. -/
theorem test_hufBuild : after .hufBuild { abra 4 with cumValid := false }
    (fun t => ([0x41, 0x42, 0x43, 0x44, 0x52, 0x45].map fun x => (tget t.len x, tget t.code x),
      t.hufNsym, t.hufMaxlen, t.statusWord))
    = some ([(1, 0), (3, 4), (3, 5), (3, 6), (3, 7), (0, 0)], 5, 3, 0x00000400) := by decide +kernel

/-- V-HUF-5: leaves before internal nodes at equal weight. -/
theorem test_hufBuild_ties : after .hufBuild (counted 4 [(0x41, 1), (0x42, 1), (0x43, 2), (0x44, 2)])
    (fun t => [0x41, 0x42, 0x43, 0x44].map fun x => (tget t.len x, tget t.code x))
    = some [(2, 0), (2, 1), (2, 2), (2, 3)] := by decide +kernel

/-- R254. -/
theorem test_hufLdlen : after (.hufLdlen 0x41 3) (coded 4) (fun t => (tget t.len 0x41, tget t.code 0x42, t.ctValid))
    = some (3, 2, false) := by decide +kernel

/-- V-HUF-9 step 2. -/
theorem test_hufCanon : after .hufCanon { coded 4 with code := tfill 0, hufNsym := 0, hufMaxlen := 0, ctValid := false }
    (fun t => ([0x41, 0x42, 0x43, 0x44].map (tget t.code), t.hufNsym, t.hufMaxlen, t.statusWord))
    = some ([0, 2, 3, 0], 3, 2, 0x00000600) := by decide +kernel

/-- V-HUF-9 step 3: the lengths break the Kraft inequality. -/
theorem test_hufCanon_kraft : after .hufCanon { coded 4 with len := tset (coded 4).len 0x44 1, ctValid := false }
    (fun t => (t.statusWord, t.errPos, tget t.code 0x43)) = some (0x00000222, 0, 3) := by decide +kernel

/-- R255. -/
theorem test_hufRdlen : after (.hufRdlen 0x42) (coded 4) (·.res) = some 2 := by decide +kernel

/-- V-HUF-7: word 1 of a 39-bit code of ones. -/
theorem test_hufRdcode : after (.hufRdcode 1 1) { coded 4 with code := tableOf 0 [(1, 0x7FFFFFFFFF)] } (·.res)
    = some 0x7F := by decide +kernel

/-- R257: the bits 0, 10 of "AB" land MSB first. -/
theorem test_hufEnc : after (.hufEnc 0x42) { coded 4 with bsWpos := 1 } (fun t => (t.bsmem, t.bsWpos))
    = some ([(0, 0x40)], 3) := by decide +kernel

/-- V-HUF-10 step 1. -/
theorem test_hufDec : after .hufDec codedAB (fun t => (t.res, t.bsRpos)) = some (0x42, 2) := by decide +kernel

/-- V-HUF-10 step 3. -/
theorem test_hufDec_corrupt : after .hufDec { codedAB with bsRpos := 4 } (fun t => (t.errCode, t.errPos, t.bsRpos))
    = some (.corruptStream, 4, 4) := by decide +kernel

/-- V-ARC-1 step 1. -/
theorem test_acEinit : after .acEinit { abc 4 with acLow := 7, acHigh := 9, acPend := 3 }
    (fun t => (t.acLow, t.acHigh, t.acPend, t.statusWord)) = some (0, 0xFFFFFFFF, 0, 0x00000B00) := by decide +kernel

/-- S2: a single-symbol session. -/
theorem test_acEinit_single : after .acEinit (lone 4) (fun t => (t.acSingle, t.acSym, t.statusWord))
    = some (true, 0x41, 0x00002B00) := by decide +kernel

/-- V-ARC-1 step 2: an E3 step, no bit written. -/
theorem test_acEnc : after (.acEnc 0x42) (abcEnc 4) (fun t => (t.acLow, t.acHigh, t.acPend, t.bsWpos))
    = some (0x2AAAAAAA, 0xD5555553, 1, 0) := by decide +kernel

/-- V-ARC-6: `BUFFER_FULL` undoes the whole command. -/
theorem test_acEnc_full : after (.acEnc 0x43)
    { abra 1 with
      mode := .arithmetic, acState := .enc, acLow := 0x19F726C0, acHigh := 0xF9C67903, bsWpos := 7
      bsmem := [(0, 0x46)], pendCmd := 0x00004341 }
    (fun t => (t.statusWord, [t.errPos, t.bsWpos, t.acLow, t.acHigh], t.bsmem))
    = some (0x00000BA2, [7, 7, 0x19F726C0, 0xF9C67903], [(0, 0x46)]) := by decide +kernel

/-- V-ARC-1 step 3: the bits 0, 1, 1. -/
theorem test_acEfin : after .acEfin { abcEnc 4 with acLow := 0x2AAAAAAA, acHigh := 0xD5555553, acPend := 1 }
    (fun t => (t.bsmem, t.bsWpos, t.acPend, t.statusWord)) = some ([(0, 0x60)], 3, 0, 0x00000300) := by decide +kernel

/-- V-ARC-11: the pending count cannot pass 2^32 − 1. -/
theorem test_acEfin_overflow : after .acEfin { abcEnc 4 with acPend := 0xFFFFFFFF }
    (fun t => (t.errCode, t.acPend, t.acState)) = some (.countOverflow, 0xFFFFFFFF, .enc) := by decide +kernel

/-- V-ARC-1 step 5. -/
theorem test_acDinit : after .acDinit { abc 4096 with bsmem := [(0, 0x60)], bsRlen := 1, bsRlimit := 8 }
    (fun t => (t.acCode, t.bsRpos, t.statusWord)) = some (0x60000000, 8, 0x00001300) := by decide +kernel

/-- V-ARC-1 step 5. -/
theorem test_acDec : after .acDec abcDec (fun t => (t.res, t.acLow, t.acHigh, t.acCode))
    = some (0x42, 0x2AAAAAAA, 0xD5555553, 0x40000000) := by decide +kernel

/-- R312: an `AC_CODE` outside the bounds raises `CORRUPT_STREAM` (an injected state; 93 I17). -/
theorem test_acDec_corrupt : after .acDec { abcDec with acLow := 0x70000000 } (fun t => (t.errCode, t.errPos))
    = some (.corruptStream, 8) := by decide +kernel

/-- V-ARC-1 step 5. -/
theorem test_acDfin : after .acDfin abcDec (·.statusWord) = some 0x00000300 := by decide +kernel

/-! ## One step each -/

/-- V-CTL-2: an illegal word. -/
theorem test_step_illegal : afterStep { fresh 4 with pendCmd := 0x00210011, busy := true }
    (fun t => (t.statusWord, t.errCmd, t.errPos)) = some (0x00000252, 0x00210011, 0) := by decide +kernel

/-- V-BS-1 step 11: a command discarded under the sticky error. -/
theorem test_step_sticky : afterStep { latch (fresh 4) .bsWinit with err := true, errCode := .outOfData, bsWpos := 5 }
    (fun t => (t.statusWord, t.bsWpos)) = some (0x00000212, 5) := by decide +kernel

/-- R351: an accepted `CMD` write. -/
theorem test_step_cmd : afterStep { fresh 4 with host := { HostSide.empty with script := [.write .word 4 0x24] } }
    (fun t => (t.busy, t.pendCmd)) = some (true, 0x24) := by decide +kernel

/-- V-BS-10: `BS_RLEN` is WARL. -/
theorem test_step_rlen : afterStep
    { fresh 4096 with host := { HostSide.empty with script := [.write .word 0x2C 5000] } }
    (·.bsRlen) = some 4096 := by decide +kernel

/-- R83: the window reads a byte and steps on. -/
theorem test_step_window : afterStep
    { fresh 4 with bsmem := [(3, 0x9C)], memAddr := 3, host := { HostSide.empty with script := [.read .word 0x34] } }
    (fun t => (t.host.seen, t.memAddr)) = some ([0x9C], 4) := by decide +kernel

/-- `withFetchWord` makes the next step run the word. -/
theorem test_withFetchWord : afterStep (State.reset.withFetchWord 32 0x00000103) (fun t => (t.mode, t.busy))
    = some (.arithmetic, false) := by decide +kernel

/-! ## The text of a host program -/

/-- R9 and R128: the number forms of the spec's own programs. -/
theorem test_number_forms : numberValue ['0', 'x', 'D', 'E', 'A', 'D', '_', 'B', 'E', 'E', 'F'] = some 0xDEADBEEF ∧
    numberValue ['0', 'b', '0', '0', '0', '1', '1'] = some 3 ∧ numberValue ['1', '5'] = some 15 ∧
    operandValue (.quoted '\'' ['A']) = some 0x41 := by decide

/-- The model's choice (log 19): a `_` that is alone, first, last or doubled, and a number with no digit, are refused. -/
theorem test_number_refused : [['_'], ['0', 'x', '_'], ['0', 'x'], ['_', '1'], ['1', '_'], ['1', '_', '_', '2'],
    ['0', 'x', '_', '1'], []].all (fun cs => numberValue cs == none) = true := by decide

/-- `R 'A' ;c` is a word, a quoted character and a comment (R128); without the closing quote, or with a quote between
its own kind, the line is refused (the model's choice, log 19). -/
theorem test_quotes : tokens none [] ['R', ' ', '\'', 'A', '\'', ' ', ';', 'c'] =
      some [.bare ['R'], .quoted '\'' ['A']] ∧
    tokens none [] ['R', ' ', '\'', '6', '5'] = none ∧ tokens none [] ['R', ' ', '\'', '\'', '\''] = none := by
  decide

/-! ## Witnesses: for each statement with hypotheses, a concrete case that meets them all together, for each clause
and at the ends of the ranges. The states are small; "answers next" is `after` or `afterStep` giving a value. -/

theorem after_next {α : Type} {i : Instr} {s : State} {f : State → α} {v : α} (h : after i s f = some v) :
    ∃ t, exec i s = .next t ∧ f t = v := by
  unfold after at h
  cases he : exec i s <;> simp_all

theorem afterStep_next {α : Type} {s : State} {f : State → α} {v : α} (h : afterStep s f = some v) :
    ∃ t, step s = .next t ∧ f t = v := by
  unfold afterStep at h
  cases he : step s <;> simp_all

theorem placed_of {s : State} (h : (s.config.wf ∧ s.bsmem.wf ∧ s.bsmem.below s.config.bsCap) ∧
    (s.bsWpos.toNat ≤ s.capBits ∧ s.bsRpos.toNat ≤ s.bsRlimit.toNat ∧ s.bsRlimit.toNat ≤ s.capBits) ∧
    s.bsRlimit.toNat % 8 = 0 ∧ s.bsRlen.toNat ≤ s.config.bsCap) : Placed s :=
  ⟨h.1.1, h.1.2.1, h.1.2.2, h.2.1.1, h.2.1.2.1, h.2.1.2.2, h.2.2.1, h.2.2.2⟩

theorem counts_of {s : State} (hc : s.cum = cumTable s.freq)
    (h : s.total.toNat = (s.freq.toList.map BitVec.toNat).sum ∧ s.ftNsym.toNat = nonzeroCounts s.freq) :
    CountsAgree s :=
  ⟨by rw [h.1, sumCounts_toList], fun _ x => by rw [hc, cumTable_toNat], fun _ => h.2⟩

theorem codes_of {s : State} (hc : s.code = canonCodes s.len) (h : codesFit s.len = true ∧
    s.hufNsym.toNat = nonzeroLengths s.len ∧ s.hufMaxlen.toNat = maxLength s.len) : CodesAgree s :=
  ⟨fun _ => by rw [canon, if_pos h.1, hc], fun _ => h.2.1, fun _ => h.2.2⟩

theorem fresh_placed : Placed (fresh 4) := placed_of (by decide +kernel)
theorem fresh_counts : CountsAgree (fresh 4) := counts_of (by decide +kernel) (by decide +kernel)
theorem abra_counts : CountsAgree (abra 4) := counts_of rfl (by decide +kernel)
theorem abc_counts : CountsAgree (abc 4) := counts_of rfl (by decide +kernel)
theorem lone_counts : CountsAgree (lone 4) := counts_of rfl (by decide +kernel)

/-- The code table of V-HUF-9 as `HUF.CANON` leaves it, over the stream 0, 10 and five 0 bits. -/
def canonical (cap : Nat) : State :=
  { State.withCodes { fresh cap with len := (coded cap).len } (canonCodes (coded cap).len) with
    bsmem := [(0, 0x40)], bsRlimit := 8 }

theorem canonical_codes : CodesAgree (canonical 4) := codes_of rfl (by decide +kernel)
theorem canonical_placed : Placed (canonical 4) := placed_of (by decide +kernel)

/-- The host's script with one access, in front of `s`. -/
def scripted (s : State) (op : HostOp) : State := { s with host := { s.host with script := [op] } }

/-- The step of `latch s i` runs `i`. -/
theorem latch_runs (s : State) (i : Instr) (hw : s.host.wait = 0) (hi : decode (encode i) = some i) :
    Runs (latch s i) i := ⟨rfl, .inl hw, hi⟩

/-! ### Encoding and engine -/

theorem witness_DecodeOfEncodeIsTheCommand : (Instr.bsWr 32).wellFormed = true ∧
    (Instr.hufRdcode 0xFF 7).wellFormed = true ∧ (Instr.hufLdlen 0xFF 0xFF).wellFormed = true := by decide

theorem witness_MatchAndMaskSelectTheCommand : decode 0x00200014 = some (.bsRd 32) ∧
    opcodeFormat 0x31 = some ⟨true, some 255⟩ ∧ opcodeFormat 0x44 = some ⟨false, none⟩ := by decide

theorem witness_LegalWordsAreThoseOfTheOpcodeMap :
    (fresh 4).err = false ∧ legal { fresh 4 with pendCmd := 0x00210011 }.pendCmd = false ∧
    opcodeFormat (fieldOpc 0x00070034).toNat = some ⟨true, some 7⟩ := by decide +kernel

theorem witness_StepRunsTheLatchedCommand :
    (Runs (latch (fresh 4) .bsWinit) .bsWinit ∧ (fresh 4).err = false ∧
      ∃ t, exec .bsWinit (latch (fresh 4) .bsWinit) = .next t) ∧
    Runs (latch { fresh 4 with err := true } .ctlClrerr) .ctlClrerr :=
  ⟨⟨latch_runs _ _ rfl (by decide), rfl, _, rfl⟩, latch_runs _ _ rfl (by decide)⟩

theorem witness_StickyErrorDiscardsCommands :
    (∃ s : State, s.busy = true ∧ (s.host.wait = 0 ∨ s.host.script = []) ∧ s.err = true ∧
      decode s.pendCmd ≠ some .ctlReset ∧ decode s.pendCmd ≠ some .ctlClrerr ∧
      ∃ t, engineStep s = .next t ∧ t.err = true) ∧
    Runs (latch { fresh 4 with err := true } .ctlReset) .ctlReset :=
  ⟨⟨latch { fresh 4 with err := true } .bsWinit, rfl, .inl rfl, rfl, by decide +kernel, by decide +kernel, _, rfl,
    rfl⟩, latch_runs _ _ rfl (by decide)⟩

theorem witness_RaisedErrorsArePrecise : (fresh 4).err = false ∧ ∃ t, exec (.bsRd 1) (fresh 4) = .next t ∧
    t.err = true := ⟨rfl, after_next (by decide +kernel)⟩

theorem witness_ErrorRecordWriters :
    (∃ t, step { fresh 4 with pendCmd := 0x00210011, busy := true } = .next t ∧ t.errCmd ≠ 0) ∧
    ∃ t, step (latch { fresh 4 with errCmd := 7, errPos := 8 } .ctlReset) = .next t ∧ t.errCmd ≠ 7 ∧ t.errPos ≠ 8 := by
  obtain ⟨t, h, e⟩ := afterStep_next (s := { fresh 4 with pendCmd := 0x00210011, busy := true })
    (f := State.errCmd) (v := 0x00210011) (by decide +kernel)
  obtain ⟨u, h', e'⟩ := afterStep_next (s := latch { fresh 4 with errCmd := 7, errPos := 8 } .ctlReset)
    (f := fun t => (t.errCmd, t.errPos)) (v := (0, 0)) (by decide +kernel)
  simp only [Prod.mk.injEq] at e'
  exact ⟨⟨t, h, by rw [e]; decide⟩, u, h', by rw [e'.1]; decide, by rw [e'.2]; decide⟩

theorem witness_CommandWritesOnlyItsState : ∃ t, exec (.ftAcc 0x41) (abra 4) = .next t ∧ t.total = 12 :=
  after_next (by decide +kernel)

theorem witness_WritersStoreOnlyAtTheCursor_reader : storesBits (.bsRd 8) = false ∧
    ∃ t, exec (.bsRd 8) { fresh 4 with bsmem := [(0, 0xA3)], bsRlimit := 8 } = .next t ∧ t.res = 0xA3 :=
  ⟨rfl, after_next (by decide +kernel)⟩

theorem witness_WritersStoreOnlyAtTheCursor_writer : Placed { fresh 4 with arg0 := 5, bsWpos := 29 } ∧
    storesBits (.bsWr 3) = true ∧
    ∃ t, exec (.bsWr 3) { fresh 4 with arg0 := 5, bsWpos := 29 } = .next t ∧ t.err = false :=
  ⟨placed_of (by decide +kernel), rfl, after_next (by decide +kernel)⟩

theorem witness_FlagsChangeOnlyByTheirWriters_busy :
    afterStep (scripted (fresh 4) (.write .word 4 0x24)) State.busy = some true ∧
    afterStep (latch (fresh 4) .nop) State.busy = some false := by decide +kernel

theorem witness_FlagsChangeOnlyByTheirWriters_err :
    afterStep (latch { fresh 4 with err := true, errCode := .outOfData } .ctlClrerr) (fun t => (t.err, t.errCode))
      = some (false, .none) ∧
    afterStep (latch (fresh 4) (.bsRd 1)) (fun t => (t.err, t.errCode)) = some (true, .outOfData) := by decide +kernel

theorem witness_FlagsChangeOnlyByTheirWriters_lost :
    afterStep (scripted { latch (fresh 4) .nop with host := { HostSide.empty with wait := 1 } } (.write .word 8 1))
      State.lost = some true ∧
    afterStep (scripted { fresh 4 with lost := true } (.write .word 0x14 4)) State.lost = some false := by
  decide +kernel

theorem witness_FlagsChangeOnlyByTheirWriters_mode :
    afterStep (latch (fresh 4) (.ctrMode 1)) State.mode = some .arithmetic ∧ (fresh 4).mode = .huffman := by
  decide +kernel

theorem witness_FlagsChangeOnlyByTheirWriters_tables :
    afterStep (latch (fresh 4) (.ftAcc 7)) State.cumValid = some false ∧ (fresh 4).cumValid = true ∧
    afterStep (latch (coded 4) (.hufLdlen 7 1)) State.ctValid = some false ∧ (coded 4).ctValid = true := by
  decide +kernel

theorem witness_FlagsChangeOnlyByTheirWriters_session :
    afterStep (latch (lone 4) .acEinit) (fun t => (t.acState, t.acSingle)) = some (.enc, true) ∧
    (lone 4).acState = .idle ∧ (lone 4).acSingle = false := by decide +kernel

theorem witness_SessionLocksTheCounts : (abcEnc 4).acState ≠ .idle ∧ (abcEnc 4).cumValid = true ∧
    ∃ t, step (latch (abcEnc 4) (.ftRd 0x41)) = .next t ∧ t.res = 1 :=
  ⟨by decide, rfl, afterStep_next (by decide +kernel)⟩

/-! ### The host's accesses -/

theorem witness_CmdWriteLatchesOrIsLost :
    (HostWrites (scripted (fresh 4) (.write .word 4 0x24)) 0x04 0x24 ∧
      (scripted (fresh 4) (.write .word 4 0x24)).busy = false) ∧
    (HostWrites (scripted { latch (fresh 4) .nop with host := { HostSide.empty with wait := 1 } }
      (.write .word 4 0x24)) 0x04 0x24 ∧ (latch (fresh 4) .nop).busy = true) :=
  ⟨⟨⟨by decide +kernel, by decide, by decide, [], rfl⟩, rfl⟩,
    ⟨⟨by decide +kernel, by decide, by decide, [], rfl⟩, rfl⟩⟩

theorem witness_AccessesWhileBusy : (latch (fresh 4) .nop).busy = true ∧
    0x04 ∈ [0x04, 0x08, 0x14, 0x2C, 0x30, 0x34] ∧ 0x34 ∈ [0x04, 0x08, 0x2C, 0x30, 0x34] ∧
    0x00 ∉ [0x04, 0x08, 0x14, 0x2C, 0x30, 0x34] ∧ 0xFC ∉ [0x04, 0x08, 0x14, 0x2C, 0x30, 0x34] := by decide

theorem witness_WritesWhileIdle : (fresh 4).busy = false ∧ (fresh 1).config.wf ∧ (fresh (2 ^ 28)).config.wf ∧
    Memory.wf [(0, 1), (3, 2)] ∧ 0xFC ∉ [0x04, 0x08, 0x14, 0x2C, 0x30, 0x34] := by decide

theorem witness_ReadsWhileIdle : (fresh 4).busy = false ∧ (fresh 4).config.wf ∧
    { fresh 4 with memAddr := 3 }.memAddr.toNat < (fresh 4).config.bsCap ∧
    (fresh 4).config.bsCap ≤ { fresh 4 with memAddr := 4 }.memAddr.toNat := by decide +kernel

theorem witness_StatusFields : (abc 4).statusWord.getLsbD 8 = true ∧ (fresh 4).statusWord.getLsbD 14 = false := by
  decide +kernel

theorem witness_NarrowOrMisalignedAccessIsRefused :
    (scripted (fresh 4) (.write .byte 0 7)).host.script = .write .byte ((fresh 4).config.eceBase + 0) 7 :: [] ∧
    (scripted (fresh 4) (.read .word 255)).host.script = .read .word ((fresh 4).config.eceBase + 255) :: [] ∧
    (fresh 4).busy = false := by decide +kernel

theorem fresh_inv : Inv (fresh 4) :=
  ⟨fresh_placed, fresh_counts, ⟨by simp [fresh, State.powerOn], by simp [fresh, State.powerOn],
    by simp [fresh, State.powerOn]⟩, by simp [ErrorLatch, fresh, State.powerOn], by
    simp [SessionOk, fresh, State.powerOn]⟩

theorem latch_inv {s : State} (h : Inv s) (i : Instr) : Inv (latch s i) :=
  ⟨⟨h.placed.config, h.placed.memory, h.placed.below, h.placed.wpos, h.placed.rpos, h.placed.rlimit,
      h.placed.rlimitBytes, h.placed.rlen⟩, ⟨h.counts.total, h.counts.cum, h.counts.nsym⟩,
    ⟨h.codes.codes, h.codes.nsym, h.codes.maxlen⟩, h.latch,
    fun hs => let o := h.session hs; ⟨o.mode, o.cumValid, o.totalLow, o.totalHigh, o.single, o.symbol, o.headroom,
      o.code⟩⟩

theorem witness_AcceptedCommandsFinish : Inv (latch (fresh 4) .nop) ∧ (latch (fresh 4) .nop).busy = true :=
  ⟨latch_inv fresh_inv .nop, rfl⟩

theorem witness_PowerOnState : Config.wf { bsCap := 1, eceBase := 64 } ∧ Memory.wf [(0, 255)] ∧
    Memory.below [(0, 255)] 1 ∧ Config.wf { bsCap := 2 ^ 28, eceBase := 0 } := by decide

theorem witness_ControlCommandResults : (fresh 4).acState = .idle ∧ 1 < (2 : Byte).toNat ∧ 1 < (255 : Byte).toNat ∧
    (abcEnc 4).acState ≠ .idle := by decide

/-! ### The bit stream -/

theorem witness_BsWrAppendsThePattern : Placed (fresh 4) ∧ Placed { fresh 4 with bsWpos := 32 } ∧
    (fresh 4).bsWpos.toNat + 32 ≤ (fresh 4).capBits ∧ (fresh 4).capBits < { fresh 4 with bsWpos := 32 }.bsWpos.toNat + 1 ∧
    { fresh 4 with bsWpos := 32 }.bsWpos.toNat + 0 ≤ (fresh 4).capBits :=
  ⟨fresh_placed, placed_of (by decide +kernel), by decide +kernel, by decide +kernel, by decide +kernel⟩

theorem witness_BsCursorCommandResults : Placed { fresh 4 with bsWpos := 32, bsRlen := 4 } :=
  placed_of (by decide +kernel)

theorem witness_BsRdTakesTheNextBits : Placed { fresh 4 with bsmem := [(0, 0xA3)], bsRlimit := 32 } ∧
    (fresh 4).bsRpos.toNat + 32 ≤ { fresh 4 with bsRlimit := 32 }.bsRlimit.toNat ∧
    Placed { fresh 4 with bsRpos := 32, bsRlimit := 32 } ∧ (32 : Word).toNat < (32 : Word).toNat + 1 :=
  ⟨placed_of (by decide +kernel), by decide +kernel, placed_of (by decide +kernel), by decide⟩

theorem witness_BitStreamRoundTrip : Placed (fresh 4) ∧
    (∀ p ∈ [((5 : Word), 0), (0xFFFFFFFF, 32)], p.2 ≤ 32) ∧
    ([((5 : Word), 0), (0xFFFFFFFF, 32)].map Prod.snd).sum ≤ (fresh 4).capBits :=
  ⟨fresh_placed, by decide, by decide +kernel⟩

theorem witness_CommandsKeepTheTailClean : Placed { fresh 4 with bsWpos := 3, bsmem := [(0, 0xA0)] } ∧
    CleanTail { fresh 4 with bsWpos := 3, bsmem := [(0, 0xA0)] } ∧
    ∃ t, exec (.bsWr 2) { fresh 4 with bsWpos := 3, bsmem := [(0, 0xA0)] } = .next t ∧ t.bsWpos = 5 := by
  refine ⟨placed_of (by decide +kernel), fun q _ hq hp => ?_, after_next (by decide +kernel)⟩
  have h3 : 3 ≤ q := hp
  have h8 : q / 8 = 0 := hq
  obtain ⟨d, rfl⟩ : ∃ d, q = 3 + d := ⟨q - 3, by omega⟩
  have hd : d < 5 := by omega
  exact (by decide +kernel : ∀ d < 5, Memory.bit [(0, 0xA0)] (3 + d) = false) d hd

/-! ### Counts -/

theorem witness_CountCommandResults_acc : (abra 4).acState = .idle ∧ CountsAgree (abra 4) ∧
    (tget (abra 4).freq 0x41).toNat ≠ 2 ^ 32 - 1 ∧
    (tget (counted 4 [(0, 0xFFFFFFFE)]).freq 0).toNat ≠ 2 ^ 32 - 1 ∧ CountsAgree (counted 4 [(0, 0xFFFFFFFE)]) :=
  ⟨rfl, abra_counts, by decide +kernel, by decide +kernel, counts_of rfl (by decide +kernel)⟩

theorem witness_CountCommandResults_raise : (counted 4 [(0, 0xFFFFFFFF)]).acState = .idle ∧
    (tget (counted 4 [(0, 0xFFFFFFFF)]).freq 0).toNat = 2 ^ 32 - 1 ∧ (abcEnc 4).acState ≠ .idle := by decide +kernel

theorem witness_FtCumStoresRunningSums : CountsAgree (abra 4) ∧ CountsAgree (abcEnc 4) ∧ SessionOk (abcEnc 4) ∧
    (abcEnc 4).acState ≠ .idle := by
  refine ⟨abra_counts, counts_of rfl (by decide +kernel), fun _ => ?_, by decide⟩
  exact ⟨rfl, rfl, by decide +kernel, by decide +kernel, by decide +kernel, by decide +kernel,
    fun _ => .inl (by decide +kernel), by decide +kernel⟩

theorem witness_CountReadResults : (fresh 4).cumValid = true ∧ { fresh 4 with cumValid := false }.cumValid = false := by
  decide +kernel

theorem witness_CountingIsOrderFree : (fresh 4).acState = .idle ∧
    (∀ x, List.count x [(0x41 : Sym), 0x42, 0x41] < 2 ^ 32) ∧
    [(0x42 : Sym), 0x41, 0x41].Perm [0x41, 0x42, 0x41] :=
  ⟨rfl, fun x => Nat.lt_of_le_of_lt List.count_le_length (by decide), by decide⟩

theorem witness_RunningSumsFollowTheCounts : CountsAgree (abra 4) ∧ (abra 4).cumValid = true ∧
    (1 : Sym).toNat = (0 : Sym).toNat + 1 ∧ (255 : Sym).toNat = (254 : Sym).toNat + 1 ∧
    (0 : Sym).toNat ≤ (255 : Sym).toNat := ⟨abra_counts, rfl, by decide⟩

theorem witness_IntervalsPartitionTheTotal : CountsAgree (abra 4) ∧ (abra 4).cumValid = true ∧
    (0 : Int) < (abra 4).totalCount ∧ (10 : Int) < (abra 4).totalCount ∧
    (abra 4).cumLow 0x52 ≤ 10 ∧ 10 < (abra 4).cumHigh 0x52 :=
  ⟨abra_counts, rfl, by decide +kernel, by decide +kernel, by decide +kernel, by decide +kernel⟩

/-! ### Gates -/

theorem witness_FailedGatesRaise_mode : isHufCommand .hufBuild ∧ isHufCommand .hufDec ∧ (abc 4).mode ≠ .huffman ∧
    isAcCommand .acEinit ∧ isAcCommand .acDfin ∧ (fresh 4).mode ≠ .arithmetic :=
  ⟨by simp [isHufCommand], by simp [isHufCommand], by decide, by simp [isAcCommand], by simp [isAcCommand], by decide⟩

theorem witness_FailedGatesRaise_state : ((fresh 4).mode = .huffman ∧ (fresh 4).ctValid = false) ∧
    ((abcEnc 4).mode = .arithmetic ∧ (abcEnc 4).acState ≠ .idle ∧ (abcEnc 4).acState ≠ .dec) ∧
    ((abc 4).mode = .arithmetic ∧ (abc 4).acState ≠ .enc) ∧
    ((fresh 4).acState = .idle ∧ 1 < (2 : Byte).toNat) ∧ { fresh 4 with cumValid := false }.cumValid = false := by
  decide +kernel

theorem witness_FailedGatesRaise_model :
    ({ abc 4 with cumValid := false }.mode = .arithmetic ∧ { abc 4 with cumValid := false }.acState = .idle) ∧
    ({ fresh 4 with mode := .arithmetic }.cumValid = true ∧ { fresh 4 with mode := .arithmetic }.total = 0) ∧
    ((counted 4 [(0, 0x40000001)]).cumValid = true ∧ quarter < (counted 4 [(0, 0x40000001)]).total.toNat) := by
  decide +kernel

/-! ### Huffman -/

theorem witness_CodeTableAccessResults : (coded 4).mode = .huffman ∧ (coded 4).ctValid = true ∧ 7 ≤ 7 := by decide

theorem witness_HufBuildStoresTheCanonicalTable : (fresh 4).mode = .huffman ∧
    ∀ y, tget (counted 4 [(0x41, 100)]).freq y ≠ 0 ↔ y = 0x41 :=
  ⟨rfl, every (q := fun y => decide (tget (counted 4 [(0x41, 100)]).freq y ≠ 0 ↔ y = 0x41))
    (fun y h => of_decide_eq_true h) (by decide +kernel)⟩

theorem witness_BuiltLengthsMeetKraft : 2 ≤ nonzeroCounts (tableOf 0 [(0, 1), (255, 0xFFFFFFFF)]) ∧
    nonzeroCounts (tableOf 0 [(0x41, 100)]) = 1 ∧ nonzeroCounts (tfill 0) = 0 ∧
    ((0x41 : Sym), 1) ∈ symbolDepths (tableOf 0 [(0x41, 100)]) := by decide +kernel

theorem witness_UniformCountsGiveByteCodes : (fresh 4).mode = .huffman ∧ (0xFFFFFFFF : Word) ≠ 0 ∧
    ∀ x, tget { fresh 4 with freq := tfill 0xFFFFFFFF }.freq x = 0xFFFFFFFF :=
  ⟨rfl, by decide, fun x => tget_tfill _ x⟩

theorem witness_CanonicalCodesArePrefixFree : canon (canonical 4).len = some (canonical 4).code ∧
    tget (canonical 4).len 0x41 ≠ 0 ∧ tget (canonical 4).len 0x42 ≠ 0 ∧ tget (canonical 4).len 0x44 = 0 :=
  ⟨canonical_codes.codes rfl, by decide +kernel, by decide +kernel, by decide +kernel⟩

theorem witness_HufCanonRebuildsTheTable_codes : (canonical 4).mode = .huffman ∧
    canon (canonical 4).len = some (canonical 4).code := ⟨rfl, canonical_codes.codes rfl⟩

theorem witness_HufCanonRebuildsTheTable_kraft : { fresh 4 with len := tfill 7 }.mode = .huffman ∧
    2 ^ 255 < kraftSum (tfill (7 : Byte)) ∧ kraftSum (tfill (8 : Byte)) = 2 ^ 255 := by
  rw [kraftSum_toList, kraftSum_toList]
  decide +kernel

theorem witness_HufCanonRebuildsTheTable_again : ∃ t, exec .hufBuild (fresh 4) = .next t ∧
    (t.err = false ∧ t.ctValid = true) := by
  obtain ⟨t, h, e⟩ := after_next (i := .hufBuild) (s := fresh 4) (f := fun t => (t.err, t.ctValid))
    (v := (false, true)) (by decide +kernel)
  exact ⟨t, h, by simpa using e⟩

theorem witness_HufEncAppendsTheCode : Placed (canonical 4) ∧ (canonical 4).mode = .huffman ∧
    (canonical 4).ctValid = true ∧ tget (canonical 4).len 0x42 ≠ 0 ∧ tget (canonical 4).len 0x44 = 0 ∧
    Placed { canonical 4 with bsWpos := 30 } ∧ Placed { canonical 4 with bsWpos := 31 } ∧
    30 + (tget (canonical 4).len 0x42).toNat ≤ (canonical 4).capBits ∧
    (canonical 4).capBits < 31 + (tget (canonical 4).len 0x42).toNat :=
  ⟨canonical_placed, rfl, rfl, by decide +kernel, by decide +kernel, placed_of (by decide +kernel),
    placed_of (by decide +kernel), by decide +kernel, by decide +kernel⟩

theorem witness_HufDecFindsTheSymbol_found : Placed (canonical 4) ∧ CodesAgree (canonical 4) ∧
    (canonical 4).mode = .huffman ∧ (canonical 4).ctValid = true ∧ tget (canonical 4).len 0x41 ≠ 0 ∧
    (canonical 4).bsRpos.toNat + (tget (canonical 4).len 0x41).toNat ≤ (canonical 4).bsRlimit.toNat ∧
    streamValue (canonical 4).bsmem (canonical 4).bsRpos.toNat (tget (canonical 4).len 0x41).toNat
      = (tget (canonical 4).code 0x41).toNat :=
  ⟨canonical_placed, canonical_codes, rfl, rfl, by decide +kernel, by decide +kernel, by decide +kernel⟩

/-- The incomplete table A:00, B:01 over the one byte 0x80 (`CORRUPT_STREAM` at 0, `OUT_OF_DATA` at 7). -/
def gappy (rpos : Word) : State :=
  { State.withCodes { fresh 4 with len := codedAB.len } (canonCodes codedAB.len) with
    bsmem := [(0, 0x80)], bsRlimit := 8, bsRpos := rpos }

theorem witness_HufDecFindsTheSymbol_none (x : Sym) : (Placed (gappy 0) ∧ Placed (gappy 8)) ∧
    (CodesAgree (gappy 0) ∧ CodesAgree (gappy 8)) ∧
    (tget (gappy 0).len x ≠ 0 → streamValue (gappy 0).bsmem 0 (tget (gappy 0).len x).toNat
      ≠ (tget (gappy 0).code x).toNat) ∧
    (gappy 0).bsRpos.toNat + maxLength (gappy 0).len ≤ (gappy 0).bsRlimit.toNat ∧
    (tget (gappy 8).len x ≠ 0 → ¬ 8 + (tget (gappy 8).len x).toNat ≤ (gappy 8).bsRlimit.toNat) ∧
    (gappy 8).bsRlimit.toNat < (gappy 8).bsRpos.toNat + maxLength (gappy 8).len := by
  refine ⟨⟨placed_of (by decide +kernel), placed_of (by decide +kernel)⟩,
    ⟨codes_of rfl (by decide +kernel), codes_of rfl (by decide +kernel)⟩, ?_, by decide +kernel, ?_, by decide +kernel⟩
  · exact every (q := fun x => decide (tget (gappy 0).len x ≠ 0 → streamValue (gappy 0).bsmem 0
      (tget (gappy 0).len x).toNat ≠ (tget (gappy 0).code x).toNat)) (fun x h => of_decide_eq_true h)
      (by decide +kernel) x
  · exact every (q := fun x => decide (tget (gappy 8).len x ≠ 0 → ¬ 8 + (tget (gappy 8).len x).toNat ≤
      (gappy 8).bsRlimit.toNat)) (fun x h => of_decide_eq_true h) (by decide +kernel) x

theorem witness_HuffmanRoundTrip : Placed (canonical 4) ∧ CodesAgree (canonical 4) ∧
    (canonical 4).mode = .huffman ∧ (canonical 4).ctValid = true ∧
    (∀ x ∈ [(0x41 : Sym), 0x42, 0x43], tget (canonical 4).len x ≠ 0) ∧
    ([(0x41 : Sym), 0x42, 0x43].map fun x => (tget (canonical 4).len x).toNat).sum ≤ (canonical 4).capBits :=
  ⟨canonical_placed, canonical_codes, rfl, rfl, by decide +kernel, by decide +kernel⟩

/-! ### Arithmetic coding -/

theorem witness_AcEinitOpensASession : (CountsAgree (lone 4) ∧ (lone 4).ftNsym.toNat = 1) ∧
    (CountsAgree (abc 4) ∧ (abc 4).mode = .arithmetic ∧ (abc 4).acState = .idle ∧ (abc 4).cumValid = true ∧
      1 ≤ (abc 4).total.toNat ∧ (abc 4).total.toNat ≤ quarter ∧ (abc 4).ftNsym.toNat ≠ 1) ∧
    ((counted 4 [(0, 1)]).total.toNat = 1 ∧ (counted 4 [(0, 0x3FFFFFFF), (255, 1)]).total.toNat = quarter) :=
  ⟨⟨lone_counts, by decide +kernel⟩, ⟨abc_counts, rfl, rfl, rfl, by decide +kernel, by decide +kernel,
    by decide +kernel⟩, by decide +kernel⟩

theorem witness_AcDinitLoadsTheCode : (Placed (lone 4) ∧ CountsAgree (lone 4) ∧ (lone 4).mode = .arithmetic ∧
      (lone 4).acState = .idle ∧ (lone 4).ftNsym.toNat = 1 ∧ (lone 4).total.toNat ≤ quarter) ∧
    Placed (abc 4) ∧ CountsAgree (abc 4) ∧ 1 ≤ (abc 4).total.toNat ∧ (abc 4).ftNsym.toNat ≠ 1 :=
  ⟨⟨placed_of (by decide +kernel), lone_counts, rfl, rfl, by decide +kernel, by decide +kernel⟩,
    placed_of (by decide +kernel), abc_counts, by decide +kernel, by decide +kernel⟩

theorem witness_NarrowKeepsAnInnerInterval : CountsAgree (abc 4) ∧ (abc 4).cumValid = true ∧
    (abc 4).present 0x42 = true ∧ (abc 4).totalCount ≤ (abc 4).acRange ∧
    { abc 4 with acHigh := 2 }.totalCount = { abc 4 with acHigh := 2 }.acRange :=
  ⟨abc_counts, rfl, by decide +kernel, by decide +kernel, by decide +kernel⟩

theorem witness_RenormalizationRestoresHeadroom : (5 : Word).toNat ≤ (5 : Word).toNat ∧
    (renormPath arcPrecision 5 5).length = 32 ∧ [RenormCase.e1] <+: renormPath arcPrecision 5 5 := by decide +kernel

theorem witness_ThresholdsAreEquivalent : (0x40000000 : Word).toNat ≤ (0xBFFFFFFF : Word).toNat ∧
    renormCase 0x40000000 0xBFFFFFFF = some .e3 ∧ renormCase 0 0x7FFFFFFF = some .e1 ∧
    renormCase 0x80000000 0xFFFFFFFF = some .e2 ∧ renormCase 0 0xFFFFFFFF = none := by decide +kernel

theorem witness_AcEncFollowsThePath_fits : Placed (abcEnc 4) ∧ (abcEnc 4).mode = .arithmetic ∧
    (abcEnc 4).acState = .enc ∧ (abcEnc 4).present 0x41 = true ∧ (abcEnc 4).acSingle = false ∧
    (abcEnc 4).total ≠ 0 ∧
    pathError (abcEnc 4).capBits ((abcEnc 4).symbolPath 0x41) (abcEnc 4).acPend.toNat (abcEnc 4).bsWpos.toNat = none ∧
    (abcEnc 4).symbolPath 0x41 ≠ [] :=
  ⟨placed_of (by decide +kernel), rfl, rfl, by decide +kernel, rfl, by decide +kernel, by decide +kernel,
    by decide +kernel⟩

theorem witness_AcEncFollowsThePath_raises : Placed { abcEnc 4 with bsWpos := 32 } ∧
    pathError 32 ({ abcEnc 4 with bsWpos := 32 }.symbolPath 0x41) 0 32 = some .bufferFull ∧
    pathError 32 ((abcEnc 4).symbolPath 0x42) (2 ^ 32 - 1) 0 = some .countOverflow :=
  ⟨placed_of (by decide +kernel), by decide +kernel, by decide +kernel⟩

theorem witness_AcEncFollowsThePath_single : ({ lone 4 with acState := .enc, acSingle := true }.mode = .arithmetic ∧
    { lone 4 with acState := .enc, acSingle := true }.present 0x41 = true) ∧ (abcEnc 4).present 0x44 = false := by
  decide +kernel

theorem witness_AcFinCommandsCloseTheSession : Placed { abcEnc 4 with bsWpos := 29, acPend := 1 } ∧
    Placed { abcEnc 4 with bsWpos := 30, acPend := 1 } ∧ 29 + 2 + 1 ≤ (abcEnc 4).capBits ∧
    (abcEnc 4).capBits < 30 + 2 + 1 ∧ (0xFFFFFFFE : Word).toNat ≠ 2 ^ 32 - 1 ∧
    { abcEnc 4 with acPend := 0xFFFFFFFF }.acPend.toNat = 2 ^ 32 - 1 ∧
    (abcEnc 4).mode = .arithmetic ∧ abcDec.acState = .dec ∧ { lone 4 with acSingle := true }.acSingle = true :=
  ⟨placed_of (by decide +kernel), placed_of (by decide +kernel), by decide +kernel, by decide +kernel, by decide,
    by decide, rfl, rfl, rfl⟩

theorem abcDec_open : OpenSession abcDec :=
  ⟨rfl, rfl, by decide +kernel, by decide +kernel, by decide +kernel, by decide +kernel,
    fun _ => .inl (by decide +kernel), by decide +kernel⟩

theorem abcDec_placed : Placed abcDec := placed_of (by decide +kernel)
theorem abcDec_counts : CountsAgree abcDec := counts_of rfl (by decide +kernel)

theorem witness_AcDecFindsTheSymbol : (Placed abcDec ∧ CountsAgree abcDec ∧ OpenSession abcDec ∧
      abcDec.acState = .dec ∧ abcDec.acSingle = false) ∧
    { abcDec with acSingle := true }.acSingle = true ∧
    (0 < { abcDec with acLow := 0x70000000 }.acRange ∧ { abcDec with acLow := 0x70000000 }.decodedValue < 0) ∧
    (0 < { abcDec with acHigh := 0x5FFFFFFF }.acRange ∧
      { abcDec with acHigh := 0x5FFFFFFF }.totalCount ≤ { abcDec with acHigh := 0x5FFFFFFF }.decodedValue) :=
  ⟨⟨abcDec_placed, abcDec_counts, abcDec_open, rfl, rfl⟩, rfl, by decide +kernel, by decide +kernel⟩

theorem witness_DecoderTakesTheEncodersPath : Placed (abcEnc 4096) ∧ Placed abcDec ∧
    (abcEnc 4096).freq = abcDec.freq ∧ (abcEnc 4096).cum = abcDec.cum ∧ (abcEnc 4096).total = abcDec.total ∧
    (abcEnc 4096).acLow = abcDec.acLow ∧ (abcEnc 4096).acHigh = abcDec.acHigh ∧
    after (.acEnc 0x42) (abcEnc 4096) State.err = some false ∧
    after .acDec abcDec (fun t => (t.err, t.res)) = some (false, (0x42 : Sym).setWidth 32) :=
  ⟨placed_of (by decide +kernel), abcDec_placed, rfl, rfl, rfl, rfl, rfl, by decide +kernel, by decide +kernel⟩

/-- The encoder's run of "B" under the model of V-ARC-1 ends without an error and gives one byte. -/
def encodesB (s : State) : Bool :=
  match runCommands (.bsWinit :: .acEinit :: ([(0x42 : Sym)].map .acEnc ++ [.acEfin, .bsFlush])) s with
  | .next t => decide (t.err = false ∧ t.res = 1)
  | .fault _ => false
  | .refused _ => false

theorem witness_ArithmeticRoundTrip : (Placed (abc 4) ∧ CountsAgree (abc 4) ∧ encodesB (abc 4) = true) ∧
    (Placed (abc 1) ∧ CountsAgree (abc 1) ∧ encodesB (abc 1) = true) ∧ (abc 1).freq = (abc 4).freq ∧
    ∀ x ∈ [(0x42 : Sym)], (abc 4).present x = true :=
  ⟨⟨placed_of (by decide +kernel), abc_counts, by decide +kernel⟩,
    ⟨placed_of (by decide +kernel), counts_of rfl (by decide +kernel), by decide +kernel⟩, rfl, by decide +kernel⟩

/-! ### Invariants -/

theorem witness_StepKeepsEverythingPlaced : Placed (latch { fresh 4 with arg0 := 5 } (.bsWr 3)) ∧
    ∃ t, step (latch { fresh 4 with arg0 := 5 } (.bsWr 3)) = .next t ∧ t.bsWpos = 3 :=
  ⟨placed_of (by decide +kernel), afterStep_next (by decide +kernel)⟩

theorem witness_StepKeepsTheCountsAgreed : CountsAgree (latch (abra 4) (.ftAcc 0x41)) ∧
    ∃ t, step (latch (abra 4) (.ftAcc 0x41)) = .next t ∧ t.total = 12 :=
  ⟨counts_of rfl (by decide +kernel), afterStep_next (by decide +kernel)⟩

theorem witness_StepKeepsTheCodesAgreed : CodesAgree (latch (canonical 4) .hufCanon) ∧
    ∃ t, step (latch (canonical 4) .hufCanon) = .next t ∧ t.ctValid = true :=
  ⟨codes_of rfl (by decide +kernel), afterStep_next (by decide +kernel)⟩

theorem witness_StepKeepsTheErrorLatch : ErrorLatch (latch (fresh 4) (.bsRd 1)) ∧
    ∃ t, step (latch (fresh 4) (.bsRd 1)) = .next t ∧ t.errCode = .outOfData :=
  ⟨by simp [ErrorLatch, latch, fresh, State.powerOn], afterStep_next (by decide +kernel)⟩

theorem witness_StepKeepsTheSession : Placed (latch abcDec .acDec) ∧ CountsAgree (latch abcDec .acDec) ∧
    SessionOk (latch abcDec .acDec) ∧ ∃ t, step (latch abcDec .acDec) = .next t ∧ t.acState = .dec :=
  ⟨placed_of (by decide +kernel), counts_of rfl (by decide +kernel), fun _ =>
    ⟨rfl, rfl, abcDec_open.totalLow, abcDec_open.totalHigh, by decide +kernel, by decide +kernel,
      abcDec_open.headroom, abcDec_open.code⟩, afterStep_next (by decide +kernel)⟩

theorem witness_InvariantStatesAreSafe : Inv (latch (fresh 4) .hufBuild) := latch_inv fresh_inv .hufBuild

end Sys2Proof.Machine.Tests
end

section
/-! O9: the frame of every command. A piece of pseudocode keeps a frame when every state it ends in is the old one
with only the fields of the frame replaced; the frame of a command is assembled from those of its pieces. -/

namespace Sys2Proof.Machine

/-! ## Pseudocode that runs to its end -/

/-- What `r` answers when it runs to its end has the property `P`; nothing is asked of a raised error or a fault. -/
def Yields {α : Type} (r : Res α) (P : α → Prop) : Prop := ∀ a, r = .ok a → P a

namespace Yields
variable {α β : Type} {P : α → Prop} {Q : β → Prop}

theorem ok {a : α} (h : P a) : Yields (.ok a) P := by
  rintro _ ⟨⟩
  exact h

theorem error (e : Stop) : Yields (.error e) P := by
  rintro _ ⟨⟩

theorem ite {c : Prop} [Decidable c] {r r' : Res α} (h : Yields r P) (h' : Yields r' P) :
    Yields (if c then r else r') P := by
  split
  · exact h
  · exact h'

/-- The sequence rule. -/
theorem bind {x : Res α} {f : α → Res β} (hx : Yields x P) (hf : ∀ a, P a → Yields (f a) Q) : Yields (x >>= f) Q := by
  intro b hb
  obtain ⟨a, ha, hb⟩ := bind_ok_iff.1 hb
  exact hf a (hx a ha) b hb

/-- The sequence rule where nothing is needed of the first piece: a gate, or a read of the state. -/
theorem after {x : Res α} {f : α → Res β} (hf : ∀ a, Yields (f a) Q) : Yields (x >>= f) Q :=
  bind (P := fun _ => True) (fun _ _ => trivial) fun a _ => hf a

theorem mono {P' : α → Prop} {r : Res α} (h : Yields r P) (hP : ∀ a, P a → P' a) : Yields r P' :=
  fun a ha => hP a (h a ha)

end Yields

/-- A command whose pseudocode only ends in states with `P` answers such a state or raised an error. -/
theorem conclude_next_of_yields {s t : State} {r : Res State} {P : State → Prop} (hr : Yields r P)
    (h : conclude s r = .next t) : P t ∨ ∃ e, t = raiseError e s := by
  obtain h | ⟨e, -, h⟩ := conclude_next_iff.1 h
  · exact .inl (hr t h)
  · exact .inr ⟨e, h⟩

/-! ## The writer's frame (rules R150, R151) -/

/-- `t` is `s` but for `BSMEM` and `BS_WPOS`. -/
def WriterFrame (s t : State) : Prop := ∃ m p, t = { s with bsmem := m, bsWpos := p }

theorem WriterFrame.refl (s : State) : WriterFrame s s := ⟨_, _, rfl⟩

theorem WriterFrame.trans {s t u : State} (h : WriterFrame s t) (h' : WriterFrame t u) : WriterFrame s u := by
  obtain ⟨_, _, rfl⟩ := h
  obtain ⟨_, _, rfl⟩ := h'
  exact ⟨_, _, rfl⟩

theorem memWrite_frame (a : Nat) (v : Byte) (s : State) : Yields (memWrite a v s) (WriterFrame s) :=
  .ite (.ok ⟨_, _, rfl⟩) (.error _)

theorem putBit_frame (b : Bool) (s : State) : Yields (putBit b s) (WriterFrame s) := by
  have advance : ∀ t, WriterFrame s t → Yields (.ok { t with bsWpos := t.bsWpos + 1 }) (WriterFrame s) :=
    fun _ ht => .ok (ht.trans ⟨_, _, rfl⟩)
  have setBit : ∀ t, WriterFrame s t → Yields (if b then (do
        let v ← memRead (s.bsWpos.toNat / 8) t
        memWrite (s.bsWpos.toNat / 8) (v ||| (0x80#8 >>> (s.bsWpos.toNat % 8))) t) >>=
          fun t => .ok { t with bsWpos := t.bsWpos + 1 }
      else .ok { t with bsWpos := t.bsWpos + 1 }) (WriterFrame s) := fun t ht =>
    .ite (.bind (.after fun _ => (memWrite_frame _ _ t).mono fun _ => ht.trans) advance) (advance t ht)
  exact .ite ((memWrite_frame _ _ s).bind setBit) (setBit s (.refl s))

theorem putBits_frame (v : Nat) : ∀ (k : Nat) (s : State), Yields (putBits v k s) (WriterFrame s)
  | 0, s => .ok (.refl s)
  | k + 1, s => (putBit_frame _ s).bind fun t ht => (putBits_frame v k t).mono fun _ => ht.trans

theorem putRepeat_frame (b : Bool) : ∀ (k : Nat) (s : State), Yields (putRepeat b k s) (WriterFrame s)
  | 0, s => .ok (.refl s)
  | k + 1, s => (putBit_frame b s).bind fun t ht => (putRepeat_frame b k t).mono fun _ => ht.trans

theorem writeBits_frame (v k : Nat) (s : State) : Yields (writeBits v k s) (WriterFrame s) :=
  .after fun _ => putBits_frame v k s

/-! ## The encoder's frames (rule R305) -/

/-- `t` is `s` but for the writer's state and `AC_PEND`. -/
def EmitterFrame (s t : State) : Prop := ∃ q m p, t = { s with acPend := q, bsmem := m, bsWpos := p }

/-- `t` is `s` but for the writer's state, `AC_PEND` and the bounds. -/
def EncoderFrame (s t : State) : Prop :=
  ∃ l h q m p, t = { s with acLow := l, acHigh := h, acPend := q, bsmem := m, bsWpos := p }

theorem EncoderFrame.refl (s : State) : EncoderFrame s s := ⟨_, _, _, _, _, rfl⟩

theorem EncoderFrame.trans {s t u : State} (h : EncoderFrame s t) (h' : EncoderFrame t u) : EncoderFrame s u := by
  obtain ⟨_, _, _, _, _, rfl⟩ := h
  obtain ⟨_, _, _, _, _, rfl⟩ := h'
  exact ⟨_, _, _, _, _, rfl⟩

theorem EmitterFrame.trans {s t u : State} (h : EmitterFrame s t) (h' : EmitterFrame t u) : EmitterFrame s u := by
  obtain ⟨_, _, _, rfl⟩ := h
  obtain ⟨_, _, _, rfl⟩ := h'
  exact ⟨_, _, _, rfl⟩

theorem WriterFrame.emitter {s t : State} (h : WriterFrame s t) : EmitterFrame s t := by
  obtain ⟨_, _, rfl⟩ := h
  exact ⟨_, _, _, rfl⟩

theorem EmitterFrame.encoder {s t : State} (h : EmitterFrame s t) : EncoderFrame s t := by
  obtain ⟨_, _, _, rfl⟩ := h
  exact ⟨_, _, _, _, _, rfl⟩

theorem emit_frame (b : Bool) (s : State) : Yields (emit b s) (EmitterFrame s) :=
  .after fun _ => (putBit_frame b s).bind fun t ht => (putRepeat_frame _ _ t).bind fun _ hu =>
    .ok ((ht.trans hu).emitter.trans ⟨_, _, _, rfl⟩)

theorem addPending_frame (s : State) : Yields (addPending s) (EmitterFrame s) :=
  .after fun _ => .ok ⟨_, _, _, rfl⟩

theorem encCase_frame (c : RenormCase) (s : State) : Yields (encCase c s) (EncoderFrame s) := by
  cases c with
  | e1 => exact (emit_frame false s).mono fun _ => EmitterFrame.encoder
  | e2 => exact (emit_frame true s).mono fun _ => EmitterFrame.encoder
  | e3 => exact (addPending_frame s).bind fun _ ht => .ok (ht.encoder.trans ⟨_, _, _, _, _, rfl⟩)

theorem encRenorm_frame : ∀ (fuel : Nat) (s : State), Yields (encRenorm fuel s) (EncoderFrame s)
  | 0, s => .ok (.refl s)
  | fuel + 1, s => by
    rw [encRenorm]
    split
    · exact .ok (.refl s)
    · next c _ =>
      refine (encCase_frame c s).bind fun t ht => (encRenorm_frame fuel (shiftBounds t)).mono fun _ hu => ?_
      exact (ht.trans ⟨_, _, _, _, _, rfl⟩).trans hu

/-! ## The decoder's frame (rules R152, R309, R311) -/

/-- `t` is `s` but for the bounds, `AC_CODE` and `BS_RPOS`. -/
def DecoderFrame (s t : State) : Prop :=
  ∃ l h c p, t = { s with acLow := l, acHigh := h, acCode := c, bsRpos := p }

theorem DecoderFrame.refl (s : State) : DecoderFrame s s := ⟨_, _, _, _, rfl⟩

theorem DecoderFrame.trans {s t u : State} (h : DecoderFrame s t) (h' : DecoderFrame t u) : DecoderFrame s u := by
  obtain ⟨_, _, _, _, rfl⟩ := h
  obtain ⟨_, _, _, _, rfl⟩ := h'
  exact ⟨_, _, _, _, rfl⟩

theorem getBitZF_frame (s : State) : Yields (getBitZF s) fun r => DecoderFrame s r.2 :=
  .ite (.after fun _ => .ok ⟨_, _, _, _, rfl⟩) (.ok (.refl s))

theorem shiftCode_frame (s : State) : Yields (shiftCode s) (DecoderFrame s) :=
  (getBitZF_frame s).bind fun _ ht => .ok (ht.trans ⟨_, _, _, _, rfl⟩)

theorem decCase_frame (c : RenormCase) (s : State) : DecoderFrame s (decCase c s) := by
  cases c <;> exact ⟨_, _, _, _, rfl⟩

theorem decRenorm_frame : ∀ (fuel : Nat) (s : State), Yields (decRenorm fuel s) (DecoderFrame s)
  | 0, s => .ok (.refl s)
  | fuel + 1, s => by
    rw [decRenorm]
    split
    · exact .ok (.refl s)
    · next c _ =>
      have shifted : DecoderFrame s (shiftBounds (decCase c s)) := (decCase_frame c s).trans ⟨_, _, _, _, rfl⟩
      exact (shiftCode_frame _).bind fun t ht => (decRenorm_frame fuel t).mono fun _ => (shifted.trans ht).trans

theorem loadCode_frame : ∀ (k : Nat) (s : State), Yields (loadCode k s) (DecoderFrame s)
  | 0, s => .ok (.refl s)
  | k + 1, s => (shiftCode_frame s).bind fun t ht => (loadCode_frame k t).mono fun _ => ht.trans

/-! ## Sessions and narrowing (rules R304, R306, R311) -/

/-- `Narrow(x)` replaces the bounds only. -/
theorem narrow_frame (x : Sym) (s : State) :
    Yields (narrow x s) fun t => ∃ l h, t = { s with acLow := l, acHigh := h } :=
  .ite (.ok ⟨_, _, rfl⟩) (.error _)

/-- The start of a session replaces the coder's own registers only: the row of `AC.EINIT`. -/
theorem openSession_frame (a : AcState) (s : State) :
    Yields (openSession a s) fun t => t = frameOf .acEinit s t :=
  .after fun _ => .after fun _ => .after fun _ => .after fun _ => .ok rfl

/-! ## The commands (rule R45) -/

/-- The pseudocode of every command only ends in states that keep the frame of the command's row. -/
theorem exec_concludes_in_frame (i : Instr) (s : State) :
    ∃ r, exec i s = conclude s r ∧ Yields r fun t => t = frameOf i s t := by
  cases i with
  | nop => exact ⟨_, rfl, .ok rfl⟩
  | ctlReset => exact ⟨_, rfl, .ok rfl⟩
  | ctlClrerr => exact ⟨_, rfl, .ok rfl⟩
  | ctrMode tag =>
    refine ⟨_, rfl, .after fun _ => ?_⟩
    split
    · exact .ok rfl
    · exact .error _
  | bsWinit => exact ⟨_, rfl, .ok rfl⟩
  | bsWr n =>
    refine ⟨_, rfl, (writeBits_frame _ n s).mono ?_⟩
    rintro _ ⟨_, _, rfl⟩
    rfl
  | bsFlush => exact ⟨_, rfl, .ok rfl⟩
  | bsRinit => exact ⟨_, rfl, .ok rfl⟩
  | bsRd n => exact ⟨_, rfl, .after fun _ => .after fun _ => .ok rfl⟩
  | ftClr => exact ⟨_, rfl, .after fun _ => .ok rfl⟩
  | ftAcc x => exact ⟨_, rfl, .after fun _ => .after fun _ => .ok (by simp [frameOf])⟩
  | ftLd x => exact ⟨_, rfl, .after fun _ => .ok (by simp [frameOf])⟩
  | ftRd x => exact ⟨_, rfl, .ok rfl⟩
  | ftCum => exact ⟨_, rfl, .ok rfl⟩
  | ftCrd x => exact ⟨_, rfl, .after fun _ => .ok rfl⟩
  | hufBuild => exact ⟨_, rfl, .after fun _ => .ok rfl⟩
  | hufLdlen x n => exact ⟨_, rfl, .after fun _ => .ok (by simp [frameOf])⟩
  | hufCanon =>
    refine ⟨_, rfl, .after fun _ => ?_⟩
    split
    · exact .error _
    · exact .ok rfl
  | hufRdlen x => exact ⟨_, rfl, .after fun _ => .ok rfl⟩
  | hufRdcode x k => exact ⟨_, rfl, .after fun _ => .after fun _ => .ok rfl⟩
  | hufEnc x =>
    refine ⟨_, rfl, .after fun _ => .after fun _ => .after fun _ => (writeBits_frame _ _ s).mono ?_⟩
    rintro _ ⟨_, _, rfl⟩
    rfl
  | hufDec => exact ⟨_, rfl, .after fun _ => .after fun _ => .after fun _ => .ok rfl⟩
  | acEinit => exact ⟨_, rfl, openSession_frame .enc s⟩
  | acEnc x =>
    refine ⟨_, rfl, .after fun _ => .after fun _ => .after fun _ => .ite (.ok rfl) ?_⟩
    refine (narrow_frame x s).bind fun t ht => (encRenorm_frame _ t).mono ?_
    obtain ⟨_, _, rfl⟩ := ht
    rintro _ ⟨_, _, _, _, _, rfl⟩
    rfl
  | acEfin =>
    refine ⟨_, rfl, .after fun _ => .after fun _ => .ite (.ok rfl) ?_⟩
    refine (addPending_frame s).bind fun t ht => (emit_frame _ t).bind fun u hu => .ok ?_
    obtain ⟨_, _, _, rfl⟩ := ht.trans hu
    rfl
  | acDinit =>
    refine ⟨_, rfl, (openSession_frame .dec s).bind fun t ht => .ite (.ok ?_) ((loadCode_frame _ t).mono ?_)⟩
    · rw [ht]
      rfl
    · rintro _ ⟨_, _, _, _, rfl⟩
      rw [ht]
      rfl
  | acDec =>
    refine ⟨_, rfl, .after fun _ => .after fun _ => .ite (.ok rfl) (.after fun _ => .after fun _ => ?_)⟩
    split
    · exact .error _
    · next x _ =>
      refine (narrow_frame x s).bind fun t ht => (decRenorm_frame _ t).bind fun u hu => .ok ?_
      obtain ⟨_, _, rfl⟩ := ht
      obtain ⟨_, _, _, _, rfl⟩ := hu
      rfl
  | acDfin => exact ⟨_, rfl, .after fun _ => .after fun _ => .ok rfl⟩

/-- A command that answers a next state kept its frame, or raised an error (rules R45, R424). -/
theorem exec_frame {i : Instr} {s t : State} (h : exec i s = .next t) :
    t = frameOf i s t ∨ ∃ e, t = raiseError e s := by
  obtain ⟨r, hr, hf⟩ := exec_concludes_in_frame i s
  exact conclude_next_of_yields hf (hr ▸ h)

/-- Settles O9: every command's pseudocode ends inside its row's frame or raises, and none refuses. -/
theorem commandWritesOnlyItsState : Obligations.CommandWritesOnlyItsState :=
  ⟨fun _ _ _ => exec_frame, exec_ne_refused⟩

end Sys2Proof.Machine
end

section
/-! O18: the model's answer to an access that is not an aligned 32-bit one (rule R85). -/

namespace Sys2Proof.Machine

/-- It is the host's turn while the delay of a pending command runs and the host's program goes on (rule R490). -/
theorem engineTurn_eq_false {s : State} (hwait : s.busy = true → s.host.wait ≠ 0) (hscript : s.host.script ≠ []) :
    s.engineTurn = false := by
  cases hbusy : s.busy with
  | false => simp [State.engineTurn, hbusy]
  | true => simp [State.engineTurn, hwait hbusy, hscript]

/-- Inside the register space only the size and the alignment of an access decide whether it has an offset. -/
theorem accessOffset_inside (c : Config) (size : AccessSize) {off : Nat} (hoff : off < 256) :
    accessOffset c size (c.eceBase + off) =
      if size = .word ∧ off % 4 = 0 then .ok off else .error .registerAccessShape := by
  have inside : ¬(c.eceBase + off < c.eceBase ∨ c.eceBase + 256 ≤ c.eceBase + off) := by omega
  simp only [accessOffset, if_neg inside, Nat.add_sub_cancel_left]

theorem accessOffset_narrow_or_misaligned (c : Config) {size : AccessSize} {off : Nat} (hoff : off < 256)
    (hshape : size ≠ .word ∨ off % 4 ≠ 0) :
    accessOffset c size (c.eceBase + off) = .error .registerAccessShape := by
  have notAligned : ¬(size = .word ∧ off % 4 = 0) := fun ⟨hsize, halign⟩ => hshape.elim (· hsize) (· halign)
  rw [accessOffset_inside c size hoff, if_neg notAligned]

theorem hostTurn_write_refused {s : State} {size : AccessSize} {addr : Nat} {v : Word} {ops : List HostOp}
    {r : Refusal} (hscript : s.host.script = .write size addr v :: ops)
    (haccess : accessOffset s.config size addr = .error r) : hostTurn s = .refused r := by
  simp only [hostTurn, hscript, haccess]

theorem hostTurn_read_refused {s : State} {size : AccessSize} {addr : Nat} {ops : List HostOp} {r : Refusal}
    (hscript : s.host.script = .read size addr :: ops)
    (haccess : accessOffset s.config size addr = .error r) : hostTurn s = .refused r := by
  simp only [hostTurn, hscript, haccess]

/-- Settles O18: the turn is the host's, and its access has no offset in the register space. -/
theorem narrowOrMisalignedAccessIsRefused : Obligations.NarrowOrMisalignedAccessIsRefused := by
  intro s size off v ops hwait hoff hshape
  have haccess := accessOffset_narrow_or_misaligned s.config hoff hshape
  have hturn : s.host.script ≠ [] → step s = hostTurn s := fun h => step_host (engineTurn_eq_false hwait h)
  constructor
  · intro hscript
    rw [hturn (by simp [hscript]), hostTurn_write_refused hscript haccess]
  · intro hscript
    rw [hturn (by simp [hscript]), hostTurn_read_refused hscript haccess]

end Sys2Proof.Machine
end

section
/-! O2, O4: a command word is its four fields, and its opcode's format decides which of them are legal. -/

namespace Sys2Proof.Machine

/-! ## Words by fields (rule R121) -/

theorem word_eq_iff_fields {w v : Word} :
    w = v ↔ fieldOpc w = fieldOpc v ∧ fieldSym w = fieldSym v ∧ fieldImm w = fieldImm v ∧ fieldRsv w = fieldRsv v := by
  refine ⟨fun h => by simp [h], fun ⟨hopc, hsym, himm, hrsv⟩ => BitVec.eq_of_toNat_eq ?_⟩
  have hw := w.isLt
  have hv := v.isLt
  simp only [fieldOpc, fieldSym, fieldImm, fieldRsv, ← BitVec.toNat_inj, BitVec.extractLsb'_toNat,
    Nat.shiftRight_eq_div_pow] at hopc hsym himm hrsv
  omega

theorem fieldOpc_and (w v : Word) : fieldOpc (w &&& v) = fieldOpc w &&& fieldOpc v := BitVec.extractLsb'_and

theorem fieldSym_and (w v : Word) : fieldSym (w &&& v) = fieldSym w &&& fieldSym v := BitVec.extractLsb'_and

theorem fieldImm_and (w v : Word) : fieldImm (w &&& v) = fieldImm w &&& fieldImm v := BitVec.extractLsb'_and

theorem fieldRsv_and (w v : Word) : fieldRsv (w &&& v) = fieldRsv w &&& fieldRsv v := BitVec.extractLsb'_and

/-- The pattern of rule R126 is the opcode alone. -/
theorem ofNat_opcode (o : Byte) : BitVec.ofNat 32 o.toNat = packWord o 0 0 := by
  have ho := o.isLt
  exact BitVec.eq_of_toNat_eq (by simp [packWord_toNat]; omega)

/-- The formula of rule R129. -/
theorem packWord_eq_or (opc s n : Byte) :
    packWord opc s n = opc.setWidth 32 ||| s.setWidth 32 <<< 8 ||| n.setWidth 32 <<< 16 := by
  have fits (b : Byte) : b.toNat % 2 ^ 32 = b.toNat := by omega
  have shifted : s.toNat <<< 8 % 2 ^ 32 = s.toNat <<< 8 ∧ n.toNat <<< 16 % 2 ^ 32 = n.toNat <<< 16 := by
    simp only [Nat.shiftLeft_eq]
    omega
  apply BitVec.eq_of_toNat_eq
  simp only [packWord, BitVec.toNat_append, BitVec.toNat_or, BitVec.toNat_shiftLeft, BitVec.toNat_setWidth, fits,
    shifted]
  simp [Nat.shiftLeft_or_distrib, ← Nat.shiftLeft_add, Nat.or_comm, Nat.or_assoc]

/-! ## Formats (rules R122, R124, R126) -/

/-- The operand fields a format allows: an unused field is 0, and `IMM` is in its range. -/
def Format.Accepts (f : Format) (s n : Byte) : Prop :=
  (f.usesSym = false → s = 0) ∧ (f.immTop = none → n = 0) ∧ ∀ top, f.immTop = some top → n.toNat ≤ top

theorem formF0_isSome {s n : Byte} {i : Instr} :
    (formF0 s n i).isSome = true ↔ Format.Accepts ⟨false, none⟩ s n := by
  simp [formF0, Format.Accepts]

theorem formFS_isSome {s n : Byte} {i : Instr} :
    (formFS n i).isSome = true ↔ Format.Accepts ⟨true, none⟩ s n := by
  simp [formFS, Format.Accepts]

theorem formFI_isSome {s n : Byte} {top : Nat} {i : Instr} :
    (formFI s n top i).isSome = true ↔ Format.Accepts ⟨false, some top⟩ s n := by
  simp [formFI, Format.Accepts]

theorem formFSI_isSome {s n : Byte} {top : Nat} {i : Instr} :
    (formFSI n top i).isSome = true ↔ Format.Accepts ⟨true, some top⟩ s n := by
  simp [formFSI, Format.Accepts]

/-- The opcodes of each format, as rule R125 lists them. -/
theorem opcodeFormat_cases {opc : Nat} {f : Format} (h : opcodeFormat opc = some f) :
    (f = ⟨false, none⟩ ∧ opc ∈ [0x00, 0x01, 0x02, 0x10, 0x12, 0x13, 0x20, 0x24, 0x30, 0x32, 0x36, 0x40, 0x42, 0x43,
      0x44, 0x45]) ∨
    (f = ⟨true, none⟩ ∧ opc ∈ [0x03, 0x21, 0x22, 0x23, 0x25, 0x33, 0x35, 0x41]) ∨
    (f = ⟨false, some 32⟩ ∧ opc ∈ [0x11, 0x14]) ∨
    (f = ⟨true, some 255⟩ ∧ opc = 0x31) ∨ (f = ⟨true, some 7⟩ ∧ opc = 0x34) := by
  unfold opcodeFormat at h
  split_ifs at h with hF0 hFS hFI hLdlen hRdcode <;> cases h
  · exact .inl ⟨rfl, hF0⟩
  · exact .inr (.inl ⟨rfl, hFS⟩)
  · exact .inr (.inr (.inl ⟨rfl, hFI⟩))
  · exact .inr (.inr (.inr (.inl ⟨rfl, hLdlen⟩)))
  · exact .inr (.inr (.inr (.inr ⟨rfl, hRdcode⟩)))

theorem opcodeFormat_lt {opc : Nat} {f : Format} (h : opcodeFormat opc = some f) : opc < 256 := by
  obtain ⟨-, hopc⟩ | ⟨-, hopc⟩ | ⟨-, hopc⟩ | ⟨-, rfl⟩ | ⟨-, rfl⟩ := opcodeFormat_cases h
  · fin_cases hopc <;> decide
  · fin_cases hopc <;> decide
  · fin_cases hopc <;> decide
  · decide
  · decide

/-- The decoder takes the operand fields that the opcode's format accepts (rules R125, R127). -/
theorem decodeFields_isSome_iff {opc : Nat} {f : Format} (s n : Byte) (h : opcodeFormat opc = some f) :
    (decodeFields opc s n).isSome = true ↔ f.Accepts s n := by
  obtain ⟨rfl, hopc⟩ | ⟨rfl, hopc⟩ | ⟨rfl, hopc⟩ | ⟨rfl, rfl⟩ | ⟨rfl, rfl⟩ := opcodeFormat_cases h
  · fin_cases hopc <;> exact formF0_isSome
  · fin_cases hopc <;> exact formFS_isSome
  · fin_cases hopc <;> exact formFI_isSome
  · exact formFSI_isSome
  · exact formFSI_isSome

theorem legal_iff_of_format {w : Word} {f : Format} (h : opcodeFormat (fieldOpc w).toNat = some f) :
    legal w = true ↔ fieldRsv w = 0 ∧ f.Accepts (fieldSym w) (fieldImm w) := by
  rw [← decodeFields_isSome_iff _ _ h, legal, decode]
  split
  · next hrsv => exact (and_iff_right hrsv).symm
  · next hrsv => exact iff_of_false Bool.false_ne_true fun h => hrsv h.1

/-! ## Match and mask (rule R126) -/

/-- A mask is all ones on `OPC`, `RSV` and the operand fields the format does not use. -/
theorem mask_fields (f : Format) :
    fieldOpc f.mask = BitVec.allOnes 8 ∧ fieldSym f.mask = (if f.usesSym = false then BitVec.allOnes 8 else 0) ∧
      fieldImm f.mask = (if f.immTop = none then BitVec.allOnes 8 else 0) ∧ fieldRsv f.mask = BitVec.allOnes 8 := by
  obtain ⟨_ | _, _ | _⟩ := f <;> simp only [Format.mask] <;> exact ⟨rfl, rfl, rfl, rfl⟩

theorem and_onesWhen_eq_zero_iff (c : Prop) [Decidable c] (b : Byte) :
    b &&& (if c then BitVec.allOnes 8 else 0) = 0 ↔ (c → b = 0) := by
  split
  · next hc => rw [BitVec.and_allOnes, imp_iff_right hc]
  · next hc => exact iff_of_true BitVec.and_zero fun h => absurd h hc

theorem and_mask_eq_opcode_iff (w : Word) (o : Byte) (f : Format) :
    w &&& f.mask = BitVec.ofNat 32 o.toNat ↔ fieldOpc w = o ∧ (f.usesSym = false → fieldSym w = 0) ∧
      (f.immTop = none → fieldImm w = 0) ∧ fieldRsv w = 0 := by
  obtain ⟨hopc, hsym, himm, hrsv⟩ := mask_fields f
  rw [ofNat_opcode, word_eq_iff_fields, fieldOpc_and, fieldSym_and, fieldImm_and, fieldRsv_and, hopc, hsym, himm, hrsv,
    fieldOpc_packWord, fieldSym_packWord, fieldImm_packWord, fieldRsv_packWord, BitVec.and_allOnes, BitVec.and_allOnes,
    and_onesWhen_eq_zero_iff, and_onesWhen_eq_zero_iff]

/-- Match, mask and range select the legal words of the opcode. -/
theorem selects_iff_legal {w : Word} {opc : Nat} {f : Format} (h : opcodeFormat opc = some f) :
    (w &&& f.mask = BitVec.ofNat 32 opc ∧ ∀ top, f.immTop = some top → (fieldImm w).toNat ≤ top) ↔
      (legal w = true ∧ (fieldOpc w).toNat = opc) := by
  obtain ⟨o, rfl⟩ : ∃ o : Byte, o.toNat = opc := ⟨.ofNat 8 opc, Nat.mod_eq_of_lt (opcodeFormat_lt h)⟩
  rw [and_mask_eq_opcode_iff, BitVec.toNat_inj]
  constructor
  · rintro ⟨⟨rfl, hsym, himm, hrsv⟩, hrange⟩
    exact ⟨(legal_iff_of_format h).2 ⟨hrsv, hsym, himm, hrange⟩, rfl⟩
  · rintro ⟨hlegal, rfl⟩
    obtain ⟨hrsv, hsym, himm, hrange⟩ := (legal_iff_of_format h).1 hlegal
    exact ⟨⟨rfl, hsym, himm, hrsv⟩, hrange⟩

/-! ## From a word to its command and back (rules R125, R129) -/

/-- `i` is a command and `w` its word. -/
def IsWordOf (w : Word) (i : Instr) : Prop := i.wellFormed = true ∧ encode i = w

theorem formF0_word {o s n : Byte} {i j : Instr} (h : formF0 s n i = some j) (hi : IsWordOf (packWord o 0 0) i) :
    IsWordOf (packWord o s n) j := by
  obtain ⟨⟨rfl, rfl⟩, rfl⟩ := formF0_eq_some.1 h
  exact hi

theorem formFS_word {o s n : Byte} {i j : Instr} (h : formFS n i = some j) (hi : IsWordOf (packWord o s 0) i) :
    IsWordOf (packWord o s n) j := by
  obtain ⟨rfl, rfl⟩ := formFS_eq_some.1 h
  exact hi

theorem formFI_word {o s n : Byte} {top : Nat} {i j : Instr} (h : formFI s n top i = some j)
    (hi : n.toNat ≤ top → IsWordOf (packWord o 0 n) i) : IsWordOf (packWord o s n) j := by
  obtain ⟨⟨rfl, hn⟩, rfl⟩ := formFI_eq_some.1 h
  exact hi hn

theorem formFSI_word {o s n : Byte} {top : Nat} {i j : Instr} (h : formFSI n top i = some j)
    (hi : n.toNat ≤ top → IsWordOf (packWord o s n) i) : IsWordOf (packWord o s n) j := by
  obtain ⟨hn, rfl⟩ := formFSI_eq_some.1 h
  exact hi hn

theorem bsWr_word {n : Byte} (hn : n.toNat ≤ 32) : IsWordOf (packWord 0x11 0 n) (.bsWr n.toNat) :=
  ⟨decide_eq_true hn, by simp [encode]⟩

theorem bsRd_word {n : Byte} (hn : n.toNat ≤ 32) : IsWordOf (packWord 0x14 0 n) (.bsRd n.toNat) :=
  ⟨decide_eq_true hn, by simp [encode]⟩

theorem hufRdcode_word {s n : Byte} (hn : n.toNat ≤ 7) : IsWordOf (packWord 0x34 s n) (.hufRdcode s n.toNat) :=
  ⟨decide_eq_true hn, by simp [encode]⟩

/-- Every line of the opcode map gives the command of its word. -/
theorem decodeFields_word {opc : Nat} {s n : Byte} {i : Instr} (h : decodeFields opc s n = some i) :
    IsWordOf (packWord (.ofNat 8 opc) s n) i := by
  unfold decodeFields at h
  split at h
  · exact formF0_word h ⟨rfl, rfl⟩
  · exact formF0_word h ⟨rfl, rfl⟩
  · exact formF0_word h ⟨rfl, rfl⟩
  · exact formFS_word h ⟨rfl, rfl⟩
  · exact formF0_word h ⟨rfl, rfl⟩
  · exact formFI_word h bsWr_word
  · exact formF0_word h ⟨rfl, rfl⟩
  · exact formF0_word h ⟨rfl, rfl⟩
  · exact formFI_word h bsRd_word
  · exact formF0_word h ⟨rfl, rfl⟩
  · exact formFS_word h ⟨rfl, rfl⟩
  · exact formFS_word h ⟨rfl, rfl⟩
  · exact formFS_word h ⟨rfl, rfl⟩
  · exact formF0_word h ⟨rfl, rfl⟩
  · exact formFS_word h ⟨rfl, rfl⟩
  · exact formF0_word h ⟨rfl, rfl⟩
  · exact formFSI_word h fun _ => ⟨rfl, rfl⟩
  · exact formF0_word h ⟨rfl, rfl⟩
  · exact formFS_word h ⟨rfl, rfl⟩
  · exact formFSI_word h hufRdcode_word
  · exact formFS_word h ⟨rfl, rfl⟩
  · exact formF0_word h ⟨rfl, rfl⟩
  · exact formF0_word h ⟨rfl, rfl⟩
  · exact formFS_word h ⟨rfl, rfl⟩
  · exact formF0_word h ⟨rfl, rfl⟩
  · exact formF0_word h ⟨rfl, rfl⟩
  · exact formF0_word h ⟨rfl, rfl⟩
  · exact formF0_word h ⟨rfl, rfl⟩
  · cases h

theorem decode_word {w : Word} {i : Instr} (h : decode w = some i) : IsWordOf w i := by
  obtain ⟨hrsv, h⟩ : fieldRsv w = 0 ∧ decodeFields (fieldOpc w).toNat (fieldSym w) (fieldImm w) = some i := by
    simpa [decode] using h
  rw [word_of_fields w hrsv]
  simpa using decodeFields_word h

/-- Settles O2: a decoded word's fields make up the word of its command, and the mask keeps just what the opcode's
format fixes. -/
theorem matchAndMaskSelectTheCommand : Obligations.MatchAndMaskSelectTheCommand :=
  ⟨fun _ _ => decode_word, fun _ _ _ => selects_iff_legal⟩

/-- The word of a command packs an opcode with the operand fields its format uses; the others are 0. -/
theorem encode_eq_packWord (i : Instr) : ∃ opc s n f, encode i = packWord opc s n ∧
    opcodeFormat opc.toNat = some f ∧ (f.usesSym = false → s = 0) ∧ (f.immTop = none → n = 0) := by
  cases i with
  | nop | ctlReset | ctlClrerr | bsWinit | bsFlush | bsRinit | ftClr | ftCum | hufBuild | hufCanon | hufDec | acEinit
  | acEfin | acDinit | acDec | acDfin => exact ⟨_, 0, 0, ⟨false, none⟩, rfl, rfl, fun _ => rfl, fun _ => rfl⟩
  | ctrMode s | ftAcc s | ftLd s | ftRd s | ftCrd s | hufRdlen s | hufEnc s | acEnc s =>
    exact ⟨_, s, 0, ⟨true, none⟩, rfl, rfl, nofun, fun _ => rfl⟩
  | bsWr n | bsRd n => exact ⟨_, 0, .ofNat 8 n, ⟨false, some 32⟩, rfl, rfl, fun _ => rfl, nofun⟩
  | hufLdlen s n => exact ⟨_, s, n, ⟨true, some 255⟩, rfl, rfl, nofun, nofun⟩
  | hufRdcode s k => exact ⟨_, s, .ofNat 8 k, ⟨true, some 7⟩, rfl, rfl, nofun, nofun⟩

/-- Settles O4: packing is the rule's formula, command by command, and the rule's five words evaluate. -/
theorem commandLineWords : Obligations.CommandLineWords := by
  refine ⟨packWord_eq_or, encode_eq_packWord, ?_⟩
  decide

end Sys2Proof.Machine
end

section
/-! O26, O23, O25, O24: the bit-stream commands. Each command's meaning is one equation; the round trip follows the
stream that a list of writes lays down. -/

namespace Sys2Proof.Machine

/-! ## What each command answers (41_bitstream.md section 2) -/

theorem exec_bsWinit (s : State) : exec .bsWinit s = .next { s with bsWpos := 0 } := rfl

theorem exec_bsWr (n : Nat) {s : State} (hc : s.config.wf) :
    exec (.bsWr n) s = .next (if s.bsWpos.toNat + n ≤ s.capBits then s.put (bitsOf s.arg0.toNat n)
      else raiseError .bufferFull s) := by
  show conclude s (writeBits s.arg0.toNat n s) = _
  rw [writeBits_eq _ n hc]
  split <;> rfl

theorem exec_bsFlush (s : State) : exec .bsFlush s =
    .next { s with
      bsWpos := BitVec.ofNat 32 (padToByte s.bsWpos.toNat)
      res := BitVec.ofNat 32 (padToByte s.bsWpos.toNat / 8)
      resHi := 0 } := rfl

theorem exec_bsRinit (s : State) : exec .bsRinit s =
    .next { s with bsRpos := 0, bsRlimit := BitVec.ofNat 32 (8 * s.bsRlen.toNat) } := rfl

theorem exec_bsRd (n : Nat) {s : State} (hl : s.bsRlimit.toNat ≤ s.capBits) :
    exec (.bsRd n) s = .next (if s.bsRpos.toNat + n ≤ s.bsRlimit.toNat
      then { s with
        bsRpos := s.bsRpos + BitVec.ofNat 32 n
        res := BitVec.ofNat 32 (streamValue s.bsmem s.bsRpos.toNat n)
        resHi := 0 }
      else raiseError .outOfData s) := by
  simp only [exec, execBsRd]
  split
  · next hfit =>
    rw [decide_eq_true hfit, guardRaise_true, ok_bind, readBits_streamValue (by omega)]
    rfl
  · next hshort => rw [decide_eq_false hshort, guardRaise_false, error_bind, conclude_raise]

/-! ## The cursors stay exact -/

theorem padToByte_le_capBits {s : State} {p : Nat} (h : p ≤ s.capBits) : padToByte p ≤ s.capBits := by
  simp only [State.capBits, Config.capBits, padToByte] at h ⊢
  omega

/-- A number up to the capacity in bits is exact in a register. -/
theorem toNat_ofNat_of_le_capBits {s : State} {n : Nat} (hc : s.config.wf) (h : n ≤ s.capBits) :
    (BitVec.ofNat 32 n).toNat = n :=
  Nat.mod_eq_of_lt (by have := capBits_bound hc; omega)

/-- An advance that ends inside the memory is exact. -/
theorem cursor_add_toNat {s : State} {p : Word} {n : Nat} (hc : s.config.wf) (h : p.toNat + n ≤ s.capBits) :
    (p + BitVec.ofNat 32 n).toNat = p.toNat + n := by
  have := capBits_bound hc
  rw [BitVec.toNat_add, BitVec.toNat_ofNat]
  omega

/-- Settles O24: the three equations, with the cursors of a placed state exact. -/
theorem bsCursorCommandResults : Obligations.BsCursorCommandResults := by
  refine ⟨exec_bsWinit, fun s hs => ?_, fun s hs => ?_, rfl, rfl, rfl⟩
  · have hp := padToByte_le_capBits hs.wpos
    have hpad := toNat_ofNat_of_le_capBits hs.config hp
    refine ⟨_, _, exec_bsFlush s, hpad, ?_⟩
    rw [toNat_ofNat_of_le_capBits hs.config (by omega), hpad]
  · refine ⟨_, exec_bsRinit s, toNat_ofNat_of_le_capBits hs.config ?_⟩
    exact Nat.mul_le_mul_left 8 hs.rlen

/-- Settles O23: where the bits fit the answer is `State.put`, whose memory holds them. -/
theorem bsWrAppendsThePattern : Obligations.BsWrAppendsThePattern := by
  intro s n hs _
  have hexec := exec_bsWr n hs.config
  refine ⟨fun hfit => ?_, fun hfull => ⟨?_, rfl⟩, rfl⟩
  · rw [if_pos hfit] at hexec
    refine ⟨_, _, putList_written hs.memory _ _, ?_, hexec⟩
    rw [bitsOf_length, cursor_add_toNat hs.config hfit]
  · rwa [if_neg (by omega)] at hexec

/-- Settles O25: where the bits remain the result is `streamValue`, which fits a register as n ≤ 32. -/
theorem bsRdTakesTheNextBits : Obligations.BsRdTakesTheNextBits := by
  intro s n hs hn
  have hexec := exec_bsRd n hs.rlimit
  refine ⟨fun hfit => ?_, fun hshort => ⟨?_, rfl⟩, rfl⟩
  · rw [if_pos hfit] at hexec
    refine ⟨_, _, hexec, cursor_add_toNat hs.config (by have := hs.rlimit; omega), Nat.mod_eq_of_lt ?_⟩
    exact (streamValue_lt ..).trans_le (Nat.pow_le_pow_right (by omega) hn)
  · rwa [if_neg (by omega)] at hexec

/-! ## Stretches of the stream -/

/-- The stream positions from `p` on hold `bs`. -/
def Memory.Holds (m : Memory) (p : Nat) (bs : List Bool) : Prop :=
  ∀ i, i < bs.length → m.bit (p + i) = bs.getD i false

/-- A stretch written from a byte boundary on holds what was written, whatever the memory held. -/
theorem written_holds {m n : Memory} {p : Nat} {bs : List Bool} (h : BitsWritten m n p bs) (hp : p % 8 = 0) :
    n.Holds p bs :=
  fun _ hi => written_bit h hi fun hne => absurd hp hne

theorem holds_append {m : Memory} {p : Nat} {as bs : List Bool} (h : m.Holds p (as ++ bs)) :
    m.Holds p as ∧ m.Holds (p + as.length) bs := by
  refine ⟨fun i hi => ?_, fun i hi => ?_⟩
  · rw [h i (by rw [List.length_append]; omega), List.getD_append _ _ _ _ hi]
  · rw [Nat.add_assoc, h (as.length + i) (by rw [List.length_append]; omega),
      List.getD_append_right _ _ _ _ (by omega), Nat.add_sub_cancel_left]

theorem streamValue_of_holds {m : Memory} {p v k : Nat} (h : m.Holds p (bitsOf v k)) :
    streamValue m p k = v % 2 ^ k :=
  streamValue_of_bits fun i hi => by
    have hlen : i < (bitsOf v k).length := by rwa [bitsOf_length]
    rw [h i hlen, List.getD_eq_getElem _ _ hlen, bitsOf_getElem]

/-! ## Lists of writes and of reads (rule R160) -/

/-- The bits of a list of patterns and lengths, in stream order. -/
def patternBits : List (Word × Nat) → List Bool
  | [] => []
  | p :: ps => bitsOf p.1.toNat p.2 ++ patternBits ps

theorem patternBits_length (ps : List (Word × Nat)) : (patternBits ps).length = (ps.map Prod.snd).sum := by
  induction ps with
  | nil => rfl
  | cons p ps ih => simp [patternBits, ih]

/-- The writes of a list that fits put its bits at the cursor, and leave nothing else but the last pattern in
`ARG0`. -/
theorem runPuts_eq_put (ps : List (Word × Nat)) : ∀ {s : State}, s.config.wf →
    s.bsWpos.toNat + (patternBits ps).length ≤ s.capBits →
    ∃ a, runPuts ps s = .next (State.put { s with arg0 := a } (patternBits ps)) := by
  induction ps with
  | nil => exact fun {s} _ _ => ⟨s.arg0, by rw [patternBits, put_nil]; rfl⟩
  | cons p ps ih =>
    obtain ⟨v, n⟩ := p
    intro s hc hfit
    simp only [patternBits, List.length_append, ← Nat.add_assoc] at hfit
    have hfirst : s.bsWpos.toNat + (bitsOf v.toNat n).length ≤ s.capBits := by omega
    have hexec := (exec_bsWr n (s := { s with arg0 := v }) hc).trans
      (congrArg _ (if_pos (by rwa [bitsOf_length] at hfirst)))
    have hpos := put_bsWpos (s := { s with arg0 := v }) hc hfirst
    obtain ⟨a, hrest⟩ := ih (s := State.put { s with arg0 := v } (bitsOf v.toNat n)) hc (by rwa [hpos])
    refine ⟨a, ?_⟩
    rw [runPuts, hexec, patternBits, ← put_append (s := { s with arg0 := a }) _ _ hc hfirst]
    exact hrest

/-- `BS.FLUSH` and, its result in `BS_RLEN`, `BS.RINIT` put the whole bytes written before the read cursor. -/
theorem flush_rinit {t : State} (hc : t.config.wf) (hw : t.bsWpos.toNat ≤ t.capBits) :
    ∃ u v, exec .bsFlush t = .next u ∧ exec .bsRinit { u with bsRlen := u.res } = .next v ∧
      8 * u.res.toNat = padToByte t.bsWpos.toNat ∧ v.bsRlimit.toNat = padToByte t.bsWpos.toNat ∧ v.bsRpos = 0 ∧
      v.bsmem = t.bsmem ∧ v.config = t.config ∧ v.err = t.err := by
  have hpad := padToByte_le_capBits hw
  have hbytes : 8 * (BitVec.ofNat 32 (padToByte t.bsWpos.toNat / 8)).toNat = padToByte t.bsWpos.toNat := by
    rw [toNat_ofNat_of_le_capBits hc (by omega), padToByte]
    omega
  refine ⟨_, _, exec_bsFlush t, exec_bsRinit _, hbytes, ?_, rfl, rfl, rfl, rfl⟩
  rw [hbytes, toNat_ofNat_of_le_capBits hc hpad]

/-- Reads of the lengths of a list whose bits lie at the read cursor give its patterns. -/
theorem runResults_bsRd (ps : List (Word × Nat)) : ∀ {s : State}, s.config.wf → s.bsRlimit.toNat ≤ s.capBits →
    s.bsRpos.toNat + (patternBits ps).length ≤ s.bsRlimit.toNat → s.bsmem.Holds s.bsRpos.toNat (patternBits ps) →
    ∃ w, runResults (ps.map fun p => .bsRd p.2) s =
        some (ps.map fun p => BitVec.ofNat 32 (p.1.toNat % 2 ^ p.2), w) ∧
      w.bsRpos.toNat = s.bsRpos.toNat + (patternBits ps).length ∧ w.bsRlimit = s.bsRlimit ∧ w.config = s.config ∧
      w.err = s.err := by
  induction ps with
  | nil => exact fun {s} _ _ _ _ => ⟨s, rfl, rfl, rfl, rfl, rfl⟩
  | cons p ps ih =>
    obtain ⟨v, n⟩ := p
    intro s hc hl hfit hbits
    obtain ⟨hfirst, hrest⟩ := holds_append hbits
    simp only [patternBits, List.length_append, bitsOf_length, ← Nat.add_assoc] at hfit hrest ⊢
    have hpos : (s.bsRpos + BitVec.ofNat 32 n).toNat = s.bsRpos.toNat + n := cursor_add_toNat hc (by omega)
    have hexec := exec_bsRd n hl
    rw [if_pos (by omega), streamValue_of_holds hfirst] at hexec
    rw [← hpos] at hfit hrest ⊢
    obtain ⟨w, hrun, hend⟩ := ih (s := { s with
      bsRpos := s.bsRpos + BitVec.ofNat 32 n
      res := BitVec.ofNat 32 (v.toNat % 2 ^ n)
      resHi := 0 }) hc hl hfit hrest
    refine ⟨w, ?_, hend⟩
    rw [List.map_cons, runResults, hexec]
    simp only [hrun, Option.map_some, List.map_cons]

/-- Settles O26: from position 0 on the memory holds the written bits, and the reads follow them. -/
theorem bitStreamRoundTrip : Obligations.BitStreamRoundTrip := by
  intro s ps hs _ hsum
  rw [← patternBits_length] at hsum ⊢
  have hfit : 0 + (patternBits ps).length ≤ s.capBits := by rwa [Nat.zero_add]
  obtain ⟨a, hputs⟩ := runPuts_eq_put ps (s := { s with bsWpos := 0 }) hs.config hfit
  have hwpos := (put_bsWpos (s := { s with bsWpos := 0, arg0 := a }) hs.config hfit).trans (Nat.zero_add _)
  have hwritten := written_holds (putList_written hs.memory 0 (patternBits ps)) rfl
  obtain ⟨u, v, hflush, hrinit, hres, hlimit, hrpos, hmem, hconfig, herr⟩ :=
    flush_rinit (t := State.put { s with bsWpos := 0, arg0 := a } (patternBits ps)) hs.config (hwpos.trans_le hsum)
  rw [hwpos] at hres hlimit
  have hstart : v.bsRpos.toNat = 0 := by rw [hrpos]; rfl
  have hcap : v.bsRlimit.toNat ≤ v.capBits := by
    rw [hlimit, State.capBits, hconfig]
    exact padToByte_le_capBits hsum
  have hdata : v.bsRpos.toNat + (patternBits ps).length ≤ v.bsRlimit.toNat := by
    rw [hstart, hlimit, padToByte]
    omega
  obtain ⟨w, hrun, hwrpos, hwlimit, hwconfig, hwerr⟩ := runResults_bsRd ps (hconfig ▸ hs.config) hcap hdata
    (by rw [hstart, hmem]; exact hwritten)
  refine ⟨_, _, u, v, w, _, exec_bsWinit s, hputs, hflush, hrinit, hrun, rfl, hwerr.trans herr, fun n _ hmore => ?_⟩
  have hwcap : w.bsRlimit.toNat ≤ w.capBits := by rwa [hwlimit, State.capBits, hwconfig]
  rw [Raises, exec_bsRd n hwcap, if_neg (by rw [hwrpos, hwlimit, hlimit, hstart]; omega)]

end Sys2Proof.Machine
end

section
/-! O31, O28, O29, O30: the frequency commands. Each command's meaning is one equation with its gates as the branches;
counting a list of bytes is one equation too, whose right side sees the bytes' counts and number alone. -/

namespace Sys2Proof.Machine

/-! ## What each command answers (42_frequency.md) -/

/-- A gate at the head of a command's pseudocode. -/
theorem conclude_gate (s : State) (c : Bool) (e : ErrCode) (f : Unit → Res State) :
    conclude s (guardRaise c e >>= f) = if c = true then conclude s (f ()) else .next (raiseError e s) := by
  cases c <;> rfl

/-- `s` as `FT.CLR` leaves it (rule R200). -/
def State.clearCounts (s : State) : State :=
  { s with freq := tfill 0, cum := tfill 0, total := 0, ftNsym := 0, cumValid := true }

theorem exec_ftClr (s : State) : exec .ftClr s =
    if s.acState = .idle then .next s.clearCounts else .next (raiseError .badState s) := by
  simp only [exec, execFtClr, State.requireSession, conclude_gate, beq_iff_eq, conclude_ok, State.clearCounts]

/-- `s` with one more occurrence of `x` counted (rule R201). -/
def State.countSymbol (s : State) (x : Sym) : State :=
  { s with freq := tset s.freq x (tget s.freq x + 1), total := s.total + 1, cumValid := false }

theorem exec_ftAcc (x : Sym) (s : State) : exec (.ftAcc x) s =
    if s.acState = .idle then
      if (tget s.freq x).toNat ≠ 2 ^ 32 - 1 then .next (s.countSymbol x) else .next (raiseError .countOverflow s)
    else .next (raiseError .badState s) := by
  simp only [exec, execFtAcc, State.requireSession, conclude_gate, beq_iff_eq, decide_eq_true_eq, conclude_ok]
  rfl

/-- `s` with the count of `x` set to `ARG0` (rule R202). -/
def State.loadCount (s : State) (x : Sym) : State :=
  { s with
    total := s.total - (tget s.freq x).setWidth 64 + s.arg0.setWidth 64
    freq := tset s.freq x s.arg0
    cumValid := false }

theorem exec_ftLd (x : Sym) (s : State) : exec (.ftLd x) s =
    if s.acState = .idle then .next (s.loadCount x) else .next (raiseError .badState s) := by
  simp only [exec, execFtLd, State.requireSession, conclude_gate, beq_iff_eq, conclude_ok, State.countOperand,
    State.loadCount]

theorem exec_ftRd (x : Sym) (s : State) : exec (.ftRd x) s = .next { s with res := tget s.freq x, resHi := 0 } := rfl

theorem exec_ftCum (s : State) : exec .ftCum s =
    .next { s with cum := cumTable s.freq, ftNsym := BitVec.ofNat 9 (nonzeroCounts s.freq), cumValid := true } := rfl

theorem exec_ftCrd (x : Sym) (s : State) : exec (.ftCrd x) s =
    if s.cumValid = true then .next (s.setResult64 (tget s.cum x)) else .next (raiseError .badState s) := by
  simp only [exec, execFtCrd, State.requireCum, conclude_gate, conclude_ok]

theorem ftClr_clears {s : State} (hidle : s.acState = .idle) : exec .ftClr s = .next s.clearCounts := by
  rw [exec_ftClr, if_pos hidle]

theorem ftAcc_counts {s : State} {x : Sym} (hidle : s.acState = .idle) (hfit : (tget s.freq x).toNat ≠ 2 ^ 32 - 1) :
    exec (.ftAcc x) s = .next (s.countSymbol x) := by
  rw [exec_ftAcc, if_pos hidle, if_pos hfit]

theorem ftLd_loads {s : State} (x : Sym) (hidle : s.acState = .idle) :
    exec (.ftLd x) s = .next (s.loadCount x) := by
  rw [exec_ftLd, if_pos hidle]

/-- While a session is open the three commands that write the counts raise (rule R206). -/
theorem countCommands_raise_in_session {s : State} (hopen : s.acState ≠ .idle) (x : Sym) :
    Raises .ftClr s .badState ∧ Raises (.ftAcc x) s .badState ∧ Raises (.ftLd x) s .badState := by
  refine ⟨?_, ?_, ?_⟩
  · rw [Raises, exec_ftClr, if_neg hopen]
  · rw [Raises, exec_ftAcc, if_neg hopen]
  · rw [Raises, exec_ftLd, if_neg hopen]

theorem countSymbol_same (s : State) (x : Sym) : tget (s.countSymbol x).freq x = tget s.freq x + 1 :=
  tget_tset_same ..

theorem countSymbol_other (s : State) {x y : Sym} (h : y ≠ x) : tget (s.countSymbol x).freq y = tget s.freq y :=
  tget_tset_other _ _ h

/-- Below the overflow a count is one more as a number. -/
theorem countSymbol_same_toNat {s : State} {x : Sym} (h : (tget s.freq x).toNat ≠ 2 ^ 32 - 1) :
    (tget (s.countSymbol x).freq x).toNat = (tget s.freq x).toNat + 1 := by
  rw [countSymbol_same]
  bv_omega

/-! ## Counting a list of bytes (rule R208) -/

/-- `s` with the occurrences of each symbol in `bs` added to its count. -/
def State.tally (s : State) (bs : List Sym) : State :=
  { s with
    freq := tmake fun x => tget s.freq x + BitVec.ofNat 32 (bs.count x)
    total := s.total + BitVec.ofNat 64 bs.length
    cumValid := s.cumValid && bs.isEmpty }

theorem tally_nil (s : State) : s.tally [] = s := by
  have hfreq : tmake (tget s.freq) = s.freq := table_ext fun x => tget_tmake _ x
  simp [State.tally, hfreq]

theorem tally_cons (s : State) (x : Sym) (bs : List Sym) : (s.countSymbol x).tally bs = s.tally (x :: bs) := by
  have hcount (y : Sym) : tget (s.countSymbol x).freq y + BitVec.ofNat 32 (bs.count y) =
      tget s.freq y + BitVec.ofNat 32 ((x :: bs).count y) := by
    by_cases h : y = x
    · rw [h, countSymbol_same, List.count_cons_self, Nat.add_comm, BitVec.ofNat_add, BitVec.add_assoc]
      rfl
    · rw [countSymbol_other s h, List.count_cons_of_ne (Ne.symm h)]
  have htotal : (s.countSymbol x).total + BitVec.ofNat 64 bs.length = s.total + BitVec.ofNat 64 (x :: bs).length := by
    rw [List.length_cons, Nat.add_comm, BitVec.ofNat_add, ← BitVec.add_assoc]
    rfl
  simp only [State.tally, hcount, htotal, List.isEmpty_cons, Bool.and_false]
  rfl

/-- A tally does not see the order of the bytes. -/
theorem tally_perm (s : State) {bs bs' : List Sym} (h : bs'.Perm bs) : s.tally bs' = s.tally bs := by
  simp only [State.tally, h.count_eq, h.length_eq, h.isEmpty_eq]

theorem runCommands_cons {i : Instr} {s t : State} (is : List Instr) (h : exec i s = .next t) :
    runCommands (i :: is) s = runCommands is t := by
  rw [runCommands, h]

/-- One `FT.ACC` for each byte tallies the bytes, where every count stays inside its width. -/
theorem runCommands_ftAcc (bs : List Sym) : ∀ {s : State}, s.acState = .idle →
    (∀ x, (tget s.freq x).toNat + bs.count x < 2 ^ 32) → runCommands (bs.map .ftAcc) s = .next (s.tally bs) := by
  induction bs with
  | nil => exact fun {s} _ _ => by rw [tally_nil]; rfl
  | cons x bs ih =>
    intro s hidle hfit
    have hbelow : (tget s.freq x).toNat ≠ 2 ^ 32 - 1 := by
      have := hfit x
      rw [List.count_cons_self] at this
      omega
    have hrest (y : Sym) : (tget (s.countSymbol x).freq y).toNat + bs.count y < 2 ^ 32 := by
      have := hfit y
      by_cases h : y = x
      · rw [h, List.count_cons_self] at this
        rw [h, countSymbol_same_toNat hbelow]
        omega
      · rwa [countSymbol_other s h, ← List.count_cons_of_ne (Ne.symm h)]
    rw [List.map_cons, runCommands_cons _ (ftAcc_counts hidle hbelow),
      ih (s := s.countSymbol x) hidle hrest, tally_cons]

/-- The counts of a list sum up to its length. -/
theorem sumCounts_of_counts {freq : Table Word} {bs : List Sym} (h : ∀ x, (tget freq x).toNat = bs.count x) :
    sumCounts freq = bs.length := by
  have hall : ∀ x ∈ (bs : Multiset Sym), x ∈ allSyms.toFinset := fun x _ => List.mem_toFinset.2 (mem_allSyms x)
  calc sumCounts freq = (allSyms.map (bs.count ·)).sum := by rw [sumCounts, funext h]
    _ = ∑ x ∈ allSyms.toFinset, bs.count x := (List.sum_toFinset _ allSyms_nodup).symm
    _ = bs.length := by simpa only [Multiset.coe_count, Multiset.coe_card] using Multiset.sum_count_eq_card hall

/-- `FT.CLR` and one `FT.ACC` for each byte tally the bytes from counts of 0. -/
theorem runCommands_count {s : State} {bs : List Sym} (hidle : s.acState = .idle) (hfit : ∀ x, bs.count x < 2 ^ 32) :
    runCommands (.ftClr :: bs.map .ftAcc) s = .next (s.clearCounts.tally bs) := by
  have hcounts (x : Sym) : (tget s.clearCounts.freq x).toNat + bs.count x < 2 ^ 32 := by
    rw [State.clearCounts, tget_tfill]
    exact (Nat.zero_add _).trans_lt (hfit x)
  rw [runCommands_cons _ (ftClr_clears hidle), runCommands_ftAcc bs (s := s.clearCounts) hidle hcounts]

/-- Settles O31: both runs end in a tally from counts of 0, which does not see the order of the bytes. -/
theorem countingIsOrderFree : Obligations.CountingIsOrderFree := by
  intro s bs hidle hfit
  have hcount (x : Sym) : (tget (s.clearCounts.tally bs).freq x).toNat = bs.count x := by
    simpa [State.tally, State.clearCounts] using hfit x
  have htotal : (s.clearCounts.tally bs).total.toNat = bs.length := by
    have hlength := sumCounts_of_counts hcount ▸ sumCounts_lt (s.clearCounts.tally bs).freq
    have hstored : (s.clearCounts.tally bs).total = BitVec.ofNat 64 bs.length := BitVec.zero_add _
    rw [hstored, BitVec.toNat_ofNat, Nat.mod_eq_of_lt (by omega)]
  refine ⟨⟨_, runCommands_count hidle hfit, rfl, hcount, htotal⟩, fun bs' hperm => ?_⟩
  rw [runCommands_count hidle hfit, runCommands_count hidle fun x => hperm.count_eq x ▸ hfit x, tally_perm _ hperm]

/-! ## Totals and running sums stay exact -/

/-- A total that agrees with the counts is below 2^40, so one more fits its register (rule R30). -/
theorem total_lt {s : State} (hs : CountsAgree s) : s.total.toNat < 2 ^ 40 :=
  hs.total ▸ sumCounts_lt s.freq

theorem count_le_total {s : State} (hs : CountsAgree s) (x : Sym) : (tget s.freq x).toNat ≤ s.total.toNat :=
  hs.total ▸ (count_le_sumUpTo s.freq x).trans (sumUpTo_le s.freq x)

theorem countSymbol_total {s : State} (hs : CountsAgree s) (x : Sym) :
    (s.countSymbol x).total.toNat = s.total.toNat + 1 := by
  have := total_lt hs
  rw [State.countSymbol]
  bv_omega

/-- The difference of rule R202 does not wrap: a count is part of the total. -/
theorem loadCount_total {s : State} (hs : CountsAgree s) (x : Sym) :
    (s.loadCount x).total.toNat + (tget s.freq x).toNat = s.total.toNat + s.arg0.toNat := by
  have := total_lt hs
  have := count_le_total hs x
  rw [State.loadCount]
  bv_omega

/-- The number of present symbols fits `FT_NSYM` (rule R33). -/
theorem nsym_toNat (freq : Table Word) : (BitVec.ofNat 9 (nonzeroCounts freq)).toNat = nonzeroCounts freq :=
  Nat.mod_eq_of_lt ((countNonzero_le freq).trans_lt (by decide))

/-- The last running sum is the total (rules R31, R207). -/
theorem cumTable_last {s : State} (hs : CountsAgree s) : tget (cumTable s.freq) 255 = s.total :=
  BitVec.eq_of_toNat_eq (by rw [cumTable_toNat, sumUpTo_last, hs.total])

/-- While `CUM_VALID` = 1 the table of rule R204 is already stored. -/
theorem cumTable_of_valid {s : State} (hs : CountsAgree s) (hvalid : s.cumValid = true) :
    cumTable s.freq = s.cum :=
  table_ext fun x => BitVec.eq_of_toNat_eq (by rw [cumTable_toNat, hs.cum hvalid])

theorem nsym_of_valid {s : State} (hs : CountsAgree s) (hvalid : s.cumValid = true) :
    BitVec.ofNat 9 (nonzeroCounts s.freq) = s.ftNsym :=
  BitVec.eq_of_toNat_eq (by rw [nsym_toNat, hs.nsym hvalid])

theorem exec_ftCum_of_valid {s : State} (hs : CountsAgree s) (hvalid : s.cumValid = true) :
    exec .ftCum s = .next s := by
  rw [exec_ftCum, cumTable_of_valid hs hvalid, nsym_of_valid hs hvalid, ← hvalid]

/-- Settles O28: the three equations, with the totals of a state whose counts agree exact. -/
theorem countCommandResults : Obligations.CountCommandResults := by
  refine ⟨fun s hidle => ?_, fun s x hidle hs hfit => ?_, fun s x hidle hfull => ?_, fun s x hidle hs => ?_,
    fun s x hopen => countCommands_raise_in_session hopen x, rfl, fun x => ⟨rfl, rfl⟩⟩
  · exact ⟨_, ftClr_clears hidle, rfl, fun x => ⟨tget_tfill 0 x, tget_tfill 0 x⟩, rfl, rfl, rfl⟩
  · have hframe : s.countSymbol x = frameOf (.ftAcc x) s (s.countSymbol x) := by simp [State.countSymbol, frameOf]
    exact ⟨_, ftAcc_counts hidle hfit, hframe, countSymbol_same_toNat hfit, countSymbol_total hs x, rfl⟩
  · rw [Raises, exec_ftAcc, if_pos hidle, if_neg (not_not_intro hfull)]
  · have hframe : s.loadCount x = frameOf (.ftLd x) s (s.loadCount x) := by simp [State.loadCount, frameOf]
    exact ⟨_, ftLd_loads x hidle, hframe, tget_tset_same .., loadCount_total hs x, rfl⟩

/-- Settles O29: the stored table and number are the exact ones, which an open session already holds. -/
theorem ftCumStoresRunningSums : Obligations.FtCumStoresRunningSums :=
  ⟨fun s hs => ⟨_, exec_ftCum s, rfl, cumTable_toNat s.freq, nsym_toNat s.freq, rfl, cumTable_last hs⟩,
    fun _ hs hsession hopen => exec_ftCum_of_valid hs (hsession hopen).cumValid, rfl⟩

/-- Settles O30: the three equations; the two halves of a 64-bit result make up the entry. -/
theorem countReadResults : Obligations.CountReadResults := by
  refine ⟨fun s x => exec_ftRd x s, fun s x hvalid => ?_, fun s x hstale => ?_, fun x => ⟨rfl, rfl⟩⟩
  · refine ⟨_, _, by rw [exec_ftCrd, if_pos hvalid]; rfl, ?_⟩
    rw [BitVec.extractLsb'_append_extractLsb'_eq_extractLsb' (by rfl)]
    simp
  · rw [Raises, exec_ftCrd, if_neg (by simp [hstale])]

end Sys2Proof.Machine
end

section
/-! O12: what can change the counts while a session is open. -/

namespace Sys2Proof.Machine

/-- The engine's turn with a command latched runs it (rules R94, R350). -/
theorem runs_of_engineTurn {s : State} {i : Instr} (hturn : s.engineTurn = true) (hdecode : decode s.pendCmd = some i) :
    Runs s i := by
  simp only [State.engineTurn, Bool.and_eq_true, Bool.or_eq_true, beq_iff_eq, List.isEmpty_iff] at hturn
  exact ⟨hturn.1, hturn.2, hdecode⟩

/-- The host's turn changes only what the host can write, and the latch of a command (rules R25, R357). -/
theorem hostTurn_frame {s t : State} (h : hostTurn s = .next t) : t = { s with
    pendCmd := t.pendCmd, busy := t.busy, lost := t.lost, arg0 := t.arg0, bsRlen := t.bsRlen, memAddr := t.memAddr,
    bsmem := t.bsmem, host := t.host } := by
  obtain ⟨-, rfl⟩ | ⟨_, _, v, ops, off, -, -, rfl⟩ | ⟨_, _, ops, off, -, -, rfl⟩ | ⟨ops, -, rfl⟩ | ⟨ops, -, rfl⟩ :=
    hostTurn_cases h
  · rfl
  · rw [hostWrite_frame, countAccess_eq]
    rfl
  · rw [hostRead_frame, countAccess_eq]
    rfl
  · split
    · rw [countAccess_eq]
    · rfl
  · rw [countAccess_eq]
    rfl

theorem counts_of_raises {i : Instr} {s t : State} {e : ErrCode} (hraise : Raises i s e) (h : exec i s = .next t) :
    t.freq = s.freq ∧ t.total = s.total := by
  cases hraise.symm.trans h
  exact ⟨rfl, rfl⟩

/-- A command inside a session keeps the counts, but for `CTL.RESET`: the rows of rule R45 that hold `FREQ` or
`TOTAL` are those of the three commands that rule R206 locks. -/
theorem exec_keeps_counts_in_session {i : Instr} {s t : State} (hopen : s.acState ≠ .idle) (h : exec i s = .next t) :
    (t.freq = s.freq ∧ t.total = s.total) ∨ i = .ctlReset := by
  obtain hframe | ⟨e, rfl⟩ := exec_frame h
  · cases i with
    | ctlReset => exact .inr rfl
    | ftClr =>
      obtain ⟨hraise, -, -⟩ := countCommands_raise_in_session hopen 0
      exact .inl (counts_of_raises hraise h)
    | ftAcc x =>
      obtain ⟨-, hraise, -⟩ := countCommands_raise_in_session hopen x
      exact .inl (counts_of_raises hraise h)
    | ftLd x =>
      obtain ⟨-, -, hraise⟩ := countCommands_raise_in_session hopen x
      exact .inl (counts_of_raises hraise h)
    | _ =>
      rw [hframe]
      exact .inl ⟨rfl, rfl⟩
  · exact .inl ⟨rfl, rfl⟩

/-- A step inside a session keeps the counts, whoever's turn it is, but for `CTL.RESET` (rule R206). -/
theorem step_keeps_counts_in_session {s t : State} (hopen : s.acState ≠ .idle) (h : step s = .next t) :
    (t.freq = s.freq ∧ t.total = s.total) ∨ Runs s .ctlReset := by
  cases hturn : s.engineTurn with
  | false =>
    have hhost : hostTurn s = .next t := step_host hturn ▸ h
    rw [hostTurn_frame hhost]
    exact .inl ⟨rfl, rfl⟩
  | true =>
    obtain ⟨-, -, rfl⟩ | ⟨-, -, rfl⟩ | ⟨i, u, hdecode, -, hexec, rfl⟩ := engineStep_cases (step_engine hturn ▸ h)
    · exact .inl ⟨rfl, rfl⟩
    · exact .inl ⟨rfl, rfl⟩
    · obtain hkept | rfl := exec_keeps_counts_in_session hopen hexec
      · exact .inl hkept
      · exact .inr (runs_of_engineTurn hturn hdecode)

/-- Settles O12: the commands' equations inside a session, and what a step can write there. -/
theorem sessionLocksTheCounts : Obligations.SessionLocksTheCounts := by
  refine ⟨fun s x hopen => ?_, fun s t => step_keeps_counts_in_session⟩
  obtain ⟨hclr, hacc, hld⟩ := countCommands_raise_in_session hopen x
  have hcrd (hvalid : s.cumValid = true) : exec (.ftCrd x) s = .next (s.setResult64 (tget s.cum x)) := by
    rw [exec_ftCrd, if_pos hvalid]
  exact ⟨hclr, hacc, hld, exec_ftRd x s, ⟨_, exec_ftCum s, rfl⟩, fun hvalid => ⟨_, hcrd hvalid, rfl⟩⟩

end Sys2Proof.Machine
end

section
/-! The code space that `Canon` hands out (rule R252): the codes take their shares of it one after the other, so the
FAIL test is the Kraft inequality, and a code that starts another is that code. -/

namespace Sys2Proof.Machine

/-- What the first `i` entries of `Canon`'s list take of the code space, in units of 2^−255. -/
def spaceTaken (len : Table Byte) (i : Nat) : Nat :=
  (((codeOrder len).take i).map fun e => 2 ^ (255 - e.1)).sum

theorem spaceTaken_succ {len : Table Byte} {i : Nat} (h : i < (codeOrder len).length) :
    spaceTaken len (i + 1) = spaceTaken len i + 2 ^ (255 - (codeOrder len)[i].1) := by
  rw [spaceTaken, ← List.take_append_getElem h, List.map_append, List.sum_append, List.map_singleton,
    List.sum_singleton, spaceTaken]

theorem spaceTaken_mono {len : Table Byte} {i j : Nat} (h : i ≤ j) : spaceTaken len i ≤ spaceTaken len j := by
  have hsub := (List.take_sublist i ((codeOrder len).take j)).map fun e => 2 ^ (255 - e.1)
  rw [List.take_take, min_eq_left h] at hsub
  exact hsub.sum_le_sum fun _ _ => Nat.zero_le _

/-- All the entries together take the Kraft sum. -/
theorem spaceTaken_length (len : Table Byte) : spaceTaken len (codeOrder len).length = kraftSum len := by
  rw [spaceTaken, List.take_length, ((codeOrder_perm len).map _).sum_eq, List.map_map]
  rfl

theorem length_of_codeOrder_le {len : Table Byte} {e : Nat × Sym} (h : e ∈ codeOrder len) : e.1 ≤ 255 := by
  obtain ⟨hlen, -⟩ := mem_codeOrder.1 h
  have := (tget len e.2).isLt
  omega

theorem assignCodes_length (prev : Option (Nat × Nat)) (es : List (Nat × Sym)) :
    (assignCodes prev es).length = es.length := by
  rw [← congrArg List.length (assignCodes_symbols es prev), List.length_map]

/-- The code of the i-th entry, scaled to the code space, is what the entries before it took. -/
theorem assignCodes_getElem? {len : Table Byte} {i : Nat} (h : i < (codeOrder len).length) :
    ∃ c, (assignCodes none (codeOrder len))[i]? = some ((codeOrder len)[i].2, (codeOrder len)[i].1, c) ∧
      c * 2 ^ (255 - (codeOrder len)[i].1) = spaceTaken len i := by
  have hsyms := assignCodes_symbols (codeOrder len) none
  have hi : i < (assignCodes none (codeOrder len)).length := by rwa [assignCodes_length]
  have hentry : ((assignCodes none (codeOrder len))[i].2.1, (assignCodes none (codeOrder len))[i].1) =
      (codeOrder len)[i] := by
    rw [List.getElem_of_eq hsyms.symm h, List.getElem_map]
  have hspace := assignCodes_space (codeOrder len) none (codeOrder_sorted len)
    (fun e he => ⟨length_of_codeOrder_le he, nofun⟩) i hi
  refine ⟨(assignCodes none (codeOrder len))[i].2.2, ?_, ?_⟩
  · rw [List.getElem?_eq_getElem hi, ← hentry]
  · rw [← hentry, hspace, codeSpace, Nat.zero_add, spaceTaken]

/-- A code fits its length exactly where its share ends inside the code space. -/
theorem lt_two_pow_iff_share {c l : Nat} (hl : l ≤ 255) :
    c < 2 ^ l ↔ c * 2 ^ (255 - l) + 2 ^ (255 - l) ≤ 2 ^ 255 := by
  have hpow : 2 ^ 255 = 2 ^ l * 2 ^ (255 - l) := by rw [← Nat.pow_add, Nat.add_sub_cancel' hl]
  rw [hpow, ← Nat.succ_mul, Nat.mul_le_mul_right_iff (Nat.two_pow_pos _)]
  exact Nat.lt_iff_add_one_le

/-- No code fails exactly where every share ends inside the code space. -/
theorem codesFit_iff_shares {len : Table Byte} :
    codesFit len = true ↔ ∀ i, i < (codeOrder len).length → spaceTaken len (i + 1) ≤ 2 ^ 255 := by
  have hshare : ∀ i, i < (codeOrder len).length → ∀ e, (assignCodes none (codeOrder len))[i]? = some e →
      (e.2.2 < 2 ^ e.2.1 ↔ spaceTaken len (i + 1) ≤ 2 ^ 255) := by
    intro i h e he
    obtain ⟨c, hc, hspace⟩ := assignCodes_getElem? h
    cases hc.symm.trans he
    rw [spaceTaken_succ h, ← hspace]
    exact lt_two_pow_iff_share (length_of_codeOrder_le (List.getElem_mem h))
  simp only [codesFit, List.all_eq_true, decide_eq_true_eq]
  constructor
  · intro hfit i h
    obtain ⟨c, hc, -⟩ := assignCodes_getElem? h
    exact (hshare i h _ hc).1 (hfit _ (List.mem_of_getElem? hc))
  · intro hfit e he
    obtain ⟨i, h, rfl⟩ := List.getElem_of_mem he
    have hi : i < (codeOrder len).length := by rwa [assignCodes_length] at h
    exact (hshare i hi _ (List.getElem?_eq_getElem h)).2 (hfit i hi)

/-- The FAIL test of rule R252 is the Kraft inequality. -/
theorem codesFit_iff_kraft {len : Table Byte} : codesFit len = true ↔ kraftSum len ≤ 2 ^ 255 := by
  rw [codesFit_iff_shares, ← spaceTaken_length]
  constructor
  · intro hfit
    cases hlength : (codeOrder len).length with
    | zero => exact Nat.zero_le _
    | succ i => exact hfit i (by omega)
  · exact fun hkraft i h => (spaceTaken_mono h).trans hkraft

theorem canon_of_kraft {len : Table Byte} (h : kraftSum len ≤ 2 ^ 255) : canon len = some (canonCodes len) := by
  rw [canon, if_pos (codesFit_iff_kraft.2 h)]

theorem canon_fails {len : Table Byte} (h : 2 ^ 255 < kraftSum len) : canon len = none := by
  rw [canon, if_neg (by rw [codesFit_iff_kraft]; omega)]

theorem canon_some {len : Table Byte} {code : Table CodeWord} (h : canon len = some code) :
    codesFit len = true ∧ code = canonCodes len := by
  unfold canon at h
  split at h
  · next hfit => exact ⟨hfit, (Option.some.inj h).symm⟩
  · cases h

/-- The code of a symbol, scaled to the code space, is where its share begins. -/
theorem canon_share {len : Table Byte} {code : Table CodeWord} (h : canon len = some code) {i : Nat}
    (hi : i < (codeOrder len).length) :
    (tget code (codeOrder len)[i].2).toNat * 2 ^ (255 - (codeOrder len)[i].1) = spaceTaken len i := by
  obtain ⟨hfit, rfl⟩ := canon_some h
  obtain ⟨c, hc, hspace⟩ := assignCodes_getElem? hi
  have hkeys : ((assignCodes none (codeOrder len)).map Prod.fst).Nodup := by
    have hnodup := codeOrder_nodup len
    rwa [← assignCodes_symbols (codeOrder len) none, List.map_map] at hnodup
  have hlookup := lookup_of_mem hkeys (List.mem_of_getElem? hc)
  have hlt : c < 2 ^ 255 := by
    simp only [codesFit, List.all_eq_true, decide_eq_true_eq] at hfit
    exact (hfit _ (List.mem_of_getElem? hc)).trans_le
      (Nat.pow_le_pow_right (by omega) (length_of_codeOrder_le (List.getElem_mem hi)))
  rw [canonCodes, tget_tmake, hlookup, Option.map_some, Option.getD_some, BitVec.toNat_ofNat, Nat.mod_eq_of_lt hlt,
    hspace]

/-- Where a symbol with a code stands in `Canon`'s list. -/
theorem exists_codeOrder_getElem {len : Table Byte} {x : Sym} (hx : tget len x ≠ 0) :
    ∃ (i : Nat) (h : i < (codeOrder len).length), (codeOrder len)[i] = ((tget len x).toNat, x) :=
  List.getElem_of_mem (mem_codeOrder.2 ⟨rfl, hx⟩)

/-- A code that another one starts with is that one: their shares of the code space would overlap (rule R252). -/
theorem codePrefix_eq {len : Table Byte} {code : Table CodeWord} (h : canon len = some code) {x y : Sym}
    (hx : tget len x ≠ 0) (hy : tget len y ≠ 0) (hprefix : CodePrefix len code x y) : x = y := by
  obtain ⟨hle, hdiv⟩ := hprefix
  obtain ⟨i, hi, hxi⟩ := exists_codeOrder_getElem hx
  obtain ⟨j, hj, hyj⟩ := exists_codeOrder_getElem hy
  have hxspace := canon_share h hi
  have hyspace := canon_share h hj
  have hxnext := spaceTaken_succ hi
  have hynext := spaceTaken_succ hj
  simp only [hxi, hyj] at hxspace hyspace hxnext hynext
  have hpow : 2 ^ (255 - (tget len x).toNat) =
      2 ^ ((tget len y).toNat - (tget len x).toNat) * 2 ^ (255 - (tget len y).toNat) := by
    rw [← Nat.pow_add]
    congr 1
    have := (tget len y).isLt
    omega
  have hlow : spaceTaken len i ≤ spaceTaken len j := by
    rw [← hxspace, ← hyspace, hpow, ← Nat.mul_assoc, ← hdiv]
    exact Nat.mul_le_mul_right _ (Nat.div_mul_le_self ..)
  have hhigh : spaceTaken len j < spaceTaken len (i + 1) := by
    rw [hxnext, ← hxspace, ← hyspace, hpow, ← Nat.mul_assoc, ← Nat.add_mul, ← hdiv]
    exact Nat.mul_lt_mul_of_pos_right (Nat.lt_div_mul_add (Nat.two_pow_pos _)) (Nat.two_pow_pos _)
  have hshare := Nat.two_pow_pos (255 - (tget len y).toNat)
  have hij : i = j := by
    rcases Nat.lt_trichotomy i j with hlt | rfl | hgt
    · have := spaceTaken_mono (len := len) (show i + 1 ≤ j from hlt)
      omega
    · rfl
    · have := spaceTaken_mono (len := len) (show j + 1 ≤ i from hgt)
      omega
  subst hij
  exact congrArg Prod.snd (hxi.symm.trans hyj)

end Sys2Proof.Machine
end

section
/-! O37: the Kraft sum of a built table is the sum over the leaves of its tree. -/

namespace Sys2Proof.Machine

/-! ## The Kraft sum of a built table (rule R259) -/

/-- The Kraft sum of a built table, by the depths of its symbols. -/
theorem kraftSum_buildLengths (freq : Table Word) :
    kraftSum (buildLengths freq) = ((symbolDepths freq).map fun p => 2 ^ (255 - p.2)).sum := by
  have hpresent : (allSyms.filter fun x => tget (buildLengths freq) x != 0) =
      allSyms.filter fun x => tget freq x != 0 :=
    List.filter_congr fun x _ => by
      rw [Bool.eq_iff_iff, bne_iff_ne, bne_iff_ne]
      exact not_congr buildLengths_zero_iff
  rw [kraftSum, hpresent, ← ((symbolDepths_symbols freq).map _).sum_eq, List.map_map]
  refine congrArg List.sum (List.map_congr_left fun p hp => ?_)
  rw [Function.comp_apply, buildLengths_of_mem hp]

theorem symbolDepths_empty {freq : Table Word} (h : nonzeroCounts freq = 0) : symbolDepths freq = [] := by
  rw [← leafQueue_length, List.length_eq_zero_iff] at h
  rw [symbolDepths, h]

theorem symbolDepths_lone {freq : Table Word} (h : nonzeroCounts freq = 1) :
    ∃ n : HuffNode, symbolDepths freq = n.depths 1 := by
  rw [← leafQueue_length, List.length_eq_one_iff] at h
  obtain ⟨n, hn⟩ := h
  exact ⟨n, by rw [symbolDepths, hn]⟩

theorem kraftSum_of_tree {freq : Table Word} {n : HuffNode} {d : Nat} (h : symbolDepths freq = n.depths d) :
    kraftSum (buildLengths freq) = 2 ^ (255 - d) := by
  rw [kraftSum_buildLengths, h]
  refine depths_kraft n 255 d fun p hp => ?_
  obtain ⟨-, hle⟩ := symbolDepths_range freq p (h ▸ hp)
  exact hle

theorem kraftSum_many {freq : Table Word} (h : 2 ≤ nonzeroCounts freq) : kraftSum (buildLengths freq) = 2 ^ 255 := by
  obtain ⟨n, hn, -⟩ := symbolDepths_tree h
  exact kraftSum_of_tree hn

theorem kraftSum_lone {freq : Table Word} (h : nonzeroCounts freq = 1) : kraftSum (buildLengths freq) = 2 ^ 254 := by
  obtain ⟨n, hn⟩ := symbolDepths_lone h
  exact kraftSum_of_tree hn

theorem kraftSum_empty {freq : Table Word} (h : nonzeroCounts freq = 0) : kraftSum (buildLengths freq) = 0 := by
  rw [kraftSum_buildLengths, symbolDepths_empty h]
  rfl

/-- A built table never breaks the Kraft inequality. -/
theorem kraftSum_buildLengths_le (freq : Table Word) : kraftSum (buildLengths freq) ≤ 2 ^ 255 := by
  rcases Nat.lt_or_ge (nonzeroCounts freq) 2 with h | h
  · obtain h0 | h1 : nonzeroCounts freq = 0 ∨ nonzeroCounts freq = 1 := by omega
    · exact (kraftSum_empty h0).trans_le (Nat.zero_le _)
    · exact (kraftSum_lone h1).trans_le (Nat.pow_le_pow_right (by omega) (by omega))
  · exact (kraftSum_many h).le

/-- `Canon` never fails on the lengths `HUF.BUILD` makes (rules R251, R259). -/
theorem canon_buildLengths (freq : Table Word) :
    canon (buildLengths freq) = some (canonCodes (buildLengths freq)) :=
  canon_of_kraft (kraftSum_buildLengths_le freq)

/-- Settles O37: the Kraft sum of the tree from its root, or of the lone leaf from depth 1, and `Canon` where the sum
is at most 1. -/
theorem builtLengthsMeetKraft : Obligations.BuiltLengthsMeetKraft := by
  refine fun freq => ⟨kraftSum_many, kraftSum_lone, kraftSum_empty, ⟨_, canon_buildLengths freq⟩, fun p hp => ?_⟩
  obtain ⟨-, hle⟩ := symbolDepths_range freq p hp
  exact ⟨hle, buildLengths_of_mem hp⟩

end Sys2Proof.Machine
end

section
/-! O35, O41, O42, O43: the Huffman commands. Each command's meaning is one equation with its gates as the branches;
the decode walk stops at the right symbol because no code on the stream starts another. -/

namespace Sys2Proof.Machine

/-! ## What each command answers (43_huffman.md section 2) -/

theorem exec_hufBuild (s : State) : exec .hufBuild s =
    if s.mode = .huffman then
      .next ({ s with len := buildLengths s.freq }.withCodes (canonCodes (buildLengths s.freq)))
    else .next (raiseError .badState s) := by
  simp only [exec, execHufBuild, State.requireMode, conclude_gate, beq_iff_eq, conclude_ok]

theorem exec_hufLdlen (x : Sym) (n : Byte) (s : State) : exec (.hufLdlen x n) s =
    if s.mode = .huffman then .next { s with len := tset s.len x n, ctValid := false }
    else .next (raiseError .badState s) := by
  simp only [exec, execHufLdlen, State.requireMode, conclude_gate, beq_iff_eq, conclude_ok]

theorem exec_hufRdlen (x : Sym) (s : State) : exec (.hufRdlen x) s =
    if s.mode = .huffman then .next (s.setResult ((tget s.len x).setWidth 32))
    else .next (raiseError .badState s) := by
  simp only [exec, execHufRdlen, State.requireMode, conclude_gate, beq_iff_eq, conclude_ok]

theorem exec_hufRdcode (x : Sym) (k : Nat) (s : State) : exec (.hufRdcode x k) s =
    if s.mode = .huffman then
      if s.ctValid = true then .next (s.setResult ((tget s.code x).extractLsb' (32 * k) 32))
      else .next (raiseError .badState s)
    else .next (raiseError .badState s) := by
  simp only [exec, execHufRdcode, State.requireMode, State.requireCodes, conclude_gate, beq_iff_eq, conclude_ok]

theorem exec_hufEnc (x : Sym) (s : State) : exec (.hufEnc x) s =
    if s.mode = .huffman then
      if s.ctValid = true then
        if tget s.len x ≠ 0 then conclude s (writeBits (tget s.code x).toNat (tget s.len x).toNat s)
        else .next (raiseError .absentSymbol s)
      else .next (raiseError .badState s)
    else .next (raiseError .badState s) := by
  simp only [exec, execHufEnc, State.requireMode, State.requireCodes, conclude_gate, beq_iff_eq, bne_iff_ne]

/-- `s` with the symbol `x` decoded from a code of `l` bits (rule R258). -/
def State.takeSymbol (s : State) (x : Sym) (l : Nat) : State :=
  { s with bsRpos := s.bsRpos + BitVec.ofNat 32 l, res := x.setWidth 32, resHi := 0 }

theorem exec_hufDec (s : State) : exec .hufDec s =
    if s.mode = .huffman then
      if s.ctValid = true then
        conclude s (decodeWalk s s.hufMaxlen.toNat 0 0 >>= fun found => .ok (s.takeSymbol found.1 found.2))
      else .next (raiseError .badState s)
    else .next (raiseError .badState s) := by
  simp only [exec, execHufDec, State.requireMode, State.requireCodes, conclude_gate, beq_iff_eq]
  rfl

theorem exec_hufCanon (s : State) : exec .hufCanon s =
    if s.mode = .huffman then
      .next ((canon s.len).elim (raiseError .corruptStream s) s.withCodes)
    else .next (raiseError .badState s) := by
  simp only [exec, execHufCanon, State.requireMode, conclude_gate, beq_iff_eq]
  cases canon s.len <;> rfl

theorem hufCanon_stores {s : State} {code : Table CodeWord} (hmode : s.mode = .huffman)
    (hcanon : canon s.len = some code) : exec .hufCanon s = .next (s.withCodes code) := by
  rw [exec_hufCanon, if_pos hmode, hcanon, Option.elim_some]

/-! ## Lengths as numbers -/

theorem foldl_max_le_iff {α : Type} (f : α → Nat) {n : Nat} (l : List α) : ∀ {m : Nat},
    l.foldl (fun m a => max m (f a)) m ≤ n ↔ m ≤ n ∧ ∀ a ∈ l, f a ≤ n := by
  induction l with
  | nil => simp
  | cons a l ih => intro m; simp [ih, and_assoc]

theorem maxLength_le_iff {len : Table Byte} {n : Nat} : maxLength len ≤ n ↔ ∀ x, (tget len x).toNat ≤ n := by
  rw [maxLength, foldl_max_le_iff, toList_eq_map]
  simp

theorem le_maxLength (len : Table Byte) (x : Sym) : (tget len x).toNat ≤ maxLength len :=
  maxLength_le_iff.1 le_rfl x

/-- `HUF_MAXLEN` holds the greatest length exactly. -/
theorem maxLength_toNat (len : Table Byte) : (BitVec.ofNat 8 (maxLength len)).toNat = maxLength len :=
  Nat.mod_eq_of_lt (Nat.lt_succ_iff.2 (maxLength_le_iff.2 fun x => Nat.lt_succ_iff.1 (tget len x).isLt))

/-- `HUF_NSYM` holds the number of codes exactly. -/
theorem nonzeroLengths_toNat (len : Table Byte) : (BitVec.ofNat 9 (nonzeroLengths len)).toNat = nonzeroLengths len :=
  Nat.mod_eq_of_lt ((countNonzero_le len).trans_lt (by omega))

/-! ## The code table (rules R253 to R257) -/

/-- Settles O35: the three equations; a stored length reads back, and a word of a code is a part of its number. -/
theorem codeTableAccessResults : Obligations.CodeTableAccessResults := by
  refine ⟨fun s x n hmode => ?_, fun s x hmode => ?_, fun s x k hmode hvalid _ => ?_, fun s x n k hmode => ⟨?_, ?_, ?_⟩,
    fun s x k hmode hvalid => ?_, fun x n k => ⟨rfl, rfl, rfl⟩⟩
  · refine ⟨_, (exec_hufLdlen x n s).trans (if_pos hmode), ?_, tget_tset_same .., rfl⟩
    simp only [frameOf, tget_tset_same]
  · exact ⟨_, (exec_hufRdlen x s).trans (if_pos hmode), BitVec.toNat_setWidth_of_le (by omega)⟩
  · refine ⟨_, ((exec_hufRdcode x k s).trans (if_pos hmode)).trans (if_pos hvalid), ?_⟩
    rw [BitVec.extractLsb'_toNat, Nat.shiftRight_eq_div_pow]
  · rw [Raises, exec_hufLdlen, if_neg hmode]
  · rw [Raises, exec_hufRdlen, if_neg hmode]
  · rw [Raises, exec_hufRdcode, if_neg hmode]
  · rw [Raises, exec_hufRdcode, if_pos hmode, if_neg (Bool.eq_false_iff.1 hvalid)]

/-- What `HUF.BUILD` stored, `HUF.CANON` stores again (rule R253). -/
theorem hufCanon_after_hufBuild {s t : State} (hbuild : exec .hufBuild s = .next t) (herr : t.err = false) :
    exec .hufCanon t = .next t := by
  rw [exec_hufBuild] at hbuild
  split at hbuild
  · next hmode =>
    cases hbuild
    exact hufCanon_stores hmode (canon_buildLengths s.freq)
  · cases hbuild
    cases herr

/-- Settles O41: `Canon`'s answer decides, and it fails exactly above the Kraft sum 1. -/
theorem hufCanonRebuildsTheTable : Obligations.HufCanonRebuildsTheTable := by
  refine ⟨fun s code hmode hcanon => ?_, fun s hmode hkraft => ⟨?_, rfl⟩, fun s t u hbuild herr hagain => ?_,
    fun s hmode => ?_, rfl⟩
  · exact ⟨_, hufCanon_stores hmode hcanon, rfl, rfl, nonzeroLengths_toNat s.len, maxLength_toNat s.len, rfl⟩
  · rw [Raises, exec_hufCanon, if_pos hmode, canon_fails hkraft, Option.elim_none]
  · cases (hufCanon_after_hufBuild hbuild herr).symm.trans hagain
    rfl
  · rw [Raises, exec_hufCanon, if_neg hmode]

/-- `HUF.ENC` of a symbol with a code writes the code's bits, or raises `BUFFER_FULL` (rule R257). -/
theorem hufEnc_writes {s : State} {x : Sym} (hc : s.config.wf) (hmode : s.mode = .huffman) (hvalid : s.ctValid = true)
    (hx : tget s.len x ≠ 0) : exec (.hufEnc x) s =
      .next (if s.bsWpos.toNat + (tget s.len x).toNat ≤ s.capBits
        then s.put (bitsOf (tget s.code x).toNat (tget s.len x).toNat) else raiseError .bufferFull s) := by
  rw [exec_hufEnc, if_pos hmode, if_pos hvalid, if_pos hx, writeBits_eq _ _ hc]
  split <;> rfl

/-- Settles O42: where the code fits the answer is `State.put`, whose memory holds the code's bits. -/
theorem hufEncAppendsTheCode : Obligations.HufEncAppendsTheCode := by
  refine ⟨fun s x hs hmode hvalid hx => ?_, fun s x hmode hvalid hx => ?_, fun s x hgate => ?_, fun x => rfl⟩
  · have hexec := hufEnc_writes hs.config hmode hvalid hx
    refine ⟨fun hfit => ?_, fun hfull => ⟨?_, rfl⟩⟩
    · rw [if_pos hfit] at hexec
      refine ⟨_, _, putList_written hs.memory _ _, ?_, hexec⟩
      rw [bitsOf_length, cursor_add_toNat hs.config hfit]
    · rwa [if_neg (by omega)] at hexec
  · rw [Raises, exec_hufEnc, if_pos hmode, if_pos hvalid, if_neg (not_not_intro hx)]
  · rw [Raises, exec_hufEnc]
    obtain hmode | hvalid := hgate
    · rw [if_neg hmode]
    · rw [if_neg (Bool.eq_false_iff.1 hvalid), ite_self]

/-! ## The decode walk (rule R258) -/

/-- A search for a code fails exactly where no symbol has it. -/
theorem symbolOfCode_none_iff {s : State} {l v : Nat} :
    s.symbolOfCode l v = none ↔ ∀ x, (tget s.len x).toNat = l → (tget s.code x).toNat ≠ v := by
  simp [State.symbolOfCode, findSym_none_iff]

/-- The stream's bits at the read cursor are the code of `x`. -/
def State.nextIs (s : State) (x : Sym) : Prop :=
  streamValue s.bsmem s.bsRpos.toNat (tget s.len x).toNat = (tget s.code x).toNat

/-- At most one symbol's code stands at the read cursor: of two the shorter would start the longer (rule R252). -/
theorem nextIs_unique {s : State} (hcanon : canon s.len = some s.code) {x y : Sym} (hx : tget s.len x ≠ 0)
    (hy : tget s.len y ≠ 0) (hxnext : s.nextIs x) (hynext : s.nextIs y)
    (hle : (tget s.len y).toNat ≤ (tget s.len x).toNat) : y = x := by
  refine codePrefix_eq hcanon hy hx ⟨hle, ?_⟩
  rw [← hxnext, ← hynext, ← streamValue_prefix _ _ (tget s.len y).toNat, Nat.add_sub_cancel' hle]

theorem toNat_pos_of_ne_zero {b : Byte} (h : b ≠ 0) : 0 < b.toNat := by bv_omega

theorem ne_zero_of_toNat_eq {b : Byte} {n : Nat} (h : b.toNat = n) (hn : 0 < n) : b ≠ 0 := by bv_omega

/-- Where the code of `x` stands at the read cursor, the walk ends at `x`. -/
theorem decodeWalk_nextIs {s : State} (hlimit : s.bsRlimit.toNat ≤ s.capBits) (hcanon : canon s.len = some s.code)
    (hmax : s.hufMaxlen.toNat = maxLength s.len) {x : Sym} (hx : tget s.len x ≠ 0)
    (hfit : s.bsRpos.toNat + (tget s.len x).toNat ≤ s.bsRlimit.toNat) (hnext : s.nextIs x) :
    decodeWalk s s.hufMaxlen.toNat 0 0 = .ok (x, (tget s.len x).toNat) := by
  have hpos := toNat_pos_of_ne_zero hx
  have hle := le_maxLength s.len x
  have hend : 0 + ((tget s.len x).toNat - 1) + 1 = (tget s.len x).toNat := by omega
  have hshorter : ∀ j, 0 < j → j ≤ 0 + ((tget s.len x).toNat - 1) →
      s.symbolOfCode j (streamValue s.bsmem s.bsRpos.toNat j) = none := by
    refine fun j hj hlt => symbolOfCode_none_iff.2 fun y hy hcode => ?_
    subst hy
    cases nextIs_unique hcanon hx (ne_zero_of_toNat_eq rfl hj) hnext hcode.symm (by omega)
    omega
  have hlast : s.symbolOfCode (tget s.len x).toNat (streamValue s.bsmem s.bsRpos.toNat (tget s.len x).toNat) =
      some x := by
    refine findSym_unique (by simp [hnext.symm]) fun y hy => ?_
    simp only [Bool.and_eq_true, decide_eq_true_eq] at hy
    obtain ⟨hlen, hcode⟩ := hy
    refine nextIs_unique hcanon hx (ne_zero_of_toNat_eq hlen hpos) hnext ?_ hlen.le
    rw [State.nextIs, hlen, hcode]
  have hwalk := decodeWalk_found hlimit ((tget s.len x).toNat - 1) (fuel := s.hufMaxlen.toNat) (l := 0) (by omega)
    (by omega) hshorter (hend.symm ▸ hlast)
  rwa [hend] at hwalk

/-- Where no code stands at the read cursor inside the data, the walk raises `CORRUPT_STREAM` after the longest
length, or `OUT_OF_DATA` at the end of the data. -/
theorem decodeWalk_no_next {s : State} (hs : Placed s) (hmax : s.hufMaxlen.toNat = maxLength s.len)
    (hnone : ∀ x, tget s.len x ≠ 0 → s.bsRpos.toNat + (tget s.len x).toNat ≤ s.bsRlimit.toNat → ¬ s.nextIs x) :
    decodeWalk s s.hufMaxlen.toNat 0 0 = .error (.raise
      (if s.bsRpos.toNat + maxLength s.len ≤ s.bsRlimit.toNat then .corruptStream else .outOfData)) := by
  rw [hmax]
  refine decodeWalk_none hs.rlimit (maxLength s.len) hs.rpos fun j hj _ hfit => ?_
  refine symbolOfCode_none_iff.2 fun x hx hcode => ?_
  subst hx
  exact hnone x (ne_zero_of_toNat_eq rfl hj) hfit hcode.symm

/-- Settles O43: the walk ends at the one symbol whose code stands at the read cursor, or raises. -/
theorem hufDecFindsTheSymbol : Obligations.HufDecFindsTheSymbol := by
  refine ⟨fun s hgate => ?_, rfl, fun s hs hcodes hmode hvalid => ?_⟩
  · rw [Raises, exec_hufDec]
    obtain hmode | hvalid := hgate
    · rw [if_neg hmode]
    · rw [if_neg (Bool.eq_false_iff.1 hvalid), ite_self]
  · have hmax := hcodes.maxlen hvalid
    have hexec := exec_hufDec s
    rw [if_pos hmode, if_pos hvalid] at hexec
    refine ⟨fun x hx hfit hnext => ?_, fun hnone => ?_⟩
    · rw [decodeWalk_nextIs hs.rlimit (hcodes.codes hvalid) hmax hx hfit hnext] at hexec
      exact ⟨_, _, hexec, cursor_add_toNat hs.config (hfit.trans hs.rlimit), BitVec.toNat_setWidth_of_le (by omega)⟩
    · rw [decodeWalk_no_next hs hmax hnone] at hexec
      refine ⟨fun hlong => ?_, fun hshort => ?_⟩
      · rwa [if_pos hlong] at hexec
      · rwa [if_neg (by omega)] at hexec

end Sys2Proof.Machine
end

section
/-! O38: equal counts. Merging takes two trees of one level to one of the next, so 2^H equal leaves end as one tree
with every leaf H deep; equal lengths put the symbols in ascending order, so the codes count up with them. -/

namespace Sys2Proof.Machine

/-! ## Merging equal counts (rule R251) -/

/-- A tree that `2 ^ h` leaves of weight `c` make, all at the same depth. -/
structure HuffNode.Level (c h : Nat) (n : HuffNode) : Prop where
  weight : n.weight = c * 2 ^ h
  depth : ∀ d, ∀ p ∈ n.depths d, p.2 = d + h

theorem level_leaf (c : Nat) (x : Sym) : (HuffNode.leaf x c).Level c 0 :=
  ⟨(Nat.mul_one c).symm, fun d p hp => by rw [List.mem_singleton.1 hp]; rfl⟩

theorem level_merge {c h : Nat} {a b : HuffNode} (ha : a.Level c h) (hb : b.Level c h) (seq : Nat) :
    (HuffNode.internal (a.weight + b.weight) a b seq).Level c (h + 1) := by
  refine ⟨?_, fun d p hp => ?_⟩
  · rw [HuffNode.weight, ha.weight, hb.weight]
    ring
  · rcases List.mem_append.1 hp with hp | hp
    · rw [ha.depth _ p hp]
      omega
    · rw [hb.depth _ p hp]
      omega

theorem before_of_weight_lt {a b : HuffNode} (h : a.weight < b.weight) : a.before b = true := by
  cases a <;> cases b <;> simp_all [HuffNode.before, HuffNode.weight]; omega

/-- A queue made up of trees of level `h`, `low`, and of the next, `high`; together they are worth `2 ^ k` trees of
level `h`. -/
structure Levels (c h k : Nat) (low high q : List HuffNode) : Prop where
  perm : q.Perm (low ++ high)
  lowLevel : ∀ n ∈ low, n.Level c h
  highLevel : ∀ n ∈ high, n.Level c (h + 1)
  size : low.length + 2 * high.length = 2 ^ k

/-- A queue on the way from `2 ^ H` equal leaves to one tree. -/
def LevelQueue (c H : Nat) (q : List HuffNode) : Prop :=
  ∃ h k low high, Levels c h k low high q ∧ low ≠ [] ∧ h + k = H

/-- Where the lower level is used up, the next one is the lower. -/
theorem levelQueue_of_levels {c h k : Nat} {low high q : List HuffNode} (hq : Levels c h (k + 1) low high q) :
    LevelQueue c (h + (k + 1)) q := by
  by_cases hne : low = []
  · subst hne
    have hsize := hq.size
    rw [List.length_nil, Nat.pow_succ] at hsize
    have hlength : high.length = 2 ^ k := by omega
    refine ⟨h + 1, k, high, [], ⟨?_, hq.highLevel, nofun, by simp [hlength]⟩, ?_, by omega⟩
    · simpa using hq.perm
    · rintro rfl
      exact (Nat.two_pow_pos k).ne hlength
  · exact ⟨h, k + 1, low, high, hq, hne, rfl⟩

/-- The node that comes out first is one of the lower level. -/
theorem first_is_low {c h : Nat} (hc : 0 < c) {low high rest : List HuffNode} {a : HuffNode} (hne : low ≠ [])
    (hlow : ∀ n ∈ low, n.Level c h) (hhigh : ∀ n ∈ high, n.Level c (h + 1)) (hperm : (a :: rest).Perm (low ++ high))
    (hfirst : ∀ n ∈ rest, n.before a = false) :
    a ∈ low ∧ rest.Perm (low.erase a ++ high) := by
  have hmem : a ∈ low := by
    by_contra hnot
    have ha : a ∈ high := by simpa [hnot] using hperm.mem_iff.1 (List.mem_cons_self ..)
    obtain ⟨m, hm⟩ := List.exists_mem_of_ne_nil low hne
    have hlt : m.weight < a.weight := by
      rw [(hlow m hm).weight, (hhigh a ha).weight]
      exact Nat.mul_lt_mul_of_pos_left (Nat.pow_lt_pow_succ (by omega)) hc
    have hrest : m ∈ a :: rest := hperm.mem_iff.2 (List.mem_append_left _ hm)
    obtain rfl | hrest := List.mem_cons.1 hrest
    · exact hnot hm
    · exact Bool.false_ne_true ((hfirst m hrest).symm.trans (before_of_weight_lt hlt))
  exact ⟨hmem, (hperm.trans ((List.perm_cons_erase hmem).append_right high)).cons_inv⟩

/-- A round of merging takes two trees of the lower level, of which there are evenly many, and makes one of the
next. -/
theorem levelQueue_round {c H : Nat} (hc : 0 < c) {q rest : List HuffNode} {a b : HuffNode} (seq : Nat)
    (hq : LevelQueue c H q) (hperm : q.Perm (a :: b :: rest)) (ha : ∀ n ∈ b :: rest, n.before a = false)
    (hb : ∀ n ∈ rest, n.before b = false) :
    LevelQueue c H (.internal (a.weight + b.weight) a b seq :: rest) := by
  obtain ⟨h, k, low, high, hlevels, hne, rfl⟩ := hq
  obtain ⟨hamem, hperm₁⟩ := first_is_low hc hne hlevels.lowLevel hlevels.highLevel (hperm.symm.trans hlevels.perm) ha
  have hsize := hlevels.size
  have hpos := List.length_pos_of_ne_nil hne
  have hlength := (hperm.symm.trans hlevels.perm).length_eq
  simp only [List.length_cons, List.length_append] at hlength
  have hlength₁ := List.length_erase_of_mem hamem
  cases k with
  | zero => omega
  | succ k =>
    rw [Nat.pow_succ] at hsize
    have hne₁ : low.erase a ≠ [] := List.ne_nil_of_length_pos (by omega)
    have hlow₁ : ∀ n ∈ low.erase a, n.Level c h := fun n hn => hlevels.lowLevel n (List.mem_of_mem_erase hn)
    obtain ⟨hbmem, hperm₂⟩ := first_is_low hc hne₁ hlow₁ hlevels.highLevel hperm₁ hb
    have hlength₂ := List.length_erase_of_mem hbmem
    have hmerged := level_merge (hlevels.lowLevel a hamem) (hlow₁ b hbmem) seq
    refine levelQueue_of_levels (low := (low.erase a).erase b) ⟨(hperm₂.cons _).trans List.perm_middle.symm,
      fun n hn => hlow₁ n (List.mem_of_mem_erase hn), List.forall_mem_cons.2 ⟨hmerged, hlevels.highLevel⟩, ?_⟩
    rw [List.length_cons, Nat.pow_succ]
    omega

theorem mergeAll_levelQueue {c H : Nat} (hc : 0 < c) (fuel : Nat) : ∀ (seq : Nat) {q : List HuffNode},
    LevelQueue c H q → LevelQueue c H (mergeAll fuel seq q) := by
  induction fuel with
  | zero => exact fun _ _ hq => hq
  | succ fuel ih =>
    intro seq q hq
    by_cases h : 2 ≤ q.length
    · obtain ⟨a, b, rest, hperm, ha, hb, hround⟩ := mergeAll_round (fuel := fuel) (seq := seq) h
      rw [hround]
      exact ih _ (levelQueue_round hc seq hq hperm ha hb)
    · rwa [mergeAll_stop (by omega)]

/-- A queue of one node, on the way from `2 ^ H` leaves, is the tree of all of them. -/
theorem level_of_levelQueue_singleton {c H : Nat} {n : HuffNode} (h : LevelQueue c H [n]) : n.Level c H := by
  obtain ⟨h, k, low, high, hlevels, hne, rfl⟩ := h
  have hlength := hlevels.perm.length_eq
  have hpos := List.length_pos_of_ne_nil hne
  simp only [List.length_singleton, List.length_append] at hlength
  have hhigh : high = [] := List.length_eq_zero_iff.1 (by omega)
  subst hhigh
  have hk : k = 0 := by
    have hsize := hlevels.size
    rw [List.length_nil] at hsize hlength
    rw [Nat.mul_zero, ← hlength] at hsize
    exact (Nat.pow_eq_one.1 hsize.symm).resolve_left (by decide)
  subst hk
  exact hlevels.lowLevel n (by simpa using hlevels.perm.mem_iff.1 (List.mem_singleton_self n))

/-! ## Equal counts (rule R260) -/

theorem nonzeroCounts_of_equal {freq : Table Word} {c : Word} (hc : c ≠ 0) (h : ∀ x, tget freq x = c) :
    nonzeroCounts freq = 256 := by
  rw [nonzeroCounts, countNonzero_eq, List.countP_eq_length.2 fun x _ => by simpa [h x] using hc, allSyms_length]

theorem levelQueue_leafQueue {freq : Table Word} {c : Word} (hc : c ≠ 0) (h : ∀ x, tget freq x = c) :
    LevelQueue c.toNat 8 (leafQueue freq) := by
  have hlength := (leafQueue_length freq).trans (nonzeroCounts_of_equal hc h)
  refine ⟨0, 8, leafQueue freq, [], ⟨by rw [List.append_nil], fun n hn => ?_, nofun, by rw [hlength]; rfl⟩, ?_, rfl⟩
  · rw [leafQueue, entries_eq_map, List.mem_map] at hn
    obtain ⟨e, he, rfl⟩ := hn
    obtain ⟨x, -, rfl⟩ := List.mem_map.1 (List.mem_of_mem_filter he)
    rw [h x]
    exact level_leaf c.toNat x
  · exact List.ne_nil_of_length_pos (by omega)

theorem symbolDepths_merged {freq : Table Word} (h : 2 ≤ nonzeroCounts freq) : symbolDepths freq =
    (mergeAll (leafQueue freq).length 0 (leafQueue freq)).flatMap (HuffNode.depths 0) := by
  rw [← leafQueue_length] at h
  unfold symbolDepths
  split
  · next hnil => rw [hnil] at h; cases h
  · next hone => rw [hone, List.length_singleton] at h; omega
  · rfl

/-- 256 equal counts give every symbol the length 8. -/
theorem buildLengths_of_equal {freq : Table Word} {c : Word} (hc : c ≠ 0) (h : ∀ x, tget freq x = c) (x : Sym) :
    (tget (buildLengths freq) x).toNat = 8 := by
  have hcount := nonzeroCounts_of_equal hc h
  have hlength := leafQueue_length freq
  obtain ⟨n, hn⟩ := mergeAll_one (leafQueue freq).length 0 (q := leafQueue freq)
    (List.ne_nil_of_length_pos (by omega)) (by omega)
  have hcpos : 0 < c.toNat := by bv_omega
  have hlevel : n.Level c.toNat 8 := by
    have hqueue := mergeAll_levelQueue hcpos (leafQueue freq).length 0 (levelQueue_leafQueue hc h)
    rw [hn] at hqueue
    exact level_of_levelQueue_singleton hqueue
  obtain ⟨p, hp, rfl⟩ := List.mem_map.1 (mem_symbolDepths.2 (show tget freq x ≠ 0 by rwa [h x]))
  rw [buildLengths_of_mem hp]
  rw [symbolDepths_merged (by omega), hn, List.flatMap_singleton] at hp
  exact hlevel.depth 0 p hp

theorem allSyms_pairwise_lt : allSyms.Pairwise fun x y => x.toNat < y.toNat := by
  refine List.pairwise_map.2 (List.pairwise_lt_range.imp_of_mem fun {i j} hi hj hlt => ?_)
  rw [List.mem_range] at hi hj
  rwa [BitVec.toNat_ofNat, BitVec.toNat_ofNat, Nat.mod_eq_of_lt hi, Nat.mod_eq_of_lt hj]

/-- With one length for all symbols, `Canon`'s list is the symbols in ascending order. -/
theorem codeOrder_of_equal {len : Table Byte} {l : Nat} (hl : 0 < l) (h : ∀ x, (tget len x).toNat = l) :
    codeOrder len = allSyms.map fun x => (l, x) := by
  have hfilter : (entries len).filter (fun e => e.2 != 0) = entries len := by
    rw [entries_eq_map]
    refine List.filter_eq_self.2 (List.forall_mem_map.2 fun x _ => ?_)
    exact bne_iff_ne.2 (ne_zero_of_toNat_eq (h x) hl)
  have hlist : (entries len).map (fun e => (e.2.toNat, e.1)) = allSyms.map fun x => (l, x) := by
    rw [entries_eq_map, List.map_map]
    exact List.map_congr_left fun x _ => by rw [Function.comp_apply, h x]
  rw [codeOrder, hfilter, hlist]
  refine List.Pairwise.insertionSort_eq (List.pairwise_map.2 (allSyms_pairwise_lt.imp fun hlt => ?_))
  exact .inr ⟨rfl, hlt.le⟩

/-- With one length for all symbols, each symbol is its own code (rule R252). -/
theorem canon_of_equal {len : Table Byte} {code : Table CodeWord} {l : Nat} (hl : 0 < l)
    (h : ∀ x, (tget len x).toNat = l) (hcanon : canon len = some code) (x : Sym) :
    (tget code x).toNat = x.toNat := by
  have horder := codeOrder_of_equal hl h
  have hi : x.toNat < (codeOrder len).length := by
    rw [horder, List.length_map, allSyms_length]
    exact x.isLt
  have hx : (codeOrder len)[x.toNat] = (l, x) := by
    rw [List.getElem_of_eq horder hi, List.getElem_map, allSyms_getElem, BitVec.ofNat_toNat, BitVec.setWidth_eq]
  have hspace : spaceTaken len x.toNat = x.toNat * 2 ^ (255 - l) := by
    rw [spaceTaken, horder, ← List.map_take, List.map_map]
    simp only [Function.comp_def, List.map_const', List.sum_replicate, List.length_take, allSyms_length, smul_eq_mul]
    rw [min_eq_left x.isLt.le]
  have hshare := canon_share hcanon hi
  rw [hx, hspace] at hshare
  exact Nat.eq_of_mul_eq_mul_right (Nat.two_pow_pos _) hshare

/-- Settles O38: the tree of 256 equal leaves is 8 deep everywhere, so the codes are the symbols in order. -/
theorem uniformCountsGiveByteCodes : Obligations.UniformCountsGiveByteCodes := by
  intro s c hmode hc hfreq
  have hlen := buildLengths_of_equal hc hfreq
  refine ⟨_, (exec_hufBuild s).trans (if_pos hmode), fun x => ⟨hlen x, ?_⟩⟩
  exact canon_of_equal (by omega) hlen (canon_buildLengths s.freq) x

end Sys2Proof.Machine
end

section
/-! O33, O47, O49: the intervals of the symbols, narrowing to one of them, and the thresholds of renormalization. -/

namespace Sys2Proof.Machine

/-! ## Intervals (rule R302) -/

theorem mem_interval_iff {s : State} (hs : CountsAgree s) (hvalid : s.cumValid = true) {x : Sym} {v : Nat} :
    (s.cumLow x ≤ v ∧ (v : Int) < s.cumHigh x) ↔
      sumUpTo s.freq x - (tget s.freq x).toNat ≤ v ∧ v < sumUpTo s.freq x := by
  rw [cumLow_eq hs hvalid, cumHigh_eq hs hvalid]
  omega

/-- A value lies in the interval of one symbol at most. -/
theorem interval_symbol_unique {s : State} (hs : CountsAgree s) (hvalid : s.cumValid = true) {x y : Sym} {v : Int}
    (hx : s.cumLow x ≤ v ∧ v < s.cumHigh x) (hy : s.cumLow y ≤ v ∧ v < s.cumHigh y) : y = x := by
  obtain ⟨n, rfl⟩ := Int.eq_ofNat_of_zero_le ((interval_bounds hs hvalid x).1.trans hx.1)
  exact interval_unique s.freq ((mem_interval_iff hs hvalid).1 hy) ((mem_interval_iff hs hvalid).1 hx)

/-- Settles O33: the intervals are the steps of the running sums from 0 up to T. -/
theorem intervalsPartitionTheTotal : Obligations.IntervalsPartitionTheTotal := by
  intro s hs hvalid
  refine ⟨⟨?_, fun x y hnext => ?_⟩, fun x => ?_, fun v hv hlt => ?_, fun x v hlow hhigh => ?_⟩
  · rw [cumLow_eq hs hvalid, sumUpTo_first, Nat.sub_self, Int.natCast_zero]
  · rw [cumLow_eq hs hvalid, cumHigh_eq hs hvalid, sumUpTo_next s.freq hnext, Nat.add_sub_cancel]
  · have hcount : tget s.freq x = 0 ↔ (tget s.freq x).toNat = 0 := by bv_omega
    rw [hcount, State.cumLow]
    omega
  · obtain ⟨x, hfound, hpresent, hlow, hhigh⟩ := symbolAt_some hs hvalid hv hlt
    exact ⟨x, hfound, hpresent, hlow, hhigh, fun y hy hy' => interval_symbol_unique hs hvalid ⟨hlow, hhigh⟩ ⟨hy, hy'⟩⟩
  · obtain ⟨hzero, -, htop, -⟩ := interval_bounds hs hvalid x
    omega

/-! ## Narrowing (rule R304) -/

theorem scaled_mono {s : State} {c d : Int} (hrange : 0 ≤ s.acRange) (htotal : 0 < s.totalCount) (h : c ≤ d) :
    s.scaled c ≤ s.scaled d :=
  Int.add_le_add_left (Int.ediv_le_ediv htotal (Int.mul_le_mul_of_nonneg_left h hrange)) _

/-- While range ≥ T, different cumulative counts have different scaled bounds. -/
theorem scaled_lt {s : State} {c d : Int} (htotal : 0 < s.totalCount) (hrange : s.totalCount ≤ s.acRange)
    (h : c < d) : s.scaled c < s.scaled d := by
  have hstep : s.acRange * c + s.totalCount ≤ s.acRange * (c + 1) := by rw [mul_add, mul_one]; omega
  have hdiv := Int.ediv_le_ediv htotal hstep
  rw [Int.add_ediv_of_dvd_right (dvd_refl _), Int.ediv_self htotal.ne'] at hdiv
  have hmono := scaled_mono (s := s) (by omega) htotal (show c + 1 ≤ d by omega)
  unfold State.scaled at hmono ⊢
  omega

@[simp] theorem scaled_zero (s : State) : s.scaled 0 = s.acLow.toNat := by simp [State.scaled]

theorem scaled_total {s : State} (htotal : 0 < s.totalCount) : s.scaled s.totalCount = s.acHigh.toNat + 1 := by
  rw [State.scaled, Int.mul_ediv_cancel _ htotal.ne', State.acRange]
  omega

theorem toNat_ofInt_of_word {i : Int} {w : Word} (h0 : 0 ≤ i) (h : i ≤ w.toNat) :
    ((BitVec.ofInt 32 i).toNat : Int) = i := by
  have := w.isLt
  rw [BitVec.toNat_ofInt]
  omega

/-- Narrowing to a present symbol while range ≥ T: both bounds are exact, ordered, and inside the old ones. -/
theorem narrowed_inner {s : State} (hs : CountsAgree s) (hvalid : s.cumValid = true) {x : Sym}
    (hx : s.present x = true) (hrange : s.totalCount ≤ s.acRange) :
    ((s.narrowed x).1.toNat : Int) = s.scaled (s.cumLow x) ∧
    ((s.narrowed x).2.toNat : Int) = s.scaled (s.cumHigh x) - 1 ∧
    s.acLow.toNat ≤ (s.narrowed x).1.toNat ∧ (s.narrowed x).1.toNat ≤ (s.narrowed x).2.toNat ∧
    (s.narrowed x).2.toNat ≤ s.acHigh.toNat := by
  obtain ⟨hzero, -, htop, hne⟩ := interval_bounds hs hvalid x
  have hlt := hne hx
  have htotal : 0 < s.totalCount := by omega
  have hlow := scaled_mono (by omega) htotal hzero
  have hstrict := scaled_lt htotal hrange hlt
  have hhigh := scaled_mono (by omega) htotal htop
  rw [scaled_zero] at hlow
  rw [scaled_total htotal] at hhigh
  have h1 : ((s.narrowed x).1.toNat : Int) = s.scaled (s.cumLow x) :=
    toNat_ofInt_of_word (w := s.acHigh) (by omega) (by omega)
  have h2 : ((s.narrowed x).2.toNat : Int) = s.scaled (s.cumHigh x) - 1 :=
    toNat_ofInt_of_word (w := s.acHigh) (by omega) (by omega)
  exact ⟨h1, h2, by omega, by omega, by omega⟩

/-- Settles O47: the scaled bounds grow with the cumulative count, strictly while range ≥ T. -/
theorem narrowKeepsAnInnerInterval : Obligations.NarrowKeepsAnInnerInterval := by
  refine ⟨fun s x htotal => narrow_ok x (totalCount_pos_iff.2 htotal), fun s x hs hvalid hx hrange => ?_⟩
  obtain ⟨hlow, hhigh, hinner⟩ := narrowed_inner hs hvalid hx hrange
  exact ⟨hinner, hlow, hhigh⟩

/-! ## Thresholds (rule R315) -/

theorem getLsbD_top (r : Word) : r.getLsbD 31 = decide (half ≤ r.toNat) := by
  have := r.isLt
  rw [BitVec.getLsbD, Nat.testBit_eq_decide_div_mod_eq, decide_eq_decide, half, arcPrecision]
  omega

/-- Settles O49: each threshold is a whole number, and E3 holds its bounds between them. -/
theorem thresholdsAreEquivalent : Obligations.ThresholdsAreEquivalent := by
  intro low high
  refine ⟨?_, ?_, fun hle => ?_, ?_, fun hcase => ?_⟩
  · rw [arcMax, quarter, arcPrecision]
    omega
  · rw [arcMax, quarter, arcPrecision]
    omega
  · rw [getLsbD_top, getLsbD_top, decide_eq_decide]
    omega
  · rw [renormCase_e1_iff, renormCase_e2_iff]
    omega
  · obtain ⟨hhalf, hlow, hquarter, hhigh⟩ := renormCase_e3_iff.1 hcase
    have hflipLow := flipSecond_sub hquarter hlow
    have hflipHigh := flipSecond_add hhalf hhigh
    obtain ⟨-, -, hshiftLow, hshiftHigh⟩ := bounds_toNat (by omega) hcase
    exact ⟨⟨hquarter, hhigh⟩, ⟨hflipLow, hflipHigh⟩, hshiftLow, hshiftHigh⟩

end Sys2Proof.Machine
end

section
/-! O45, O46, O50, O51, O52: the arithmetic commands. Each command's meaning is one equation with its gates as the
branches; behind them stand the loops' laws: the encoder and the decoder follow one path of renormalization. -/

namespace Sys2Proof.Machine

/-! ## Session start (rules R303, R306, R311) -/

/-- `s` with a session `a` opened on the full interval, `x` in `AC_SYM`. -/
def State.opened (s : State) (a : AcState) (x : Sym) : State :=
  { s with
    acLow := 0, acHigh := 0xFFFFFFFF, acPend := 0, acCode := 0, acSingle := decide (s.ftNsym.toNat = 1), acSym := x,
    acState := a }

/-- The gates and the model check of a session's start, in the order of rules R303 and R306. -/
theorem openSession_raises (a : AcState) (s : State) :
    (s.mode ≠ .arithmetic ∨ s.acState ≠ .idle ∨ s.cumValid = false →
      openSession a s = .error (.raise .badState)) ∧
    (s.mode = .arithmetic → s.acState = .idle → s.cumValid = true →
      (s.total = 0 → openSession a s = .error (.raise .emptyAlphabet)) ∧
      (quarter < s.total.toNat → openSession a s = .error (.raise .modelTooLarge))) := by
  unfold openSession
  refine ⟨fun hgate => ?_, fun hmode hidle hvalid => ?_⟩
  · by_cases hmode : s.mode = .arithmetic
    · rw [requireMode_ok hmode, ok_bind]
      by_cases hidle : s.acState = .idle
      · have hvalid : s.cumValid = false := by simpa [hmode, hidle] using hgate
        rw [requireSession_ok hidle, ok_bind, modelCheck_eq, if_pos hvalid, error_bind]
      · rw [requireSession_raises hidle, error_bind]
    · rw [requireMode_raises hmode, error_bind]
  · rw [requireMode_ok hmode, ok_bind, requireSession_ok hidle, ok_bind, modelCheck_eq, hvalid,
      if_neg (by decide)]
    refine ⟨fun hempty => ?_, fun hlarge => ?_⟩
    · rw [if_pos hempty, error_bind]
    · rw [if_neg (by rintro h; simp [h] at hlarge), if_pos hlarge, error_bind]

/-- Settles O45: `AC.EINIT` is the shared start of a session. -/
theorem acEinitOpensASession : Obligations.AcEinitOpensASession := by
  have hraises {s : State} {e : ErrCode} (h : openSession .enc s = .error (.raise e)) : Raises .acEinit s e := by
    rw [Raises, exec, execAcEinit, h, conclude_raise]
  refine ⟨fun s hs hmode hidle hvalid hlow hhigh => ?_, fun s hgate => hraises ((openSession_raises _ s).1 hgate),
    fun s hmode hidle hvalid => ?_, rfl⟩
  · obtain ⟨x, hopen, hx⟩ := openSession_ok .enc hs hmode hidle hvalid hlow hhigh
    refine ⟨x, ?_, hx⟩
    rw [exec, execAcEinit, hopen, conclude_ok]
  · obtain ⟨hempty, hlarge⟩ := (openSession_raises .enc s).2 hmode hidle hvalid
    exact ⟨fun h => hraises (hempty h), fun h => hraises (hlarge h)⟩

theorem zeroFilledValue_lt (m : Memory) (limit p k : Nat) : zeroFilledValue m limit p k < 2 ^ k := by
  induction k with
  | zero => exact Nat.one_pos
  | succ k ih =>
    have := Bool.toNat_le (zeroFilled m limit (p + k))
    rw [zeroFilledValue, Nat.pow_succ]
    omega

/-- 32 loads leave nothing of the old code value (rule R311). -/
theorem loadCode_thirtyTwo {s : State} (hlimit : s.bsRlimit.toNat ≤ s.capBits)
    (hpos : s.bsRpos.toNat ≤ s.bsRlimit.toNat) : ∃ c p : Word,
      loadCode arcPrecision s = .ok { s with acCode := c, bsRpos := p } ∧
      c.toNat = zeroFilledValue s.bsmem s.bsRlimit.toNat s.bsRpos.toNat 32 ∧
      p.toNat = min (s.bsRpos.toNat + 32) s.bsRlimit.toNat := by
  obtain ⟨c, hload, hc⟩ := loadCode_ok arcPrecision hlimit hpos
  refine ⟨c, _, hload, ?_, min_cursor_toNat 32⟩
  rw [hc, arcPrecision, Nat.mul_add_mod, Nat.mod_eq_of_lt (zeroFilledValue_lt ..)]

/-- What follows a session's start in `AC.DINIT`: the loads of a normal session (rules R310, R311). -/
theorem exec_acDinit (s : State) : exec .acDinit s =
    conclude s (openSession .dec s >>= fun t => if t.acSingle = true then .ok t else loadCode arcPrecision t) := rfl

/-- `AC.DINIT` where every gate is open: the shared start, then 32 loads from the cursors it left alone, or none. -/
theorem acDinit_loads {s : State} (hlimit : s.bsRlimit.toNat ≤ s.capBits) (hpos : s.bsRpos.toNat ≤ s.bsRlimit.toNat)
    (hs : CountsAgree s) (hmode : s.mode = .arithmetic) (hidle : s.acState = .idle) (hvalid : s.cumValid = true)
    (hlow : 1 ≤ s.total.toNat) (hhigh : s.total.toNat ≤ quarter) : ∃ x c p,
    exec .acDinit s = .next { s.opened .dec x with acCode := c, bsRpos := p } ∧
    (s.ftNsym.toNat = 1 → (∀ y, tget s.freq y ≠ 0 ↔ y = x) ∧ c = 0 ∧ p = s.bsRpos) ∧
    (s.ftNsym.toNat ≠ 1 → x = 0 ∧ c.toNat = zeroFilledValue s.bsmem s.bsRlimit.toNat s.bsRpos.toNat 32 ∧
      p.toNat = min (s.bsRpos.toNat + 32) s.bsRlimit.toNat) := by
  obtain ⟨x, hopen, hlone, hmany⟩ := openSession_ok .dec hs hmode hidle hvalid hlow hhigh
  rw [exec_acDinit, hopen, ok_bind]
  by_cases hsingle : s.ftNsym.toNat = 1
  · refine ⟨x, 0, s.bsRpos, ?_, fun h => ⟨hlone h, rfl, rfl⟩, fun h => absurd hsingle h⟩
    rw [if_pos (decide_eq_true hsingle), conclude_ok]
    rfl
  · obtain ⟨c, p, hload, hc, hp⟩ := loadCode_thirtyTwo (s := s.opened .dec x) hlimit hpos
    refine ⟨x, c, p, ?_, fun h => absurd h hsingle, fun h => ⟨hmany h, hc, hp⟩⟩
    rw [if_neg (by simpa using hsingle)]
    exact congrArg (conclude s) hload

/-- Settles O46: the cursors of a placed state are in order; the gates are those of the shared start. -/
theorem acDinitLoadsTheCode : Obligations.AcDinitLoadsTheCode := by
  have hraises {s : State} {e : ErrCode} (h : openSession .dec s = .error (.raise e)) : Raises .acDinit s e := by
    rw [Raises, exec_acDinit, h, error_bind, conclude_raise]
  refine ⟨fun s hs => acDinit_loads hs.rlimit hs.rpos, fun s hgate => hraises ((openSession_raises _ s).1 hgate),
    fun s hmode hidle hvalid => ?_, rfl⟩
  obtain ⟨hempty, hlarge⟩ := (openSession_raises .dec s).2 hmode hidle hvalid
  exact ⟨fun h => hraises (hempty h), fun h => hraises (hlarge h)⟩

/-! ## Inside a session: the gates, and what stands behind them -/

/-- The mode gate and the session gate of the commands inside a session (rules R300, R359). -/
theorem conclude_sessionGates (a : AcState) (s : State) (r : Res State) :
    conclude s (s.requireMode .arithmetic >>= fun _ => s.requireSession a >>= fun _ => r) =
      if s.mode = .arithmetic ∧ s.acState = a then conclude s r else .next (raiseError .badState s) := by
  simp only [State.requireMode, State.requireSession, conclude_gate, beq_iff_eq, ite_and]

theorem exec_acEnc (x : Sym) (s : State) : exec (.acEnc x) s =
    if s.mode = .arithmetic ∧ s.acState = .enc then
      if s.present x = true then
        conclude s (if s.acSingle = true then .ok s else narrow x s >>= encRenorm arcPrecision)
      else .next (raiseError .absentSymbol s)
    else .next (raiseError .badState s) := by
  rw [← conclude_gate s (s.present x) .absentSymbol fun _ => _]
  exact conclude_sessionGates .enc s _

theorem exec_acEfin (s : State) : exec .acEfin s =
    if s.mode = .arithmetic ∧ s.acState = .enc then
      conclude s (if s.acSingle = true then .ok { s with acState := .idle }
        else addPending s >>= fun t => emit (!decide (s.acLow.toNat < quarter)) t >>= fun u =>
          .ok { u with acState := .idle })
    else .next (raiseError .badState s) :=
  conclude_sessionGates .enc s _

theorem exec_acDec (s : State) : exec .acDec s =
    if s.mode = .arithmetic ∧ s.acState = .dec then
      conclude s (if s.acSingle = true then .ok (s.setResult (s.acSym.setWidth 32))
        else codeValue s >>= fun v =>
          guardRaise (decide (0 ≤ v) && decide (v < s.totalCount)) .corruptStream >>= fun _ =>
          (s.symbolAt v).elim (.error (.fault .noSuchSymbol)) fun x =>
            narrow x s >>= fun t => decRenorm arcPrecision t >>= fun u => .ok (u.setResult (x.setWidth 32)))
    else .next (raiseError .badState s) := by
  rw [← conclude_sessionGates, exec, execAcDec]
  cases hvalue : codeValue s with
  | error e => simp only [error_bind]
  | ok v => cases hfound : s.symbolAt v <;> simp only [ok_bind, hfound, Option.elim]

theorem exec_acDfin (s : State) : exec .acDfin s =
    if s.mode = .arithmetic ∧ s.acState = .dec then .next { s with acState := .idle }
    else .next (raiseError .badState s) :=
  conclude_sessionGates .dec s _

/-! ## The encoder (rules R305, R307, R308) -/

/-- `s` with the symbol `x` encoded: narrowed, and at the end of its path of renormalization (rules R304, R305). -/
def State.encoded (s : State) (x : Sym) : State :=
  State.followed { s with acHigh := (s.narrowed x).2, acLow := (s.narrowed x).1 } (s.symbolPath x)

/-- `AC.ENC` of a present symbol in a normal session encodes it, or raises the first error of its path. -/
theorem acEnc_encodes {s : State} {x : Sym} (hc : s.config.wf) (hmode : s.mode = .arithmetic) (henc : s.acState = .enc)
    (hx : s.present x = true) (hmany : s.acSingle = false) (htotal : s.total ≠ 0) : exec (.acEnc x) s =
      .next ((pathError s.capBits (s.symbolPath x) s.acPend.toNat s.bsWpos.toNat).elim (s.encoded x)
        fun e => raiseError e s) := by
  have hrenorm := encRenorm_path arcPrecision (s := { s with
    acHigh := (s.narrowed x).2, acLow := (s.narrowed x).1 }) hc
  rw [exec_acEnc, if_pos ⟨hmode, henc⟩, if_pos hx, if_neg (Bool.eq_false_iff.1 hmany),
    narrow_ok x (totalCount_pos_iff.2 htotal), ok_bind, hrenorm]
  change conclude s (match pathError s.capBits (s.symbolPath x) s.acPend.toNat s.bsWpos.toNat with
    | none => .ok (s.encoded x)
    | some e => .error (.raise e)) = _
  cases pathError s.capBits (s.symbolPath x) s.acPend.toNat s.bsWpos.toNat <;> rfl

theorem acEnc_single {s : State} {x : Sym} (hmode : s.mode = .arithmetic) (henc : s.acState = .enc)
    (hx : s.present x = true) (hsingle : s.acSingle = true) : exec (.acEnc x) s = .next s := by
  rw [exec_acEnc, if_pos ⟨hmode, henc⟩, if_pos hx, if_pos hsingle, conclude_ok]

/-- A path without an error leaves the cursor and the pending count exact. -/
theorem encoded_exact {s : State} {x : Sym} (hc : s.config.wf) (hw : s.bsWpos.toNat ≤ s.capBits)
    (hfit : pathError s.capBits (s.symbolPath x) s.acPend.toNat s.bsWpos.toNat = none) :
    s.bsWpos.toNat + (pathBits (s.symbolPath x) s.acPend.toNat).length ≤ s.capBits ∧
    (s.encoded x).bsWpos.toNat = s.bsWpos.toNat + (pathBits (s.symbolPath x) s.acPend.toNat).length ∧
    (s.encoded x).acPend.toNat = pathPend (s.symbolPath x) s.acPend.toNat := by
  obtain ⟨hbits, hpend⟩ := pathError_none (Nat.le_sub_one_of_lt s.acPend.isLt) hw hfit
  exact ⟨hbits, cursor_add_toNat hc hbits, Nat.mod_eq_of_lt (Nat.lt_succ_iff.2 hpend)⟩

/-- Settles O50: the answer is the end of the path, whose bits `State.put` writes. -/
theorem acEncFollowsThePath : Obligations.AcEncFollowsThePath := by
  refine ⟨fun s x hs hmode henc hx hmany htotal => ?_, fun s x => acEnc_single, fun s x hmode henc hx => ?_,
    fun s x hgate => ?_, fun x => rfl⟩
  · have hexec := acEnc_encodes hs.config hmode henc hx hmany htotal
    refine ⟨fun hfit => ?_, fun e herr => ?_⟩
    · obtain ⟨-, hpos, hpend⟩ := encoded_exact hs.config hs.wpos hfit
      rw [hfit, Option.elim_none] at hexec
      exact ⟨_, _, _, putList_written hs.memory _ _, hpos, hpend, hexec⟩
    · rwa [herr, Option.elim_some] at hexec
  · rw [Raises, exec_acEnc, if_pos ⟨hmode, henc⟩, if_neg (Bool.eq_false_iff.1 hx)]
  · rw [Raises, exec_acEnc, if_neg (by tauto)]

/-- The bits that close a normal session: one that tells on which side of a quarter the interval starts, and its
opposite for this and each pending bit (rule R308). -/
def finalBits (low : Word) (pend : Nat) : List Bool :=
  decide (quarter ≤ low.toNat) :: List.replicate (pend + 1) (decide (low.toNat < quarter))

@[simp] theorem finalBits_length (low : Word) (pend : Nat) : (finalBits low pend).length = 2 + pend := by
  simp [finalBits, Nat.add_comm, Nat.add_left_comm]

/-- `s` with a normal encode session closed (rule R308). -/
def State.closed (s : State) : State :=
  { s.put (finalBits s.acLow s.acPend.toNat) with acPend := 0, acState := .idle }

theorem acEfin_closes {s : State} (hc : s.config.wf) (hmode : s.mode = .arithmetic) (henc : s.acState = .enc)
    (hmany : s.acSingle = false) (hpend : s.acPend.toNat ≠ countMax) : exec .acEfin s =
      .next (if s.bsWpos.toNat + 2 + s.acPend.toNat ≤ s.capBits then s.closed else raiseError .bufferFull s) := by
  have hmore : (s.acPend + 1).toNat = s.acPend.toNat + 1 := by
    rw [countMax] at hpend
    bv_omega
  have hbits : ((!decide (s.acLow.toNat < quarter)) ::
      List.replicate (s.acPend + 1).toNat (!!decide (s.acLow.toNat < quarter))) = finalBits s.acLow s.acPend.toNat := by
    rw [finalBits, hmore, Bool.not_not, ← decide_not, decide_eq_decide.2 Nat.not_lt]
  rw [exec_acEfin, if_pos ⟨hmode, henc⟩, if_neg (Bool.eq_false_iff.1 hmany), addPending_eq, if_neg hpend, ok_bind,
    emit_eq (s := { s with acPend := s.acPend + 1 }) _ hc]
  change conclude s ((if s.bsWpos.toNat + (1 + (s.acPend + 1).toNat) ≤ s.capBits then _ else _) >>= _) = _
  have hroom : s.bsWpos.toNat + (1 + (s.acPend + 1).toNat) = s.bsWpos.toNat + 2 + s.acPend.toNat := by omega
  rw [hroom]
  split
  · rw [State.closed, ← hbits]
    rfl
  · rfl

theorem acEfin_single {s : State} (hmode : s.mode = .arithmetic) (henc : s.acState = .enc)
    (hsingle : s.acSingle = true) : exec .acEfin s = .next { s with acState := .idle } := by
  rw [exec_acEfin, if_pos ⟨hmode, henc⟩, if_pos hsingle, conclude_ok]

theorem acEfin_overflows {s : State} (hmode : s.mode = .arithmetic) (henc : s.acState = .enc)
    (hmany : s.acSingle = false) (hpend : s.acPend.toNat = countMax) : Raises .acEfin s .countOverflow := by
  rw [Raises, exec_acEfin, if_pos ⟨hmode, henc⟩, if_neg (Bool.eq_false_iff.1 hmany), addPending_eq, if_pos hpend,
    error_bind, conclude_raise]

/-- Settles O51: the closing bits are one `Emit` with one more bit pending. -/
theorem acFinCommandsCloseTheSession : Obligations.AcFinCommandsCloseTheSession := by
  refine ⟨fun s hs hmode henc hmany hpend => ?_, fun s => acEfin_overflows, fun s => acEfin_single,
    fun s hmode hdec => ?_, fun s hgate => ?_, fun s hgate => ?_, rfl, rfl⟩
  · have hexec := acEfin_closes hs.config hmode henc hmany hpend
    refine ⟨fun hfit => ?_, fun hfull => ?_⟩
    · rw [if_pos hfit] at hexec
      refine ⟨_, _, putList_written hs.memory _ _, ?_, hexec⟩
      have hlength := finalBits_length s.acLow s.acPend.toNat
      rw [Nat.add_assoc, ← hlength] at hfit ⊢
      exact cursor_add_toNat hs.config hfit
    · rwa [if_neg (by omega)] at hexec
  · rw [exec_acDfin, if_pos ⟨hmode, hdec⟩]
  · rw [Raises, exec_acEfin, if_neg (by tauto)]
  · rw [Raises, exec_acDfin, if_neg (by tauto)]

/-! ## The decoder (rules R309, R312) -/

/-- `s` with the symbol `x` decoded: narrowed, and at the end of its path of renormalization (rules R309, R312). -/
def State.decoded (s : State) (x : Sym) : State :=
  { s with
    acLow := (pathBounds (s.symbolPath x) (s.narrowed x)).1
    acHigh := (pathBounds (s.symbolPath x) (s.narrowed x)).2
    acCode := pathCode s.bsmem s.bsRlimit.toNat (s.symbolPath x) s.bsRpos.toNat s.acCode
    bsRpos := BitVec.ofNat 32 (min (s.bsRpos.toNat + (s.symbolPath x).length) s.bsRlimit.toNat)
    res := x.setWidth 32
    resHi := 0 }

/-- `AC.DEC` in a normal session decodes the symbol whose interval holds the value. -/
theorem acDec_decodes {s : State} {x : Sym} (hlimit : s.bsRlimit.toNat ≤ s.capBits)
    (hpos : s.bsRpos.toNat ≤ s.bsRlimit.toNat) (hmode : s.mode = .arithmetic) (hdec : s.acState = .dec)
    (hmany : s.acSingle = false) (hrange : 0 < s.acRange) (hv : 0 ≤ s.decodedValue)
    (hlt : s.decodedValue < s.totalCount) (hfound : s.symbolAt s.decodedValue = some x) :
    exec .acDec s = .next (s.decoded x) := by
  have hrenorm := decRenorm_path arcPrecision (s := { s with
    acHigh := (s.narrowed x).2, acLow := (s.narrowed x).1 }) hlimit hpos
  rw [exec_acDec, if_pos ⟨hmode, hdec⟩, if_neg (Bool.eq_false_iff.1 hmany), codeValue_ok hrange, ok_bind,
    decide_eq_true hv, decide_eq_true hlt, Bool.and_true, guardRaise_true, ok_bind, hfound, Option.elim_some,
    narrow_ok x (by omega), ok_bind, hrenorm]
  rfl

theorem acDec_single {s : State} (hmode : s.mode = .arithmetic) (hdec : s.acState = .dec)
    (hsingle : s.acSingle = true) : exec .acDec s = .next (s.setResult (s.acSym.setWidth 32)) := by
  rw [exec_acDec, if_pos ⟨hmode, hdec⟩, if_pos hsingle, conclude_ok]

/-- Settles O52: a code value between the bounds gives a value in [0, T), which one symbol's interval holds. -/
theorem acDecFindsTheSymbol : Obligations.AcDecFindsTheSymbol := by
  refine ⟨fun s hs hcounts hopen hdec hmany => ?_, fun s => acDec_single, fun s hmode hdec hmany hrange hout => ?_,
    fun s hgate => ?_, rfl⟩
  · have hrange : 0 < s.acRange := by have := headroom_range (hopen.headroom hmany); omega
    have htotal : 0 < s.totalCount := Int.natCast_pos.2 hopen.totalLow
    obtain ⟨hlow, hhigh⟩ := hopen.code hmany hdec
    obtain ⟨hv, hlt⟩ := decodedValue_range hrange htotal hlow hhigh
    obtain ⟨x, hfound, hx⟩ := symbolAt_some hcounts hopen.cumValid hv hlt
    exact ⟨x, _, _, hx, BitVec.toNat_setWidth_of_le (by omega), min_cursor_toNat _,
      acDec_decodes hs.rlimit hs.rpos hopen.mode hdec hmany hrange hv hlt hfound⟩
  · have hgate : (decide (0 ≤ s.decodedValue) && decide (s.decodedValue < s.totalCount)) = false := by
      rw [← Bool.decide_and, decide_eq_false_iff_not]
      omega
    rw [Raises, exec_acDec, if_pos ⟨hmode, hdec⟩, if_neg (Bool.eq_false_iff.1 hmany), codeValue_ok hrange, ok_bind,
      hgate, guardRaise_false, error_bind, conclude_raise]
  · rw [Raises, exec_acDec, if_neg (by tauto)]

end Sys2Proof.Machine
end

section
/-! O54: the arithmetic coder's round trip (rules R314, R316). The payload of a message is a function of the model's
narrowing and the message, `messageBits`. Read backwards from its end, the stream keeps the code value it stands for,
`codeWindow`, inside the bounds at every step; read forwards, the decoder's `AC_CODE` is that value, so each interval
it falls in is the one that was encoded. -/

namespace Sys2Proof.Machine

/-! ## The payload of a message (rules R307, R308) -/

/-- How a model narrows the bounds to a symbol (rule R304). -/
abbrev Narrowing := Sym → Word × Word → Word × Word

/-- The narrowing of a state's model. -/
def State.narrowing (s : State) : Narrowing := fun x b => State.narrowed { s with acLow := b.1, acHigh := b.2 } x

/-- The narrowing sees the three tables of the model alone. -/
theorem narrowing_congr {s s' : State} (hfreq : s'.freq = s.freq) (hcum : s'.cum = s.cum)
    (htotal : s'.total = s.total) : s'.narrowing = s.narrowing := by
  funext x b
  simp only [State.narrowing, State.narrowed, State.scaled, State.acRange, State.cumLow, State.cumHigh,
    State.totalCount, hfreq, hcum, htotal]

/-- The path of renormalization after narrowing the bounds `b` to `x`. -/
def codePath (N : Narrowing) (x : Sym) (b : Word × Word) : List RenormCase :=
  renormPath arcPrecision (N x b).1 (N x b).2

/-- The bits of a message and of the end of its session, from the bounds `b` with `pend` bits pending. -/
def messageBits (N : Narrowing) : List Sym → Word × Word → Nat → List Bool
  | [], b, pend => finalBits b.1 pend
  | x :: ms, b, pend => pathBits (codePath N x b) pend ++
      messageBits N ms (pathBounds (codePath N x b) (N x b)) (pathPend (codePath N x b) pend)

/-! ## One case of a path at a time -/

/-- The bits of one case with `pend` bits pending (rule R305). -/
def RenormCase.bits : RenormCase → Nat → List Bool
  | .e1, pend => false :: List.replicate pend true
  | .e2, pend => true :: List.replicate pend false
  | .e3, _ => []

/-- The bits pending after one case. -/
def RenormCase.pendAfter : RenormCase → Nat → Nat
  | .e1, _ => 0
  | .e2, _ => 0
  | .e3, pend => pend + 1

/-- What one case does to the decoder's code value before the shift (rule R309). -/
def RenormCase.adjust : RenormCase → Word → Word
  | .e1, code => code
  | .e2, code => code
  | .e3, code => flipSecond code

theorem pathBits_cons (c : RenormCase) (cs : List RenormCase) (pend : Nat) :
    pathBits (c :: cs) pend = c.bits pend ++ pathBits cs (c.pendAfter pend) := by
  cases c <;> rfl

theorem pathPend_cons (c : RenormCase) (cs : List RenormCase) (pend : Nat) :
    pathPend (c :: cs) pend = pathPend cs (c.pendAfter pend) := by
  cases c <;> rfl

theorem pathCode_cons (m : Memory) (limit : Nat) (c : RenormCase) (cs : List RenormCase) (p : Nat) (code : Word) :
    pathCode m limit (c :: cs) p code =
      pathCode m limit cs (p + 1) (shiftWord (c.adjust code) (zeroFilled m limit p)) := by
  cases c <;> rfl

/-- Each case shifts once: the bits it emits and those it leaves pending are one more than were pending. -/
theorem bits_length_add_pendAfter (c : RenormCase) (pend : Nat) :
    (c.bits pend).length + c.pendAfter pend = pend + 1 := by
  cases c <;> simp [RenormCase.bits, RenormCase.pendAfter]

theorem pathBits_length_add_pathPend (cs : List RenormCase) : ∀ pend : Nat,
    (pathBits cs pend).length + pathPend cs pend = pend + cs.length := by
  induction cs with
  | nil => intro pend; simp [pathBits, pathPend]
  | cons c cs ih =>
    intro pend
    have hstep := bits_length_add_pendAfter c pend
    have hrest := ih (c.pendAfter pend)
    rw [pathBits_cons, pathPend_cons, List.length_append, List.length_cons]
    omega

/-- A value between the bounds of a pair. -/
def Inside (b : Word × Word) (v : Int) : Prop := (b.1.toNat : Int) ≤ v ∧ v ≤ b.2.toNat

/-- One case doubles a code value between the bounds, measured from the case's offset, as it does the bounds. -/
theorem shift_adjust_toNat {c : RenormCase} {low high code : Word} {b : Bool} (h : low.toNat ≤ high.toNat)
    (hc : renormCase low high = some c) (hcode : Inside (low, high) code.toNat) :
    ((shiftWord (c.adjust code) b).toNat : Int) = 2 * (code.toNat - c.offset) + b.toNat := by
  obtain ⟨hlow, hhigh⟩ := hcode
  obtain ⟨hoffset, htop, -, -⟩ := bounds_toNat h hc
  have hbit := Bool.toNat_le b
  rw [shiftWord_toNat]
  cases c with
  | e1 | e2 =>
    simp only [RenormCase.adjust, RenormCase.offset, half, arcPrecision] at *
    omega
  | e3 =>
    obtain ⟨-, -, hquarter, hthree⟩ := renormCase_e3_iff.1 hc
    simp only [RenormCase.adjust, RenormCase.offset] at *
    by_cases hcode : code.toNat < half
    · rw [flipSecond_sub (by omega) hcode]
      simp only [half, quarter, arcPrecision] at *
      omega
    · rw [flipSecond_add (by omega) (by omega)]
      simp only [half, quarter, arcPrecision] at *
      omega

/-! ## The stream as numbers -/

/-- The stream holds `bs` from position `p` on, before the limit. -/
def Carries (m : Memory) (limit p : Nat) (bs : List Bool) : Prop := p + bs.length ≤ limit ∧ m.Holds p bs

section
variable {m : Memory} {limit : Nat}

theorem zeroFilled_of_carries {p i : Nat} {bs : List Bool} (h : Carries m limit p bs) (hi : i < bs.length) :
    zeroFilled m limit (p + i) = bs.getD i false := by
  obtain ⟨hlimit, hbits⟩ := h
  rw [zeroFilled, decide_eq_true (by omega), Bool.true_and, hbits i hi]

theorem carries_append {p : Nat} {as bs : List Bool} (h : Carries m limit p (as ++ bs)) :
    Carries m limit p as ∧ Carries m limit (p + as.length) bs := by
  obtain ⟨hlimit, hbits⟩ := h
  obtain ⟨hfirst, hrest⟩ := holds_append hbits
  rw [List.length_append] at hlimit
  exact ⟨⟨by omega, hfirst⟩, ⟨by omega, hrest⟩⟩

theorem zeroFilledValue_add (p j k : Nat) : zeroFilledValue m limit p (j + k) =
    2 ^ k * zeroFilledValue m limit p j + zeroFilledValue m limit (p + j) k := by
  induction k with
  | zero => simp [zeroFilledValue]
  | succ k ih => rw [← Nat.add_assoc, zeroFilledValue, ih, zeroFilledValue, Nat.pow_succ, Nat.add_assoc p j k]; ring

/-- A bit and `k` opposite ones stand for 10…0 or 01…1. -/
theorem value_of_carries {p k : Nat} {b : Bool} (h : Carries m limit p (b :: List.replicate k !b)) :
    zeroFilledValue m limit p (k + 1) + 1 = 2 ^ k + b.toNat := by
  induction k with
  | zero =>
    have hfirst := zeroFilled_of_carries h (i := 0) (by simp)
    simp only [Nat.add_zero, List.getD_cons_zero] at hfirst
    simp [zeroFilledValue, hfirst, Nat.add_comm]
  | succ k ih =>
    have hlast := zeroFilled_of_carries h (i := k + 1) (by simp)
    rw [List.replicate_succ', ← List.cons_append] at h
    have hvalue := ih (carries_append h).1
    rw [List.getD_cons_succ, List.getD_replicate _ (Nat.lt_succ_self k)] at hlast
    rw [zeroFilledValue, hlast, Nat.pow_succ]
    cases b
    · simp only [Bool.not_false, Bool.toNat_true, Bool.toNat_false] at hvalue ⊢
      omega
    · simp only [Bool.not_true, Bool.toNat_true, Bool.toNat_false] at hvalue ⊢
      omega

/-- The code value the stream stands for at position `e` with `pend` bits pending: the number of the next 32 + `pend`
bits, less what the pending E3 cases took away. -/
def codeWindow (m : Memory) (limit e pend : Nat) : Int :=
  zeroFilledValue m limit e (arcPrecision + pend) + half - (half * 2 ^ pend : Nat)

theorem codeWindow_start (e : Nat) : codeWindow m limit e 0 = zeroFilledValue m limit e arcPrecision := by
  simp [codeWindow]

/-- One case doubles the code value, measured from the case's offset, and takes in the next bit of the stream. -/
theorem codeWindow_step {c : RenormCase} {e pend : Nat} (h : Carries m limit e (c.bits pend)) :
    codeWindow m limit (e + (c.bits pend).length) (c.pendAfter pend) =
      2 * (codeWindow m limit e pend - c.offset) + (zeroFilled m limit (e + pend + arcPrecision)).toNat := by
  have hnext : zeroFilledValue m limit e (arcPrecision + pend + 1) =
      2 * zeroFilledValue m limit e (arcPrecision + pend) + (zeroFilled m limit (e + pend + arcPrecision)).toNat := by
    rw [zeroFilledValue, Nat.add_right_comm e pend, Nat.add_assoc e]
  have hemitted {b : Bool} (hbits : c.bits pend = b :: List.replicate pend !b) (hpend : c.pendAfter pend = 0)
      (hoffset : c.offset = b.toNat * half) :
      codeWindow m limit (e + (c.bits pend).length) (c.pendAfter pend) =
        2 * (codeWindow m limit e pend - c.offset) + (zeroFilled m limit (e + pend + arcPrecision)).toNat := by
    have hvalue := value_of_carries (hbits ▸ h)
    have hsplit := zeroFilledValue_add (m := m) (limit := limit) e (pend + 1) arcPrecision
    rw [show pend + 1 + arcPrecision = arcPrecision + pend + 1 by omega] at hsplit
    rw [hpend, hoffset, hbits, codeWindow_start, codeWindow, List.length_cons, List.length_replicate]
    generalize 2 ^ pend = q at *
    cases b <;> simp only [Bool.toNat_true, Bool.toNat_false, half, arcPrecision] at * <;> omega
  cases c with
  | e1 => exact hemitted (b := false) rfl rfl (Nat.zero_mul _).symm
  | e2 => exact hemitted (b := true) rfl rfl (Nat.one_mul _).symm
  | e3 =>
    simp only [codeWindow, RenormCase.bits, RenormCase.pendAfter, RenormCase.offset, List.length_nil, Nat.add_zero,
      Nat.pow_succ, ← Nat.add_assoc, hnext]
    generalize 2 ^ pend = q
    simp only [half, quarter, arcPrecision]
    omega

/-- … so it lies between the bounds before the case exactly where it does after. -/
theorem codeWindow_inside_iff {c : RenormCase} {b : Word × Word} {e pend : Nat} (hb : b.1.toNat ≤ b.2.toNat)
    (hc : renormCase b.1 b.2 = some c) (h : Carries m limit e (c.bits pend)) :
    Inside (c.bounds b.1 b.2) (codeWindow m limit (e + (c.bits pend).length) (c.pendAfter pend)) ↔
      Inside b (codeWindow m limit e pend) := by
  obtain ⟨hlow, -, hlow', hhigh'⟩ := bounds_toNat hb hc
  have hbit := Bool.toNat_le (zeroFilled m limit (e + pend + arcPrecision))
  rw [Inside, Inside, codeWindow_step h, hlow', hhigh']
  omega

/-- A stream that carries a path's bits: the code value lies between the bounds at the path's start where it does at
its end. -/
theorem codeWindow_inside_of_path (fuel : Nat) : ∀ {b : Word × Word} {e pend : Nat}, b.1.toNat ≤ b.2.toNat →
    Carries m limit e (pathBits (renormPath fuel b.1 b.2) pend) →
    Inside (pathBounds (renormPath fuel b.1 b.2) b) (codeWindow m limit
      (e + (pathBits (renormPath fuel b.1 b.2) pend).length) (pathPend (renormPath fuel b.1 b.2) pend)) →
    Inside b (codeWindow m limit e pend) := by
  induction fuel with
  | zero => exact fun {b e pend} _ _ hend => hend
  | succ fuel ih =>
    intro b e pend hb hbits hend
    cases hc : renormCase b.1 b.2 with
    | none => rwa [renormPath_end hc] at hend
    | some c =>
      obtain ⟨hlow, -, hlow', hhigh'⟩ := bounds_toNat hb hc
      rw [renormPath_step hc] at hbits hend
      rw [pathBits_cons] at hbits hend
      obtain ⟨hfirst, hrest⟩ := carries_append hbits
      rw [List.length_append, ← Nat.add_assoc, pathPend_cons] at hend
      exact (codeWindow_inside_iff hb hc hfirst).1 (ih (b := c.bounds b.1 b.2) (by omega) hrest hend)

/-- The decoder's side of a path: from the stream's code value to the stream's code value (rule R309). -/
theorem pathCode_eq_codeWindow (fuel : Nat) : ∀ {b : Word × Word} {e pend : Nat} {code : Word}, b.1.toNat ≤ b.2.toNat →
    Carries m limit e (pathBits (renormPath fuel b.1 b.2) pend) → Inside b (codeWindow m limit e pend) →
    (code.toNat : Int) = codeWindow m limit e pend →
    ((pathCode m limit (renormPath fuel b.1 b.2) (e + pend + arcPrecision) code).toNat : Int) = codeWindow m limit
        (e + (pathBits (renormPath fuel b.1 b.2) pend).length) (pathPend (renormPath fuel b.1 b.2) pend) ∧
      Inside (pathBounds (renormPath fuel b.1 b.2) b) (codeWindow m limit
        (e + (pathBits (renormPath fuel b.1 b.2) pend).length) (pathPend (renormPath fuel b.1 b.2) pend)) := by
  induction fuel with
  | zero => exact fun {b e pend code} _ _ hin hcode => ⟨hcode, hin⟩
  | succ fuel ih =>
    intro b e pend code hb hbits hin hcode
    cases hc : renormCase b.1 b.2 with
    | none =>
      rw [renormPath_end hc]
      exact ⟨hcode, hin⟩
    | some c =>
      obtain ⟨hlow, -, hlow', hhigh'⟩ := bounds_toNat hb hc
      rw [renormPath_step hc] at hbits ⊢
      rw [pathBits_cons] at hbits ⊢
      obtain ⟨hfirst, hrest⟩ := carries_append hbits
      rw [List.length_append, ← Nat.add_assoc, pathPend_cons, pathCode_cons]
      have hshifts := bits_length_add_pendAfter c pend
      have hpos : e + pend + arcPrecision + 1 = e + (c.bits pend).length + c.pendAfter pend + arcPrecision := by omega
      have hnext := (shift_adjust_toNat (b := zeroFilled m limit (e + pend + arcPrecision)) hb hc (hcode ▸ hin)).trans
        ((congrArg (fun v => 2 * (v - (c.offset : Int)) + _) hcode).trans (codeWindow_step hfirst).symm)
      rw [hpos]
      exact ih (b := c.bounds b.1 b.2) (by omega) hrest ((codeWindow_inside_iff hb hc hfirst).2 hin) hnext

/-! ## A whole message (rules R314, R316) -/

theorem headroom_ordered {low high : Word} (h : Headroom low high) : low.toNat ≤ high.toNat := by
  simp only [Headroom, half, quarter, arcPrecision] at h
  omega

/-- From ordered bounds a path ends in headroom (rule R314 item 2). -/
theorem path_headroom {b : Word × Word} (hb : b.1.toNat ≤ b.2.toNat) :
    Headroom (pathBounds (renormPath arcPrecision b.1 b.2) b).1 (pathBounds (renormPath arcPrecision b.1 b.2) b).2 :=
  renormCase_none_headroom (renormPath_ends hb (Nat.le_mul_of_pos_right _ (by omega)))

/-- Narrowing bounds with headroom to `x` gives ordered bounds inside them (rule R314 item 3). -/
def Narrowing.Keeps (N : Narrowing) (x : Sym) : Prop := ∀ b : Word × Word, Headroom b.1 b.2 →
  b.1.toNat ≤ (N x b).1.toNat ∧ (N x b).1.toNat ≤ (N x b).2.toNat ∧ (N x b).2.toNat ≤ b.2.toNat

/-- The bits that close a session leave the code value between the bounds, whatever follows them (rule R308). -/
theorem codeWindow_inside_of_final {b : Word × Word} {e pend : Nat} (hb : Headroom b.1 b.2)
    (hbits : Carries m limit e (finalBits b.1 pend)) : Inside b (codeWindow m limit e pend) := by
  have hopposite : decide (b.1.toNat < quarter) = !decide (quarter ≤ b.1.toNat) := by
    rw [← decide_not, decide_eq_decide, Nat.not_le]
  rw [finalBits, hopposite] at hbits
  have hvalue := value_of_carries hbits
  have hsplit := zeroFilledValue_add (m := m) (limit := limit) e (pend + 1 + 1) 30
  have htail := zeroFilledValue_lt m limit (e + (pend + 1 + 1)) 30
  rw [show pend + 1 + 1 + 30 = arcPrecision + pend by rw [arcPrecision]; omega] at hsplit
  rw [Nat.pow_succ] at hvalue
  rw [Inside, codeWindow]
  generalize 2 ^ pend = q at *
  by_cases hlow : quarter ≤ b.1.toNat
  · rw [decide_eq_true hlow, Bool.toNat_true] at hvalue
    simp only [Headroom, half, quarter, arcPrecision] at *
    omega
  · rw [decide_eq_false hlow, Bool.toNat_false] at hvalue
    simp only [Headroom, half, quarter, arcPrecision] at *
    omega

/-- Where the rest of a message keeps the code value between its bounds, so does its first symbol's narrowing. -/
theorem codeWindow_inside_narrowed {N : Narrowing} {x : Sym} {ms : List Sym} {b : Word × Word} {e pend : Nat}
    (hordered : (N x b).1.toNat ≤ (N x b).2.toNat) (hbits : Carries m limit e (messageBits N (x :: ms) b pend))
    (hrest : ∀ {b e pend}, Headroom b.1 b.2 → Carries m limit e (messageBits N ms b pend) →
      Inside b (codeWindow m limit e pend)) : Inside (N x b) (codeWindow m limit e pend) := by
  obtain ⟨hfirst, hmore⟩ := carries_append hbits
  exact codeWindow_inside_of_path arcPrecision hordered hfirst (hrest (path_headroom hordered) hmore)

/-- A stream that carries a message's bits stands for a code value between the bounds. -/
theorem codeWindow_inside_of_message {N : Narrowing} (ms : List Sym) : (∀ x ∈ ms, N.Keeps x) →
    ∀ {b : Word × Word} {e pend : Nat}, Headroom b.1 b.2 → Carries m limit e (messageBits N ms b pend) →
    Inside b (codeWindow m limit e pend) := by
  induction ms with
  | nil => exact fun _ {b e pend} => codeWindow_inside_of_final
  | cons x ms ih =>
    intro hkeeps b e pend hb hbits
    obtain ⟨hx, hms⟩ := List.forall_mem_cons.1 hkeeps
    obtain ⟨hlow, hordered, hhigh⟩ := hx b hb
    have hin := codeWindow_inside_narrowed hordered hbits (ih hms)
    rw [Inside] at hin ⊢
    omega

end

/-! ## The decoder follows the message (rules R309, R312) -/

/-- A model within the precision bound keeps narrowed bounds inside. -/
theorem narrowing_keeps {s : State} (hs : CountsAgree s) (hvalid : s.cumValid = true) (htotal : s.total.toNat ≤ quarter)
    {x : Sym} (hx : s.present x = true) : s.narrowing.Keeps x := by
  intro b hb
  have hrange := headroom_range (s := { s with acLow := b.1, acHigh := b.2 }) hb
  have hfits : s.totalCount ≤ (quarter : Int) := Int.ofNat_le.2 htotal
  obtain ⟨-, -, hinner⟩ := narrowed_inner (s := { s with acLow := b.1, acHigh := b.2 }) ⟨hs.total, hs.cum, hs.nsym⟩
    hvalid hx (hfits.trans hrange.le)
  exact hinner

/-- A code value between the bounds narrowed to `x` gives a value in the interval of `x`. -/
theorem decodedValue_of_narrowed {s : State} (hs : CountsAgree s) (hvalid : s.cumValid = true) {x : Sym}
    (hx : s.present x = true) (hrange : s.totalCount ≤ s.acRange) (hcode : Inside (s.narrowed x) s.acCode.toNat) :
    s.cumLow x ≤ s.decodedValue ∧ s.decodedValue < s.cumHigh x := by
  obtain ⟨hlow, hhigh, -⟩ := narrowed_inner hs hvalid hx hrange
  obtain ⟨hcodeLow, hcodeHigh⟩ := hcode
  obtain ⟨hzero, -, htop, hne⟩ := interval_bounds hs hvalid x
  have htotal : 0 < s.totalCount := by have := hne hx; omega
  rw [hlow, State.scaled] at hcodeLow
  rw [hhigh, State.scaled] at hcodeHigh
  rw [State.decodedValue, Int.le_ediv_iff_mul_le (by omega), Int.ediv_lt_iff_lt_mul (by omega),
    Int.mul_comm (s.cumLow x), Int.mul_comm (s.cumHigh x)]
  have hbelow : s.acRange * s.cumLow x / s.totalCount < s.acCode.toNat - s.acLow.toNat + 1 := by omega
  have habove : (s.acCode.toNat : Int) - s.acLow.toNat + 1 ≤ s.acRange * s.cumHigh x / s.totalCount := by omega
  rw [Int.ediv_lt_iff_lt_mul htotal] at hbelow
  rw [Int.le_ediv_iff_mul_le htotal] at habove
  omega

/-- In a normal decode session `AC_CODE` is the code value of the stream at position `e` with `pend` bits pending. -/
structure Tracks (s : State) (e pend : Nat) : Prop where
  limit : s.bsRlimit.toNat ≤ s.capBits
  counts : CountsAgree s
  mode : s.mode = .arithmetic
  session : s.acState = .dec
  many : s.acSingle = false
  cumValid : s.cumValid = true
  total : s.total.toNat ≤ quarter
  headroom : Headroom s.acLow s.acHigh
  code : (s.acCode.toNat : Int) = codeWindow s.bsmem s.bsRlimit.toNat e pend
  rpos : s.bsRpos.toNat = min (e + pend + arcPrecision) s.bsRlimit.toNat

/-- Where the code value lies between the bounds narrowed to `x`, `AC.DEC` decodes `x` and tracks the stream on. -/
theorem acDec_tracks {s : State} {e pend : Nat} (h : Tracks s e pend) {x : Sym} (hx : s.present x = true)
    (hbits : Carries s.bsmem s.bsRlimit.toNat e (pathBits (s.symbolPath x) pend))
    (hin : Inside (s.narrowed x) (codeWindow s.bsmem s.bsRlimit.toNat e pend)) :
    exec .acDec s = .next (s.decoded x) ∧
      Tracks (s.decoded x) (e + (pathBits (s.symbolPath x) pend).length) (pathPend (s.symbolPath x) pend) := by
  have hrange := headroom_range h.headroom
  have hfits : s.totalCount ≤ (quarter : Int) := Int.ofNat_le.2 h.total
  have hvalue := decodedValue_of_narrowed h.counts h.cumValid hx (by omega) (h.code ▸ hin)
  obtain ⟨hzero, -, htop, -⟩ := interval_bounds h.counts h.cumValid x
  have hfound : s.symbolAt s.decodedValue = some x := by
    obtain ⟨y, hfound, -, hy⟩ := symbolAt_some h.counts h.cumValid (v := s.decodedValue) (by omega) (by omega)
    rwa [interval_symbol_unique h.counts h.cumValid hvalue hy] at hfound
  refine ⟨acDec_decodes h.limit (by rw [h.rpos]; omega) h.mode h.session h.many (by omega) (by omega) (by omega)
    hfound, ?_⟩
  obtain ⟨-, hordered, -⟩ := narrowing_keeps h.counts h.cumValid h.total hx (s.acLow, s.acHigh) h.headroom
  obtain ⟨hcode, -⟩ := pathCode_eq_codeWindow arcPrecision hordered hbits hin h.code
  have hlength := pathBits_length_add_pathPend (s.symbolPath x) pend
  have hcursor : min (s.bsRpos.toNat + (s.symbolPath x).length) s.bsRlimit.toNat =
      min (e + (pathBits (s.symbolPath x) pend).length + pathPend (s.symbolPath x) pend + arcPrecision)
        s.bsRlimit.toNat := by
    rw [h.rpos]
    omega
  refine ⟨h.limit, ⟨h.counts.total, h.counts.cum, h.counts.nsym⟩, h.mode, h.session, h.many, h.cumValid, h.total,
    path_headroom hordered, ?_, (min_cursor_toNat _).trans hcursor⟩
  rw [State.decoded, pathCode_min _ _ _ _ (e + pend + arcPrecision) _ (by rw [h.rpos]; omega)]
  exact hcode

/-- As many `AC.DEC` as the message has symbols return it, where the stream carries its bits. -/
theorem runResults_acDec (ms : List Sym) : ∀ {s : State} {e pend : Nat}, Tracks s e pend →
    (∀ x ∈ ms, s.present x = true) →
    Carries s.bsmem s.bsRlimit.toNat e (messageBits s.narrowing ms (s.acLow, s.acHigh) pend) →
    ∃ u, runResults (List.replicate ms.length .acDec) s = some (ms.map fun x => x.setWidth 32, u) ∧ u.err = s.err := by
  induction ms with
  | nil => exact fun {s} _ _ _ _ _ => ⟨s, rfl, rfl⟩
  | cons x ms ih =>
    intro s e pend h hpresent hbits
    obtain ⟨hx, hms⟩ := List.forall_mem_cons.1 hpresent
    have hkeeps : ∀ y ∈ ms, s.narrowing.Keeps y := fun y hy => narrowing_keeps h.counts h.cumValid h.total (hms y hy)
    obtain ⟨-, hordered, -⟩ := narrowing_keeps h.counts h.cumValid h.total hx (s.acLow, s.acHigh) h.headroom
    have hin := codeWindow_inside_narrowed hordered hbits (codeWindow_inside_of_message ms hkeeps)
    obtain ⟨hfirst, hrest⟩ := carries_append hbits
    obtain ⟨hexec, htracks⟩ := acDec_tracks h hx hfirst hin
    obtain ⟨u, hrun, herr⟩ := ih htracks hms hrest
    refine ⟨u, ?_, herr⟩
    rw [List.length_cons, List.replicate_succ, runResults, hexec]
    simp only [hrun, Option.map_some, List.map_cons]
    rfl

end Sys2Proof.Machine
end

section
/-! O54, continued: a run of the encoder that ends without an error leaves the message's payload in the memory; the
decoder returns the message from any memory that holds it. -/

namespace Sys2Proof.Machine

/-! ## Runs that end without an error -/

theorem frameOf_err {i : Instr} (hi : acceptedUnderError i = false) (s t : State) : (frameOf i s t).err = s.err := by
  cases i with
  | ctlReset | ctlClrerr => cases hi
  | _ => rfl

/-- No command but those accepted under an error clears it. -/
theorem err_of_exec {i : Instr} {s t : State} (hi : acceptedUnderError i = false) (h : exec i s = .next t)
    (herr : t.err = false) : s.err = false := by
  obtain hframe | ⟨e, hraise⟩ := exec_frame h
  · rwa [hframe, frameOf_err hi] at herr
  · rw [hraise] at herr
    cases herr

theorem runCommands_cons_next {i : Instr} {is : List Instr} {s t : State} (h : runCommands (i :: is) s = .next t) :
    ∃ u, exec i s = .next u ∧ runCommands is u = .next t := by
  rw [runCommands] at h
  split at h
  · next u hexec => exact ⟨u, hexec, h⟩
  · cases h
  · cases h

theorem err_of_runCommands (is : List Instr) : ∀ {s t : State}, (∀ i ∈ is, acceptedUnderError i = false) →
    runCommands is s = .next t → t.err = false → s.err = false := by
  induction is with
  | nil =>
    rintro s t _ ⟨⟩ herr
    exact herr
  | cons i is ih =>
    intro s t his h herr
    obtain ⟨hi, hrest⟩ := List.forall_mem_cons.1 his
    obtain ⟨u, hexec, hrun⟩ := runCommands_cons_next h
    exact err_of_exec hi hexec (ih hrest hrun herr)

/-! ## What the encoder's run leaves (rules R307, R308) -/

/-- `s` with an encode session ended after the bits `bs`. -/
def State.ended (s : State) (bs : List Bool) (low high pend : Word) : State :=
  { s.put bs with acLow := low, acHigh := high, acPend := pend, acState := .idle }

theorem encoded_ended {s : State} {x : Sym} (bs : List Bool) (low high pend : Word) (hc : s.config.wf)
    (hroom : s.bsWpos.toNat + (pathBits (s.symbolPath x) s.acPend.toNat).length ≤ s.capBits) :
    (s.encoded x).ended bs low high pend =
      s.ended (pathBits (s.symbolPath x) s.acPend.toNat ++ bs) low high pend := by
  rw [State.ended, State.ended, ← put_append _ _ hc hroom]
  rfl

/-- The bits that an encode session in the state `s` still writes for the message `ms`. -/
def State.bitsToCome (s : State) (ms : List Sym) : List Bool :=
  messageBits s.narrowing ms (s.acLow, s.acHigh) s.acPend.toNat

theorem bitsToCome_nil (s : State) : s.bitsToCome [] = finalBits s.acLow s.acPend.toNat := rfl

theorem bitsToCome_cons {s : State} {x : Sym} (ms : List Sym)
    (hpend : (s.encoded x).acPend.toNat = pathPend (s.symbolPath x) s.acPend.toNat) :
    s.bitsToCome (x :: ms) = pathBits (s.symbolPath x) s.acPend.toNat ++ (s.encoded x).bitsToCome ms := by
  rw [State.bitsToCome, State.bitsToCome, hpend]
  rfl

/-- The commands that end a payload. -/
def closing : List Instr := [.acEfin, .bsFlush]

theorem closing_keeps_error (ms : List Sym) : ∀ i ∈ ms.map .acEnc ++ closing, acceptedUnderError i = false := by
  intro i hi
  obtain h | h := List.mem_append.1 hi
  · obtain ⟨x, -, rfl⟩ := List.mem_map.1 h
    rfl
  · exact (by decide : ∀ i ∈ closing, acceptedUnderError i = false) i h

/-- The bits of a normal session's payload are the message's. -/
theorem runCommands_acEnc (ms : List Sym) : ∀ {s t : State}, s.config.wf → s.bsWpos.toNat ≤ s.capBits →
    s.mode = .arithmetic → s.acState = .enc → s.acSingle = false → s.total ≠ 0 → (∀ x ∈ ms, s.present x = true) →
    runCommands (ms.map .acEnc ++ closing) s = .next t → t.err = false → ∃ low high pend,
      s.bsWpos.toNat + (s.bitsToCome ms).length ≤ s.capBits ∧
      exec .bsFlush (s.ended (s.bitsToCome ms) low high pend) = .next t := by
  induction ms with
  | nil =>
    intro s t hc hw hmode henc hmany htotal _ hrun herr
    obtain ⟨u, hefin, hrun⟩ := runCommands_cons_next hrun
    obtain ⟨v, hflush, ⟨⟩⟩ := runCommands_cons_next hrun
    have huerr : u.err = false := err_of_exec rfl hflush herr
    have hpend : s.acPend.toNat ≠ countMax := by
      intro hmax
      cases (acEfin_overflows hmode henc hmany hmax).symm.trans hefin
      cases huerr
    rw [acEfin_closes hc hmode henc hmany hpend] at hefin
    split at hefin
    · next hfit =>
      cases hefin
      refine ⟨_, _, _, ?_, hflush⟩
      rw [bitsToCome_nil, finalBits_length]
      omega
    · cases hefin
      cases huerr
  | cons x ms ih =>
    intro s t hc hw hmode henc hmany htotal hpresent hrun herr
    obtain ⟨hx, hms⟩ := List.forall_mem_cons.1 hpresent
    obtain ⟨u, hexec, hrun⟩ := runCommands_cons_next hrun
    have huerr : u.err = false := err_of_runCommands _ (closing_keeps_error ms) hrun herr
    rw [acEnc_encodes hc hmode henc hx hmany htotal] at hexec
    cases hfit : pathError s.capBits (s.symbolPath x) s.acPend.toNat s.bsWpos.toNat with
    | some e =>
      rw [hfit] at hexec
      cases hexec
      cases huerr
    | none =>
      rw [hfit] at hexec
      cases hexec
      obtain ⟨hroom, hpos, hpend⟩ := encoded_exact hc hw hfit
      obtain ⟨low, high, pend, hfits, hflush⟩ := ih (s := s.encoded x) hc (by rw [hpos]; exact hroom) hmode henc hmany
        htotal hms hrun herr
      rw [hpos] at hfits
      rw [encoded_ended _ _ _ _ hc hroom] at hflush
      rw [bitsToCome_cons ms hpend, List.length_append, ← Nat.add_assoc]
      exact ⟨low, high, pend, hfits, hflush⟩

/-- A single-symbol session has an empty payload. -/
theorem runCommands_acEnc_single (ms : List Sym) : ∀ {s t : State}, s.mode = .arithmetic → s.acState = .enc →
    s.acSingle = true → (∀ x ∈ ms, s.present x = true) → runCommands (ms.map .acEnc ++ closing) s = .next t →
    exec .bsFlush (s.ended [] s.acLow s.acHigh s.acPend) = .next t := by
  induction ms with
  | nil =>
    intro s t hmode henc hsingle _ hrun
    rw [State.ended, put_nil]
    obtain ⟨u, hefin, hrun⟩ := runCommands_cons_next hrun
    obtain ⟨v, hflush, ⟨⟩⟩ := runCommands_cons_next hrun
    cases (acEfin_single hmode henc hsingle).symm.trans hefin
    exact hflush
  | cons x ms ih =>
    intro s t hmode henc hsingle hpresent hrun
    obtain ⟨hx, hms⟩ := List.forall_mem_cons.1 hpresent
    obtain ⟨u, hexec, hrun⟩ := runCommands_cons_next hrun
    cases (acEnc_single hmode henc hx hsingle).symm.trans hexec
    exact ih hmode henc hsingle hms hrun

/-- The bits of a message's payload: none in a single-symbol session (rules R310, R316). -/
def State.payload (s : State) (ms : List Sym) : List Bool :=
  if s.ftNsym.toNat = 1 then [] else messageBits s.narrowing ms (0, 0xFFFFFFFF) 0

/-- The payload is a function of the counts and the message alone. -/
theorem payload_congr {s s' : State} (hs : CountsAgree s) (hvalid : s.cumValid = true) (hs' : CountsAgree s')
    (hvalid' : s'.cumValid = true) (hfreq : s'.freq = s.freq) (ms : List Sym) : s'.payload ms = s.payload ms := by
  have htotal : s'.total = s.total := BitVec.eq_of_toNat_eq (by rw [hs'.total, hs.total, hfreq])
  have hcum : s'.cum = s.cum := table_ext fun x => BitVec.eq_of_toNat_eq (by rw [hs'.cum hvalid', hs.cum hvalid, hfreq])
  rw [State.payload, State.payload, hs'.nsym hvalid', hs.nsym hvalid, hfreq, narrowing_congr hfreq hcum htotal]

/-- `t` holds the payload `bs` from byte 0 on, its number of bytes in `RES`, and the model of `s`, with no session
open. -/
structure HoldsPayload (s t : State) (bs : List Bool) : Prop where
  fits : bs.length ≤ s.capBits
  bsmem : t.bsmem = s.bsmem.putList 0 bs
  res : 8 * t.res.toNat = padToByte bs.length
  config : t.config = s.config
  mode : t.mode = s.mode
  acState : t.acState = .idle
  freq : t.freq = s.freq
  total : t.total = s.total
  cum : t.cum = s.cum
  ftNsym : t.ftNsym = s.ftNsym
  cumValid : t.cumValid = s.cumValid

theorem HoldsPayload.countsAgree {s t : State} {bs : List Bool} (h : HoldsPayload s t bs) (hs : CountsAgree s) :
    CountsAgree t := by
  refine ⟨?_, fun hvalid x => ?_, fun hvalid => ?_⟩
  · rw [h.total, h.freq, hs.total]
  · rw [h.cum, h.freq, hs.cum (h.cumValid ▸ hvalid)]
  · rw [h.ftNsym, h.freq, hs.nsym (h.cumValid ▸ hvalid)]

theorem holdsPayload_of_flush {s t : State} {bs : List Bool} {low high pend : Word} (hc : s.config.wf)
    (hw : s.bsWpos = 0) (hlength : bs.length ≤ s.capBits)
    (hflush : exec .bsFlush (s.ended bs low high pend) = .next t) : HoldsPayload s t bs := by
  have hzero : s.bsWpos.toNat = 0 := congrArg BitVec.toNat hw
  have hpos : (s.ended bs low high pend).bsWpos.toNat = bs.length := by
    have hput := put_bsWpos (s := s) (bs := bs) hc (by omega)
    rwa [hzero, Nat.zero_add] at hput
  have hpad := padToByte_le_capBits hlength
  rw [exec_bsFlush] at hflush
  cases hflush
  refine ⟨hlength, ?_, ?_, rfl, rfl, rfl, rfl, rfl, rfl, rfl, rfl⟩
  · exact congrArg (fun p => s.bsmem.putList p bs) hzero
  · show 8 * (BitVec.ofNat 32 (padToByte (s.ended bs low high pend).bsWpos.toNat / 8)).toNat = _
    rw [hpos, toNat_ofNat_of_le_capBits hc (by omega), padToByte]
    omega

/-- The encoder's run holds the message's payload at its end. -/
theorem encode_holdsPayload {s t : State} {ms : List Sym} (hc : s.config.wf) (hs : CountsAgree s)
    (hmode : s.mode = .arithmetic) (hidle : s.acState = .idle) (hvalid : s.cumValid = true)
    (hlow : 1 ≤ s.total.toNat) (hhigh : s.total.toNat ≤ quarter) (hpresent : ∀ x ∈ ms, s.present x = true)
    (hrun : runCommands (.bsWinit :: .acEinit :: (ms.map .acEnc ++ closing)) s = .next t) (herr : t.err = false) :
    HoldsPayload s t (s.payload ms) := by
  obtain ⟨r, hwinit, hrun⟩ := runCommands_cons_next hrun
  cases (exec_bsWinit s).symm.trans hwinit
  obtain ⟨u, heinit, hrun⟩ := runCommands_cons_next hrun
  obtain ⟨x, hopen, -⟩ := acEinitOpensASession.1 { s with bsWpos := 0 } ⟨hs.total, hs.cum, hs.nsym⟩ hmode hidle hvalid
    hlow hhigh
  cases hopen.symm.trans heinit
  have htransfer {bs : List Bool} (h : HoldsPayload (State.opened { s with bsWpos := 0 } .enc x) t bs) :
      HoldsPayload s t bs :=
    ⟨h.fits, h.bsmem, h.res, h.config, h.mode, h.acState, h.freq, h.total, h.cum, h.ftNsym, h.cumValid⟩
  refine htransfer ?_
  rw [State.payload]
  split
  · next hsingle =>
    exact holdsPayload_of_flush hc rfl (Nat.zero_le _)
      (runCommands_acEnc_single ms hmode rfl (decide_eq_true hsingle) hpresent hrun)
  · next hmany =>
    have htotal : s.total ≠ 0 := by
      rintro h
      rw [h] at hlow
      cases hlow
    obtain ⟨low, high, pend, hfit, hflush⟩ := runCommands_acEnc ms (s := State.opened { s with bsWpos := 0 } .enc x) hc
      (Nat.zero_le _) hmode rfl (decide_eq_false hmany) htotal hpresent hrun herr
    exact holdsPayload_of_flush hc rfl ((Nat.le_add_left _ _).trans hfit) hflush

/-! ## The payload in the memory -/

/-- The whole bytes of a stretch written from position 0 on hold its bits and then 0, whatever the memory held. -/
theorem putList_zero_bit {m : Memory} (hm : m.wf) {bs : List Bool} {q : Nat} (hq : q < padToByte bs.length) :
    (m.putList 0 bs).bit q = bs.getD q false := by
  rw [padToByte] at hq
  rw [putList_bit bs 0 q hm, if_neg (Nat.not_lt_zero q), Nat.zero_add]
  split
  · simp
  · next hout => rw [if_pos (by omega), List.getD_eq_default _ _ (by omega)]

theorem putList_zero_read {m m' : Memory} (hm : m.wf) (hm' : m'.wf) {bs : List Bool} {a : Nat}
    (ha : 8 * a < padToByte bs.length) : (m'.putList 0 bs).read a = (m.putList 0 bs).read a := by
  refine read_eq_of_bits fun r hr => ?_
  have hq : 8 * a + r < padToByte bs.length := by
    rw [padToByte] at ha ⊢
    omega
  rw [putList_zero_bit hm' hq, putList_zero_bit hm hq]

theorem carries_putList_zero {m : Memory} (hm : m.wf) (bs : List Bool) :
    Carries (m.putList 0 bs) (padToByte bs.length) 0 bs := by
  refine ⟨?_, written_holds (putList_written hm 0 bs) rfl⟩
  rw [padToByte]
  omega

/-! ## The round trip (rule R316) -/

/-- A single-symbol session decodes its symbol every time (rule R310). -/
theorem runResults_acDec_single (ms : List Sym) : ∀ {s : State}, s.mode = .arithmetic → s.acState = .dec →
    s.acSingle = true → (∀ x ∈ ms, x = s.acSym) →
    ∃ u, runResults (List.replicate ms.length .acDec) s = some (ms.map fun x => x.setWidth 32, u) ∧ u.err = s.err := by
  induction ms with
  | nil => exact fun {s} _ _ _ _ => ⟨s, rfl, rfl⟩
  | cons x ms ih =>
    intro s hmode hdec hsingle hall
    obtain ⟨hx, hms⟩ := List.forall_mem_cons.1 hall
    obtain ⟨u, hrun, herr⟩ := ih (s := s.setResult (s.acSym.setWidth 32)) hmode hdec hsingle hms
    refine ⟨u, ?_, herr⟩
    rw [List.length_cons, List.replicate_succ, runResults, acDec_single hmode hdec hsingle]
    simp only [hrun, Option.map_some, List.map_cons, setResult_res, hx]

theorem headroom_full : Headroom 0 0xFFFFFFFF := .inl (by decide)

/-- After `BS.RINIT` and `AC.DINIT`, the decoder returns a message whose payload the memory holds. -/
theorem decode_payload {s : State} {ms : List Sym} (hlimit : s.bsRlimit.toNat ≤ s.capBits) (hpos : s.bsRpos = 0)
    (hs : CountsAgree s) (hmode : s.mode = .arithmetic) (hidle : s.acState = .idle) (hvalid : s.cumValid = true)
    (hlow : 1 ≤ s.total.toNat) (hhigh : s.total.toNat ≤ quarter) (hpresent : ∀ x ∈ ms, s.present x = true)
    (hbits : Carries s.bsmem s.bsRlimit.toNat 0 (s.payload ms)) :
    ∃ t u, exec .acDinit s = .next t ∧
      runResults (List.replicate ms.length .acDec) t = some (ms.map fun x => x.setWidth 32, u) ∧ u.err = s.err := by
  obtain ⟨x, c, p, hexec, hsingle, hmany⟩ := acDinit_loads hlimit (by rw [hpos]; exact Nat.zero_le _) hs hmode hidle
    hvalid hlow hhigh
  by_cases hone : s.ftNsym.toNat = 1
  · obtain ⟨hx, -⟩ := hsingle hone
    exact ⟨_, (runResults_acDec_single ms (s := { s.opened .dec x with acCode := c, bsRpos := p }) hmode rfl
      (decide_eq_true hone) fun y hy => (hx y).1 (present_iff.1 (hpresent y hy))).imp fun u hu => ⟨hexec, hu⟩⟩
  · obtain ⟨-, hc, hp⟩ := hmany hone
    rw [State.payload, if_neg hone] at hbits
    have hstart : s.bsRpos.toNat = 0 := congrArg BitVec.toNat hpos
    rw [hstart] at hc hp
    have htracks : Tracks { s.opened .dec x with acCode := c, bsRpos := p } 0 0 :=
      ⟨hlimit, ⟨hs.total, hs.cum, hs.nsym⟩, hmode, rfl, decide_eq_false hone, hvalid, hhigh, headroom_full,
        (congrArg Nat.cast hc).trans (codeWindow_start 0).symm, hp⟩
    exact ⟨_, (runResults_acDec ms htracks hpresent hbits).imp fun u hu => ⟨hexec, hu⟩⟩

/-- `t` with its result in `BS_RLEN` and the read cursor at the start (rule R156). -/
def State.rewound (t : State) : State :=
  { t with bsRlen := t.res, bsRpos := 0, bsRlimit := BitVec.ofNat 32 (8 * t.res.toNat) }

/-- `BS.RINIT`, `AC.DINIT` and as many `AC.DEC` return a message whose payload `t` holds. -/
theorem runResults_decode {s t : State} {ms : List Sym} (hs : Placed s) (hcounts : CountsAgree s)
    (hmode : s.mode = .arithmetic) (hvalid : s.cumValid = true) (hlow : 1 ≤ s.total.toNat)
    (hhigh : s.total.toNat ≤ quarter) (hpresent : ∀ x ∈ ms, s.present x = true)
    (ht : HoldsPayload s t (s.payload ms)) :
    ∃ rs u, runResults (.bsRinit :: .acDinit :: List.replicate ms.length .acDec) { t with bsRlen := t.res }
      = some (rs, u) ∧ rs.drop 2 = ms.map (fun x => x.setWidth 32) ∧ u.err = t.err := by
  have hcap := padToByte_le_capBits ht.fits
  have hlimit : t.rewound.bsRlimit.toNat = padToByte (s.payload ms).length :=
    (congrArg (fun n => (BitVec.ofNat 32 n).toNat) ht.res).trans (toNat_ofNat_of_le_capBits hs.config hcap)
  have hcapBits : t.rewound.capBits = s.capBits := congrArg Config.capBits ht.config
  have hrewound : CountsAgree t.rewound := by
    obtain ⟨htotal, hcum, hnsym⟩ := ht.countsAgree hcounts
    exact ⟨htotal, hcum, hnsym⟩
  have hvalid' : t.rewound.cumValid = true := ht.cumValid.trans hvalid
  have hfreq : t.rewound.freq = s.freq := ht.freq
  have htotal : t.rewound.total = s.total := ht.total
  have hmem : t.rewound.bsmem = s.bsmem.putList 0 (s.payload ms) := ht.bsmem
  obtain ⟨w, u, hdinit, hdec, huerr⟩ := decode_payload (s := t.rewound) (ms := ms)
    (by rw [hlimit, hcapBits]; exact hcap) rfl hrewound (ht.mode.trans hmode) ht.acState hvalid'
    (by rwa [htotal]) (by rwa [htotal]) (fun x hx => by rw [State.present, hfreq]; exact hpresent x hx)
    (by rw [payload_congr hcounts hvalid hrewound hvalid' hfreq, hlimit, hmem]; exact carries_putList_zero hs.memory _)
  refine ⟨t.res :: w.res :: ms.map fun x => x.setWidth 32, u, ?_, rfl, huerr⟩
  rw [runResults, exec_bsRinit]
  change (runResults (.acDinit :: List.replicate ms.length .acDec) t.rewound).map _ = _
  rw [runResults, hdinit]
  simp only [hdec, Option.map_some]

/-- Settles O54: the memory holds the message's payload, whose code value the decoder follows; and the payload sees
nothing but the counts and the message. -/
theorem arithmeticRoundTrip : Obligations.ArithmeticRoundTrip := by
  intro s t ms hs hcounts _ hmode hidle hvalid hlow hhigh hpresent hrun herr
  have ht := encode_holdsPayload hs.config hcounts hmode hidle hvalid hlow hhigh hpresent hrun herr
  obtain ⟨rs, u, hdecode, hmessage, huerr⟩ := runResults_decode hs hcounts hmode hvalid hlow hhigh hpresent ht
  refine ⟨rs, u, hdecode, hmessage, huerr.trans herr,
    fun s' t' hs' hcounts' hfreq _ hmode' hidle' hvalid' hrun' herr' => ?_⟩
  have htotal : s'.total.toNat = s.total.toNat := by rw [hcounts'.total, hcounts.total, hfreq]
  have ht' := encode_holdsPayload hs'.config hcounts' hmode' hidle' hvalid' (by rwa [htotal]) (by rwa [htotal])
    (fun x hx => by rw [State.present, hfreq]; exact hpresent x hx) hrun' herr'
  rw [payload_congr hcounts hvalid hcounts' hvalid' hfreq] at ht'
  have hbytes : t'.res.toNat = t.res.toNat := Nat.eq_of_mul_eq_mul_left (by omega) (ht'.res.trans ht.res.symm)
  refine ⟨BitVec.eq_of_toNat_eq hbytes, fun a ha => ?_⟩
  rw [ht'.bsmem, ht.bsmem]
  exact putList_zero_read hs.memory hs'.memory (by rw [← ht.res]; omega)

end Sys2Proof.Machine
end

section
/-! O6: the engine's turn under the sticky error. -/

namespace Sys2Proof.Machine

/-! ## The engine's turn (rules R350, R490) -/

theorem engineTurn_iff {s : State} :
    s.engineTurn = true ↔ s.busy = true ∧ (s.host.wait = 0 ∨ s.host.script = []) := by
  simp [State.engineTurn]

theorem acceptedUnderError_iff {i : Instr} : acceptedUnderError i = true ↔ i = .ctlReset ∨ i = .ctlClrerr := by
  simp [acceptedUnderError]

/-- The latched command runs when its turn comes, unless the sticky error discards it. -/
theorem step_of_runs {s : State} {i : Instr} (hruns : Runs s i)
    (haccepted : s.err = false ∨ acceptedUnderError i = true) : step s = finishCommand (exec i s) := by
  obtain ⟨hbusy, hturn, hdecode⟩ := hruns
  have hkept : ¬(s.err && !acceptedUnderError i) = true := by
    obtain herr | hacc := haccepted
    · simp [herr]
    · simp [hacc]
  rw [step_engine (engineTurn_iff.2 ⟨hbusy, hturn⟩), engineStep, hdecode]
  exact if_neg hkept

/-- Under the sticky error a word that is none of the two accepted commands only ends `BUSY`. -/
theorem engineStep_discards {s : State} (herr : s.err = true)
    (hdiscard : ∀ i, decode s.pendCmd = some i → acceptedUnderError i = false) :
    engineStep s = .next (endCommand s) := by
  cases hdecode : decode s.pendCmd with
  | none => simp [engineStep, hdecode, herr]
  | some i => simp [engineStep, hdecode, herr, hdiscard i hdecode]

theorem exec_ctlReset (s : State) : exec .ctlReset s = .next (engineReset s) := rfl

theorem exec_ctlClrerr (s : State) : exec .ctlClrerr s = .next (clearError s) := rfl

/-- The two commands accepted under the sticky error end it. -/
theorem exec_ends_error {i : Instr} (haccepted : acceptedUnderError i = true) (s : State) :
    ∃ t, exec i s = .next t ∧ t.err = false := by
  obtain rfl | rfl := acceptedUnderError_iff.1 haccepted
  · exact ⟨_, exec_ctlReset s, rfl⟩
  · exact ⟨_, exec_ctlClrerr s, rfl⟩

theorem step_ends_error {s : State} {i : Instr} (haccepted : acceptedUnderError i = true) (hruns : Runs s i) :
    ∃ t, step s = .next t ∧ t.err = false := by
  obtain ⟨t, hexec, herr⟩ := exec_ends_error haccepted s
  exact ⟨endCommand t, by rw [step_of_runs hruns (.inr haccepted), hexec, finishCommand], herr⟩

/-- An engine's turn that leaves the error standing discarded its word. -/
theorem engineStep_eq_endCommand_of_err {s t : State} (herr : s.err = true) (h : engineStep s = .next t)
    (herr' : t.err = true) : t = endCommand s := by
  obtain ⟨-, hclear, -⟩ | ⟨-, -, rfl⟩ | ⟨i, u, -, haccepted, hexec, rfl⟩ := engineStep_cases h
  · simp [herr] at hclear
  · rfl
  · obtain ⟨v, hexec', hcleared⟩ := exec_ends_error (haccepted.resolve_left (by simp [herr])) s
    cases hexec.symm.trans hexec'
    simp [hcleared] at herr'

/-- Settles O6: a discarded word leaves all but `BUSY`, so an error can only stand over a discard. -/
theorem stickyErrorDiscardsCommands : Obligations.StickyErrorDiscardsCommands := by
  refine ⟨fun s hbusy hturn herr hreset hclrerr => ?_, fun s t herr h herr' => ?_, fun s hruns => ?_⟩
  · rw [step_engine (engineTurn_iff.2 ⟨hbusy, hturn⟩)]
    refine engineStep_discards herr fun i hdecode => Bool.eq_false_iff.2 fun haccepted => ?_
    obtain rfl | rfl := acceptedUnderError_iff.1 haccepted
    · exact hreset hdecode
    · exact hclrerr hdecode
  · rw [engineStep_eq_endCommand_of_err herr h herr']
    exact ⟨rfl, rfl, rfl⟩
  · obtain hruns | hruns := hruns
    · exact step_ends_error rfl hruns
    · exact step_ends_error rfl hruns

end Sys2Proof.Machine
end

section
/-! O34, O21, O22: the gates of the mode and session table, and the control commands. Each command's equation has its
gates as the branches, so a failed gate is the branch not taken. -/

namespace Sys2Proof.Machine

/-! ## Failed gates (rule R359) -/

/-- A command whose next gate is `p` raises the gate's error where `p` fails. -/
theorem raises_of_gate {i : Instr} {s : State} {e : ErrCode} {p : Prop} [Decidable p]
    {o : Host.Outcome State Fault Refusal} (hexec : exec i s = if p then o else .next (raiseError e s)) (hfail : ¬p) :
    Raises i s e :=
  hexec.trans (if_neg hfail)

theorem hufCommand_raises {s : State} {i : Instr} (hhuf : isHufCommand i) (hmode : s.mode ≠ .huffman) :
    Raises i s .badState := by
  obtain rfl | ⟨x, n, rfl⟩ | rfl | ⟨x, rfl⟩ | ⟨x, k, rfl⟩ | ⟨x, rfl⟩ | rfl := hhuf
  · exact raises_of_gate (exec_hufBuild s) hmode
  · exact raises_of_gate (exec_hufLdlen x n s) hmode
  · exact raises_of_gate (exec_hufCanon s) hmode
  · exact raises_of_gate (exec_hufRdlen x s) hmode
  · exact raises_of_gate (exec_hufRdcode x k s) hmode
  · exact raises_of_gate (exec_hufEnc x s) hmode
  · exact raises_of_gate (exec_hufDec s) hmode

/-- A session runs in mode 1 alone (rule R38). -/
theorem mode_ne_huffman_of_session {s : State} (hs : SessionOk s) (hopen : s.acState ≠ .idle) :
    s.mode ≠ .huffman := by
  rw [(hs hopen).mode]
  decide

theorem codeTableCommands_raise {s : State} (hmode : s.mode = .huffman) (hinvalid : s.ctValid = false) (x : Sym)
    (k : Nat) : Raises (.hufRdcode x k) s .badState ∧ Raises (.hufEnc x) s .badState ∧ Raises .hufDec s .badState := by
  have hfail : ¬s.ctValid = true := by simp [hinvalid]
  exact ⟨raises_of_gate ((exec_hufRdcode x k s).trans (if_pos hmode)) hfail,
    raises_of_gate ((exec_hufEnc x s).trans (if_pos hmode)) hfail,
    raises_of_gate ((exec_hufDec s).trans (if_pos hmode)) hfail⟩

theorem encodeCommands_raise {s : State} (hgate : ¬(s.mode = .arithmetic ∧ s.acState = .enc)) (x : Sym) :
    Raises (.acEnc x) s .badState ∧ Raises .acEfin s .badState :=
  ⟨raises_of_gate (exec_acEnc x s) hgate, raises_of_gate (exec_acEfin s) hgate⟩

theorem decodeCommands_raise {s : State} (hgate : ¬(s.mode = .arithmetic ∧ s.acState = .dec)) :
    Raises .acDec s .badState ∧ Raises .acDfin s .badState :=
  ⟨raises_of_gate (exec_acDec s) hgate, raises_of_gate (exec_acDfin s) hgate⟩

theorem sessionStarts_raise {s : State} (hgate : s.mode ≠ .arithmetic ∨ s.acState ≠ .idle ∨ s.cumValid = false) :
    Raises .acEinit s .badState ∧ Raises .acDinit s .badState := by
  obtain ⟨-, heinit, -⟩ := acEinitOpensASession
  obtain ⟨-, hdinit, -⟩ := acDinitLoadsTheCode
  exact ⟨heinit s hgate, hdinit s hgate⟩

/-- The `TOTAL` checks of a session's start (rule R303). -/
theorem sessionStarts_raise_on_total {s : State} (hmode : s.mode = .arithmetic) (hidle : s.acState = .idle)
    (hvalid : s.cumValid = true) :
    (s.total = 0 → Raises .acEinit s .emptyAlphabet ∧ Raises .acDinit s .emptyAlphabet) ∧
    (quarter < s.total.toNat → Raises .acEinit s .modelTooLarge ∧ Raises .acDinit s .modelTooLarge) := by
  obtain ⟨-, -, heinit, -⟩ := acEinitOpensASession
  obtain ⟨-, -, hdinit, -⟩ := acDinitLoadsTheCode
  obtain ⟨hempty, hlarge⟩ := heinit s hmode hidle hvalid
  obtain ⟨hempty', hlarge'⟩ := hdinit s hmode hidle hvalid
  exact ⟨fun h => ⟨hempty h, hempty' h⟩, fun h => ⟨hlarge h, hlarge' h⟩⟩

theorem acCommand_raises {s : State} {i : Instr} (hac : isAcCommand i) (hmode : s.mode ≠ .arithmetic) :
    Raises i s .badState := by
  obtain ⟨heinit, hdinit⟩ := sessionStarts_raise (.inl hmode)
  obtain ⟨hdec, hdfin⟩ := decodeCommands_raise fun h => hmode h.1
  have hencode := encodeCommands_raise fun h => hmode h.1
  obtain rfl | ⟨x, rfl⟩ | rfl | rfl | rfl | rfl := hac
  · exact heinit
  · exact (hencode x).1
  · exact (hencode 0).2
  · exact hdinit
  · exact hdec
  · exact hdfin

/-! ## The control commands (45_control.md section 2) -/

theorem exec_ctrMode (tag : Byte) (s : State) : exec (.ctrMode tag) s =
    if s.acState = .idle then
      .next ((modeOfTag tag).elim (raiseError .unsupportedMode s) fun m => { s with mode := m })
    else .next (raiseError .badState s) := by
  simp only [exec, execCtrMode, State.requireSession, conclude_gate, beq_iff_eq]
  cases modeOfTag tag <;> rfl

theorem modeOfTag_eq_none {tag : Byte} (h : 1 < tag.toNat) : modeOfTag tag = none := by
  have hzero : tag ≠ 0 := by bv_omega
  have hone : tag ≠ 1 := by bv_omega
  rw [modeOfTag, if_neg hzero, if_neg hone]

theorem ctrMode_selects {s : State} {tag : Byte} {m : Mode} (hidle : s.acState = .idle)
    (htag : modeOfTag tag = some m) : exec (.ctrMode tag) s = .next { s with mode := m } := by
  rw [exec_ctrMode, if_pos hidle, htag, Option.elim_some]

theorem ctrMode_raises_on_tag {s : State} {tag : Byte} (hidle : s.acState = .idle) (htag : 1 < tag.toNat) :
    Raises (.ctrMode tag) s .unsupportedMode := by
  rw [Raises, exec_ctrMode, if_pos hidle, modeOfTag_eq_none htag, Option.elim_none]

theorem ctrMode_raises_in_session {s : State} (hopen : s.acState ≠ .idle) (tag : Byte) :
    Raises (.ctrMode tag) s .badState :=
  raises_of_gate (exec_ctrMode tag s) hopen

/-- Settles O34: each clause is a gate's branch in the commands' equations. -/
theorem failedGatesRaise : Obligations.FailedGatesRaise := by
  refine ⟨fun s i => hufCommand_raises,
    fun s i hs hopen hhuf => hufCommand_raises hhuf (mode_ne_huffman_of_session hs hopen),
    fun s i => acCommand_raises, fun s x k hmode hinvalid => codeTableCommands_raise hmode hinvalid x k,
    fun s _ hopen => sessionStarts_raise (.inr (.inl hopen)),
    fun s x _ hstate => encodeCommands_raise (fun h => hstate h.2) x,
    fun s _ hstate => decodeCommands_raise fun h => hstate h.2, fun s x tag hopen => ?_,
    fun s tag => ctrMode_raises_on_tag, fun s x hinvalid => raises_of_gate (exec_ftCrd x s) (by simp [hinvalid]),
    fun s hmode hidle => ⟨fun hinvalid => sessionStarts_raise (.inr (.inr hinvalid)),
      fun hvalid => (sessionStarts_raise_on_total hmode hidle hvalid).1,
      fun hvalid => (sessionStarts_raise_on_total hmode hidle hvalid).2⟩⟩
  obtain ⟨hclr, hacc, hld⟩ := countCommands_raise_in_session hopen x
  exact ⟨hclr, hacc, hld, ctrMode_raises_in_session hopen tag⟩

/-- Settles O21: `CTR.MODE` by its gate and its tag; the others have no gate. -/
theorem controlCommandResults : Obligations.ControlCommandResults :=
  ⟨fun _ => rfl, exec_ctlClrerr, fun _ hidle => ctrMode_selects hidle rfl, fun _ hidle => ctrMode_selects hidle rfl,
    fun _ _ => ctrMode_raises_on_tag, fun _ tag hopen => ctrMode_raises_in_session hopen tag, rfl, rfl, fun _ => rfl⟩

theorem engineReset_statusWord (s : State) : (engineReset s).statusWord = 0x00000200 := by
  simp only [State.statusWord, engineReset_acSingle, engineReset_acState, engineReset_ctValid, engineReset_cumValid,
    engineReset_mode, engineReset_errCode, engineReset_lost, engineReset_err, engineReset_busy]
  decide

/-- Settles O22: the reset state is the power-on state over the same memory, field by field. -/
theorem ctlResetKeepsOnlyMemory : Obligations.CtlResetKeepsOnlyMemory := by
  refine ⟨fun s => ⟨engineReset s, exec_ctlReset s, rfl, rfl, engineReset_statusWord s, fun x => ?_, rfl, rfl, rfl,
    rfl, rfl⟩, rfl⟩
  simp

end Sys2Proof.Machine
end

section
/-! O13: the host's write of a command. -/

namespace Sys2Proof.Machine

/-- A step that is the host's write of a register has the write's effect, after the access is counted. -/
theorem step_of_hostWrites {s : State} {off : Nat} {w : Word} (h : HostWrites s off w) :
    ∃ ops, step s = .next (hostWrite off w (s.countAccess.withScript ops)) := by
  obtain ⟨hturn, hoff, halign, ops, hscript⟩ := h
  have hhost : s.engineTurn = false := Bool.eq_false_iff.2 (mt engineTurn_iff.1 hturn)
  have haccess : accessOffset s.config .word (s.config.eceBase + off) = .ok off := by
    rw [accessOffset_inside s.config .word hoff, if_pos ⟨rfl, halign⟩]
  exact ⟨ops, by simp only [step_host hhost, hostTurn, hscript, haccess]⟩

theorem hostWrite_cmd (w : Word) (s : State) :
    hostWrite 0x04 w s = if s.busy then s.loseWrite else s.acceptCommand w := rfl

theorem hostRead_cmd_idle {s : State} (hidle : s.busy = false) : hostRead 0x04 s = (0, s) := by
  have hcmd : hostRead 0x04 s = if s.busy then s.unspecified else (0, s) := rfl
  rw [hcmd, hidle, if_neg (by decide)]

/-- Settles O13: the write's effect is decided by `BUSY`, which counting the access leaves alone. -/
theorem cmdWriteLatchesOrIsLost : Obligations.CmdWriteLatchesOrIsLost := by
  refine ⟨fun s w hwrite hidle => ?_, fun s w hwrite hbusy => ?_, fun s => hostRead_cmd_idle⟩
  · obtain ⟨ops, hstep⟩ := step_of_hostWrites hwrite
    have hnot : ¬(s.countAccess.withScript ops).busy = true := by simp [hidle]
    rw [hstep, hostWrite_cmd, if_neg hnot, countAccess_eq]
    exact ⟨_, rfl⟩
  · obtain ⟨ops, hstep⟩ := step_of_hostWrites hwrite
    have hpending : (s.countAccess.withScript ops).busy = true := by simp [hbusy]
    rw [hstep, hostWrite_cmd, if_pos hpending, countAccess_eq]
    exact ⟨_, rfl⟩

end Sys2Proof.Machine
end

section
/-! O7, O8: who raises errors, and what a raised error writes. No pseudocode raises the code `none`, so what a command
adds to the error latch is always one of the ten errors of rule R420. -/

namespace Sys2Proof.Machine

/-! ## Pseudocode raises named errors (rule R420) -/

/-- `r` does not raise the code `none`; nothing is asked of an end or a fault. -/
def NamesErrors {α : Type} (r : Res α) : Prop := r ≠ .error (.raise .none)

namespace NamesErrors
variable {α β : Type}

theorem ok (a : α) : NamesErrors (.ok a) := nofun

theorem fault (f : Fault) : NamesErrors (.error (.fault f) : Res α) := nofun

theorem raise {e : ErrCode} (he : e ≠ .none) : NamesErrors (.error (.raise e) : Res α) := by
  rintro ⟨⟩
  exact he rfl

theorem ite {c : Prop} [Decidable c] {r r' : Res α} (h : NamesErrors r) (h' : NamesErrors r') :
    NamesErrors (if c then r else r') := by
  split
  · exact h
  · exact h'

theorem bind {x : Res α} {f : α → Res β} (hx : NamesErrors x) (hf : ∀ a, NamesErrors (f a)) :
    NamesErrors (x >>= f) := by
  intro h
  obtain h | ⟨a, -, h⟩ := bind_error_iff.1 h
  · exact hx h
  · exact hf a h

/-- A gate with a named error, and what stands behind it. -/
theorem gate {c : Bool} {e : ErrCode} {f : Unit → Res β} (hf : ∀ u, NamesErrors (f u))
    (he : e ≠ .none := by decide) : NamesErrors (guardRaise c e >>= f) :=
  bind (ite (ok ()) (raise he)) hf

end NamesErrors

theorem memRead_names (a : Nat) (s : State) : NamesErrors (memRead a s) := .ite (.ok _) (.fault _)

theorem memWrite_names (a : Nat) (v : Byte) (s : State) : NamesErrors (memWrite a v s) := .ite (.ok _) (.fault _)

theorem putBit_names (b : Bool) (s : State) : NamesErrors (putBit b s) := by
  have setBit : ∀ t, NamesErrors (if b then (do
        let v ← memRead (s.bsWpos.toNat / 8) t
        memWrite (s.bsWpos.toNat / 8) (v ||| (0x80#8 >>> (s.bsWpos.toNat % 8))) t) >>=
          fun t => .ok { t with bsWpos := t.bsWpos + 1 }
      else .ok { t with bsWpos := t.bsWpos + 1 }) := fun t =>
    .ite (((memRead_names _ t).bind fun _ => memWrite_names _ _ t).bind fun _ => .ok _) (.ok _)
  exact .ite ((memWrite_names _ _ s).bind setBit) (setBit s)

theorem putBits_names (v : Nat) : ∀ (k : Nat) (s : State), NamesErrors (putBits v k s)
  | 0, _ => .ok _
  | k + 1, s => (putBit_names _ s).bind (putBits_names v k)

theorem putRepeat_names (b : Bool) : ∀ (k : Nat) (s : State), NamesErrors (putRepeat b k s)
  | 0, _ => .ok _
  | k + 1, s => (putBit_names b s).bind (putRepeat_names b k)

theorem writeBits_names (v k : Nat) (s : State) : NamesErrors (writeBits v k s) := .gate fun _ => putBits_names v k s

theorem getBit_names (p : Nat) (s : State) : NamesErrors (getBit p s) := (memRead_names _ s).bind fun _ => .ok _

theorem readBits_names (s : State) : ∀ k p v : Nat, NamesErrors (readBits s k p v)
  | 0, _, _ => .ok _
  | k + 1, p, _ => (getBit_names p s).bind fun _ => readBits_names s k _ _

theorem decodeWalk_names (s : State) : ∀ fuel l v : Nat, NamesErrors (decodeWalk s fuel l v)
  | 0, _, _ => .raise (by decide)
  | fuel + 1, l, v => by
    refine .gate fun _ => (getBit_names _ s).bind fun b => ?_
    dsimp only
    split
    · exact .ok _
    · exact decodeWalk_names s fuel (l + 1) _

theorem narrow_names (x : Sym) (s : State) : NamesErrors (narrow x s) := .ite (.ok _) (.fault _)

theorem emit_names (b : Bool) (s : State) : NamesErrors (emit b s) :=
  .gate fun _ => (putBit_names b s).bind fun t => (putRepeat_names _ _ t).bind fun _ => .ok _

theorem addPending_names (s : State) : NamesErrors (addPending s) := .gate fun _ => .ok _

theorem encCase_names (c : RenormCase) (s : State) : NamesErrors (encCase c s) := by
  cases c with
  | e1 => exact emit_names false s
  | e2 => exact emit_names true s
  | e3 => exact (addPending_names s).bind fun _ => .ok _

theorem encRenorm_names : ∀ (fuel : Nat) (s : State), NamesErrors (encRenorm fuel s)
  | 0, _ => .ok _
  | fuel + 1, s => by
    rw [encRenorm]
    split
    · exact .ok _
    · next c _ => exact (encCase_names c s).bind fun _ => encRenorm_names fuel _

theorem shiftCode_names (s : State) : NamesErrors (shiftCode s) := by
  have next : NamesErrors (getBitZF s) := .ite ((getBit_names _ s).bind fun _ => .ok _) (.ok _)
  exact next.bind fun _ => .ok _

theorem decRenorm_names : ∀ (fuel : Nat) (s : State), NamesErrors (decRenorm fuel s)
  | 0, _ => .ok _
  | fuel + 1, s => by
    rw [decRenorm]
    split
    · exact .ok _
    · exact (shiftCode_names _).bind (decRenorm_names fuel)

theorem loadCode_names : ∀ (k : Nat) (s : State), NamesErrors (loadCode k s)
  | 0, _ => .ok _
  | k + 1, s => (shiftCode_names s).bind (loadCode_names k)

theorem codeValue_names (s : State) : NamesErrors (codeValue s) := .ite (.ok _) (.fault _)

theorem modelCheck_names (s : State) : NamesErrors (modelCheck s) :=
  .gate fun _ => .gate fun _ => .ite (.ok _) (.raise (by decide))

theorem sessionSymbol_names (s : State) : NamesErrors (sessionSymbol s) := by
  refine .ite ?_ (.ok _)
  split
  · exact .ok _
  · exact .fault _

theorem openSession_names (a : AcState) (s : State) : NamesErrors (openSession a s) :=
  .gate fun _ => .gate fun _ => (modelCheck_names s).bind fun _ => (sessionSymbol_names s).bind fun _ => .ok _

/-! ## The commands (rules R421, R424) -/

/-- `ERR` = 1 in `t` only where it was in `s`. -/
def SetsNoError (s t : State) : Prop := t.err = true → s.err = true

theorem EncoderFrame.setsNoError {s t : State} (h : EncoderFrame s t) : SetsNoError s t := by
  obtain ⟨_, _, _, _, _, rfl⟩ := h
  exact id

theorem DecoderFrame.setsNoError {s t : State} (h : DecoderFrame s t) : SetsNoError s t := by
  obtain ⟨_, _, _, _, rfl⟩ := h
  exact id

theorem writeBits_setsNoError (v k : Nat) (s : State) : Yields (writeBits v k s) (SetsNoError s) :=
  (writeBits_frame v k s).mono fun _ ht => ht.emitter.encoder.setsNoError

theorem narrow_setsNoError (x : Sym) (s : State) : Yields (narrow x s) (SetsNoError s) := .ite (.ok id) (.error _)

theorem openSession_setsNoError (a : AcState) (s : State) : Yields (openSession a s) (SetsNoError s) :=
  .after fun _ => .after fun _ => .after fun _ => .after fun _ => .ok id

/-- The pseudocode of every command raises named errors, and sets no error where it runs to its end. -/
theorem exec_concludes_naming_errors (i : Instr) (s : State) :
    ∃ r, exec i s = conclude s r ∧ NamesErrors r ∧ Yields r (SetsNoError s) := by
  cases i with
  | nop | bsWinit | bsFlush | bsRinit | ftRd | ftCum =>
    refine ⟨_, rfl, .ok _, .ok ?_⟩
    exact id
  | ctlReset | ctlClrerr => exact ⟨_, rfl, .ok _, .ok nofun⟩
  | ftClr | ftLd | ftCrd | hufBuild | hufLdlen | hufRdlen =>
    exact ⟨_, rfl, .gate fun _ => .ok _, .after fun _ => .ok id⟩
  | ftAcc | hufRdcode | acDfin =>
    exact ⟨_, rfl, .gate fun _ => .gate fun _ => .ok _, .after fun _ => .after fun _ => .ok id⟩
  | ctrMode tag =>
    refine ⟨_, rfl, .gate fun _ => ?_, .after fun _ => ?_⟩
    · split
      · exact .ok _
      · exact .raise (by decide)
    · split
      · exact .ok id
      · exact .error _
  | bsWr n => exact ⟨_, rfl, writeBits_names _ n s, writeBits_setsNoError _ n s⟩
  | bsRd n =>
    exact ⟨_, rfl, .gate fun _ => (readBits_names s n _ _).bind fun _ => .ok _,
      .after fun _ => .after fun _ => .ok id⟩
  | hufCanon =>
    refine ⟨_, rfl, .gate fun _ => ?_, .after fun _ => ?_⟩
    · split
      · exact .raise (by decide)
      · exact .ok _
    · split
      · exact .error _
      · exact .ok id
  | hufEnc x =>
    exact ⟨_, rfl, .gate fun _ => .gate fun _ => .gate fun _ => writeBits_names _ _ s,
      .after fun _ => .after fun _ => .after fun _ => writeBits_setsNoError _ _ s⟩
  | hufDec =>
    exact ⟨_, rfl, .gate fun _ => .gate fun _ => (decodeWalk_names s _ _ _).bind fun _ => .ok _,
      .after fun _ => .after fun _ => .after fun _ => .ok id⟩
  | acEinit => exact ⟨_, rfl, openSession_names .enc s, openSession_setsNoError .enc s⟩
  | acEnc x =>
    refine ⟨_, rfl, .gate fun _ => .gate fun _ => .gate fun _ => .ite (.ok _) ?_,
      .after fun _ => .after fun _ => .after fun _ => .ite (.ok id) ?_⟩
    · exact (narrow_names x s).bind (encRenorm_names _)
    · exact (narrow_setsNoError x s).bind fun t ht => (encRenorm_frame _ t).mono fun _ hu => ht ∘ hu.setsNoError
  | acEfin =>
    refine ⟨_, rfl, .gate fun _ => .gate fun _ => .ite (.ok _) ?_, .after fun _ => .after fun _ => .ite (.ok id) ?_⟩
    · exact (addPending_names s).bind fun t => (emit_names _ t).bind fun _ => .ok _
    · exact (addPending_frame s).bind fun t ht => (emit_frame _ t).bind fun _ hu =>
        .ok (ht.trans hu).encoder.setsNoError
  | acDinit =>
    refine ⟨_, rfl, (openSession_names .dec s).bind fun t => .ite (.ok _) (loadCode_names _ t),
      (openSession_setsNoError .dec s).bind fun t ht => .ite (.ok ht) ?_⟩
    exact (loadCode_frame _ t).mono fun _ hu => ht ∘ hu.setsNoError
  | acDec =>
    refine ⟨_, rfl, .gate fun _ => .gate fun _ => .ite (.ok _) ?_, .after fun _ => .after fun _ => .ite (.ok id) ?_⟩
    · refine (codeValue_names s).bind fun _ => .gate fun _ => ?_
      split
      · exact .fault _
      · next x _ => exact (narrow_names x s).bind fun t => (decRenorm_names _ t).bind fun _ => .ok _
    · refine .after fun _ => .after fun _ => ?_
      split
      · exact .error _
      · next x _ =>
        exact (narrow_setsNoError x s).bind fun t ht => (decRenorm_frame _ t).bind fun _ hu =>
          .ok (ht ∘ hu.setsNoError)

/-- A command that sets `ERR` raised a named error: its state is `RaiseError` of the old one. -/
theorem exec_raises {i : Instr} {s t : State} (hclear : s.err = false) (h : exec i s = .next t) (herr : t.err = true) :
    ∃ e, e ≠ .none ∧ t = raiseError e s := by
  obtain ⟨r, hr, hnames, hsets⟩ := exec_concludes_naming_errors i s
  obtain hend | ⟨e, hraise, ht⟩ := conclude_next_iff.1 (hr ▸ h)
  · exact absurd (hsets t hend herr) (by simp [hclear])
  · refine ⟨e, ?_, ht⟩
    rintro rfl
    exact hnames hraise

/-- So did the engine's turn: the raised error has ended `BUSY` already. -/
theorem engineStep_raises {s t : State} (hclear : s.err = false) (h : engineStep s = .next t) (herr : t.err = true) :
    ∃ e, e ≠ .none ∧ t = raiseError e s := by
  obtain ⟨-, -, rfl⟩ | ⟨hsticky, -, -⟩ | ⟨i, u, -, -, hexec, rfl⟩ := engineStep_cases h
  · exact ⟨.illegalCmd, by decide, rfl⟩
  · simp [hclear] at hsticky
  · obtain ⟨e, he, rfl⟩ := exec_raises hclear hexec herr
    exact ⟨e, he, rfl⟩

/-- The position of rule R421, by the kind of the error. -/
theorem errorPosition_eq (e : ErrCode) (s : State) : errorPosition e s =
    if e = .outOfData ∨ e = .corruptStream then s.bsRpos else if e = .bufferFull then s.bsWpos else 0 := by
  cases e <;> rfl

/-- Settles O7: the state is `RaiseError` of the old one, whether `Execute` or the whole engine step is looked at. -/
theorem raisedErrorsArePrecise : Obligations.RaisedErrorsArePrecise := by
  intro i s t hclear h herr
  have raised : ∃ e, e ≠ .none ∧ t = raiseError e s := by
    obtain hexec | hengine := h
    · exact exec_raises hclear hexec herr
    · exact engineStep_raises hclear hengine herr
  obtain ⟨e, he, rfl⟩ := raised
  exact ⟨e, he, by rw [raiseError, errorPosition_eq]⟩

/-! ## The writers of the record (rule R422) -/

/-- No row of the table of rule R45 but that of `CTL.RESET` has `ERRCMD` or `ERRPOS`. -/
theorem frameOf_record {i : Instr} (hi : i ≠ .ctlReset) (s t : State) :
    (frameOf i s t).errCmd = s.errCmd ∧ (frameOf i s t).errPos = s.errPos := by
  cases i with
  | ctlReset => exact absurd rfl hi
  | _ => exact ⟨rfl, rfl⟩

/-- A command other than `CTL.RESET` that leaves `ERR` = 0 keeps the record. -/
theorem exec_keeps_record {i : Instr} {s t : State} (hi : i ≠ .ctlReset) (h : exec i s = .next t)
    (herr : t.err = false) : t.errCmd = s.errCmd ∧ t.errPos = s.errPos := by
  obtain hframe | ⟨e, rfl⟩ := exec_frame h
  · rw [hframe]
    exact frameOf_record hi s t
  · cases herr

/-- An engine's turn that ends with `ERR` = 0 keeps the record unless it runs `CTL.RESET`. -/
theorem engineStep_record_of_clear {s t : State} (h : engineStep s = .next t) (herr : t.err = false) :
    (t.errCmd = s.errCmd ∧ t.errPos = s.errPos) ∨
      (decode s.pendCmd = some .ctlReset ∧ t.errCmd = 0 ∧ t.errPos = 0) := by
  obtain ⟨-, -, rfl⟩ | ⟨-, -, rfl⟩ | ⟨i, u, hdecode, -, hexec, rfl⟩ := engineStep_cases h
  · cases herr
  · exact .inl ⟨rfl, rfl⟩
  · obtain rfl | hi := eq_or_ne i .ctlReset
    · cases (exec_ctlReset s).symm.trans hexec
      exact .inr ⟨hdecode, rfl, rfl⟩
    · exact .inl (exec_keeps_record (t := u) hi hexec herr)

/-- The engine's turn and the record: it is kept, written by a raised error, or zeroed by `CTL.RESET`. -/
theorem engineStep_record {s t : State} (h : engineStep s = .next t) :
    (t.errCmd = s.errCmd ∧ t.errPos = s.errPos) ∨ (s.err = false ∧ ∃ e, e ≠ .none ∧ t = raiseError e s) ∨
      (decode s.pendCmd = some .ctlReset ∧ t.errCmd = 0 ∧ t.errPos = 0) := by
  cases herr : t.err with
  | false => exact (engineStep_record_of_clear h herr).imp_right .inr
  | true =>
    cases hbefore : s.err with
    | false => exact .inr (.inl ⟨rfl, engineStep_raises hbefore h herr⟩)
    | true =>
      rw [engineStep_eq_endCommand_of_err hbefore h herr]
      exact .inl ⟨rfl, rfl⟩

/-- The host's turn keeps the record (rules R357, R422). -/
theorem hostTurn_keeps_record {s t : State} (h : hostTurn s = .next t) :
    t.errCmd = s.errCmd ∧ t.errPos = s.errPos := by
  rw [hostTurn_frame h]
  exact ⟨rfl, rfl⟩

/-- Settles O8: the record changes in the engine's turn only, which raised an error or ran `CTL.RESET`. -/
theorem errorRecordWriters : Obligations.ErrorRecordWriters := by
  intro s t h hchange
  have changed : ¬(t.errCmd = s.errCmd ∧ t.errPos = s.errPos) := fun ⟨hcmd, hpos⟩ => hchange.elim (· hcmd) (· hpos)
  cases hturn : s.engineTurn with
  | false => exact absurd (hostTurn_keeps_record (step_host hturn ▸ h)) changed
  | true =>
    obtain hkept | ⟨hclear, e, he, rfl⟩ | ⟨hdecode, hzero⟩ := engineStep_record (step_engine hturn ▸ h)
    · exact absurd hkept changed
    · exact .inl ⟨hclear, rfl, e, he, rfl⟩
    · exact .inr ⟨runs_of_engineTurn hturn hdecode, hzero⟩

end Sys2Proof.Machine
end

section
/-! O14: the host's accesses while a command is pending. -/

namespace Sys2Proof.Machine

/-! ## Writes (rules R357, R480, R481) -/

theorem offset_of_regAt {off : Nat} {r : Reg} (h : regAt off = some r) : r.offset = off := by
  simpa using List.find?_some h

/-- While `BUSY` = 1 every host-writable register but `STATUS` loses its write (rules R351, R480). -/
theorem hostWrite_of_busy {s : State} {off : Nat} (w : Word) (hbusy : s.busy = true)
    (hoff : off ∈ [0x04, 0x08, 0x2C, 0x30, 0x34]) : hostWrite off w s = s.loseWrite := by
  simp only [List.mem_cons, List.not_mem_nil, or_false] at hoff
  obtain rfl | rfl | rfl | rfl | rfl := hoff <;> exact if_pos hbusy

/-- A `STATUS` write clears `LOST` where bit 2 is 1, whatever `BUSY` is (rule R357). -/
theorem hostWrite_status (w : Word) (s : State) :
    hostWrite 0x14 w s = { s with lost := s.lost && !w.getLsbD 2 } := by
  cases hclear : w.getLsbD 2 with
  | true =>
    rw [Bool.not_true, Bool.and_false]
    exact if_pos hclear
  | false =>
    rw [Bool.not_false, Bool.and_true]
    exact if_neg (Bool.eq_false_iff.1 hclear)

/-- A write to a read-only register or to a reserved offset is ignored, whatever `BUSY` is (rule R357). -/
theorem hostWrite_ignored {off : Nat} (w : Word) (s : State)
    (hoff : off ∉ [0x04, 0x08, 0x14, 0x2C, 0x30, 0x34]) : hostWrite off w s = s := by
  have notWritable : ∀ r ∈ [Reg.cmd, .arg0, .status, .bsRlen, .memAddr, .memData], regAt off ≠ some r :=
    fun r hr hreg => hoff (offset_of_regAt hreg ▸ List.mem_map_of_mem (f := Reg.offset) hr)
  unfold hostWrite
  split
  case h_7 | h_8 => rfl
  all_goals exact absurd ‹_› (notWritable _ (by decide))

/-! ## Reads (rule R481) -/

theorem statusWord_bit_zero (s : State) : s.statusWord.getLsbD 0 = s.busy := by
  rw [State.statusWord, BitVec.getLsbD_append]
  simp only [Nat.zero_lt_one, decide_true, ite_true, BitVec.getLsbD_ofBool, Bool.true_and]

/-- While `BUSY` = 1 a read leaves the state as it is or draws a free value (log 6). -/
theorem hostRead_of_busy {s : State} (off : Nat) (hbusy : s.busy = true) :
    (hostRead off s).2 = s ∨ hostRead off s = s.unspecified := by
  unfold hostRead
  split
  · exact .inl rfl
  · exact .inl rfl
  · exact .inr (if_pos hbusy)
  · exact .inr (if_pos hbusy)

/-- Settles O14: writes by the offset's kind; of the reads, `ID` and `STATUS` are exact and the others draw a free
value. -/
theorem accessesWhileBusy : Obligations.AccessesWhileBusy := by
  refine fun s hbusy => ⟨fun w _ => hostWrite_of_busy w hbusy, fun w => hostWrite_status w s,
    fun w _ => hostWrite_ignored w s, rfl, rfl, (statusWord_bit_zero s).trans hbusy, fun off => ?_⟩
  obtain hsame | hdrawn := hostRead_of_busy off hbusy
  · exact ⟨s.host, hsame⟩
  · exact ⟨_, congrArg Prod.snd hdrawn⟩

end Sys2Proof.Machine
end

section
/-! O1, O3: the decoder undoes the encoder, and the opcode map tells which words are legal. -/

namespace Sys2Proof.Machine

theorem decode_bsWr {n : Nat} (hn : n ≤ 32) : decode (encode (.bsWr n)) = some (.bsWr n) := by
  have hexact : (BitVec.ofNat 8 n).toNat = n := Nat.mod_eq_of_lt (by omega)
  refine (decode_packWord _ _ _).trans (formFI_eq_some.2 ⟨⟨rfl, hexact.trans_le hn⟩, ?_⟩)
  rw [hexact]

theorem decode_bsRd {n : Nat} (hn : n ≤ 32) : decode (encode (.bsRd n)) = some (.bsRd n) := by
  have hexact : (BitVec.ofNat 8 n).toNat = n := Nat.mod_eq_of_lt (by omega)
  refine (decode_packWord _ _ _).trans (formFI_eq_some.2 ⟨⟨rfl, hexact.trans_le hn⟩, ?_⟩)
  rw [hexact]

theorem decode_hufRdcode (x : Sym) {k : Nat} (hk : k ≤ 7) :
    decode (encode (.hufRdcode x k)) = some (.hufRdcode x k) := by
  have hexact : (BitVec.ofNat 8 k).toNat = k := Nat.mod_eq_of_lt (by omega)
  refine (decode_packWord _ _ _).trans (formFSI_eq_some.2 ⟨hexact.trans_le hk, ?_⟩)
  rw [hexact]

/-- Settles O1: the encoder's fields are what each line of the opcode map asks for; only the three commands with a
range on `IMM` need their operand to be in it. -/
theorem decodeOfEncodeIsTheCommand : Obligations.DecodeOfEncodeIsTheCommand := by
  intro i hi
  cases i with
  | bsWr n => exact decode_bsWr (of_decide_eq_true hi)
  | bsRd n => exact decode_bsRd (of_decide_eq_true hi)
  | hufRdcode x k => exact decode_hufRdcode x (of_decide_eq_true hi)
  | hufLdlen x n => exact (decode_packWord _ _ _).trans (formFSI_eq_some.2 ⟨Nat.le_of_lt_succ n.isLt, rfl⟩)
  | ctrMode | ftAcc | ftLd | ftRd | ftCrd | hufRdlen | hufEnc | acEnc =>
    exact (decode_packWord _ _ _).trans (formFS_eq_some.2 ⟨rfl, rfl⟩)
  | _ => exact (decode_packWord _ _ _).trans (formF0_eq_some.2 ⟨⟨rfl, rfl⟩, rfl⟩)

/-- The decoder knows no opcode that rule R125 does not list. -/
theorem opcodeFormat_of_decodeFields {opc : Nat} {s n : Byte} (h : (decodeFields opc s n).isSome = true) :
    ∃ f, opcodeFormat opc = some f := by
  unfold decodeFields at h
  split at h
  case h_29 => cases h
  all_goals exact ⟨_, rfl⟩

theorem opcodeFormat_of_legal {w : Word} (h : legal w = true) : ∃ f, opcodeFormat (fieldOpc w).toNat = some f := by
  unfold legal decode at h
  split at h
  · exact opcodeFormat_of_decodeFields h
  · cases h

theorem legal_iff {w : Word} : legal w = true ↔
    ∃ f, opcodeFormat (fieldOpc w).toNat = some f ∧ fieldRsv w = 0 ∧ f.Accepts (fieldSym w) (fieldImm w) := by
  constructor
  · intro h
    obtain ⟨f, hf⟩ := opcodeFormat_of_legal h
    exact ⟨f, hf, (legal_iff_of_format hf).1 h⟩
  · rintro ⟨f, hf, h⟩
    exact (legal_iff_of_format hf).2 h

theorem engineStep_illegal {s : State} (hclear : s.err = false) (h : legal s.pendCmd = false) :
    engineStep s = .next (raiseError .illegalCmd s) := by
  have hnone : decode s.pendCmd = none := Option.not_isSome_iff_eq_none.1 (Bool.eq_false_iff.1 h)
  simp only [engineStep, hnone, hclear]
  rfl

/-- Of the 256 opcodes 28 are listed. -/
theorem reserved_opcodes : ((List.range 256).countP fun o => (opcodeFormat o).isNone) = 228 := by decide +kernel

/-- Settles O3: legality is the format's acceptance of the fields, and an illegal word's step is `RaiseError`. -/
theorem legalWordsAreThoseOfTheOpcodeMap : Obligations.LegalWordsAreThoseOfTheOpcodeMap :=
  ⟨fun _ => legal_iff, reserved_opcodes, fun _ => engineStep_illegal, rfl, fun _ => rfl⟩

end Sys2Proof.Machine
end

section
/-! O39, O40: what `Canon` answers, from the shares of the code space its codes take (rule R252). -/

namespace Sys2Proof.Machine

/-- Settles O39: the FAIL test is the Kraft inequality. -/
theorem canonFailsExactlyAboveKraft : Obligations.CanonFailsExactlyAboveKraft := by
  refine fun len => ⟨fun hfail => ?_, canon_fails⟩
  by_contra hkraft
  cases hfail.symm.trans (canon_of_kraft (Nat.le_of_not_lt hkraft))

theorem canon_absent {len : Table Byte} {code : Table CodeWord} (h : canon len = some code) {x : Sym}
    (hx : tget len x = 0) : tget code x = 0 := by
  obtain ⟨-, rfl⟩ := canon_some h
  have hkey : x ∉ (assignCodes none (codeOrder len)).map Prod.fst := by
    intro hmem
    have hsyms := congrArg (List.map Prod.snd) (assignCodes_symbols (codeOrder len) none)
    rw [List.map_map] at hsyms
    obtain ⟨e, he, hex⟩ := List.mem_map.1 (hsyms ▸ hmem)
    obtain ⟨-, hpresent⟩ := mem_codeOrder.1 he
    exact hpresent (hex ▸ hx)
  rw [canonCodes, tget_tmake, lookup_none hkey]
  rfl

/-- The share of a code ends inside the code space, so the code fits its length. -/
theorem canon_fits {len : Table Byte} {code : Table CodeWord} (h : canon len = some code) {x : Sym}
    (hx : tget len x ≠ 0) : (tget code x).toNat < 2 ^ (tget len x).toNat := by
  obtain ⟨i, hi, hxi⟩ := exists_codeOrder_getElem hx
  have hspace := canon_share h hi
  have hend := codesFit_iff_shares.1 (canon_some h).1 i hi
  rw [spaceTaken_succ hi, ← hspace] at hend
  simp only [hxi] at hend
  exact (lt_two_pow_iff_share (Nat.le_of_lt_succ (tget len x).isLt)).2 hend

/-- Settles O40: shares lie inside the code space and do not overlap; an absent symbol has none. -/
theorem canonicalCodesArePrefixFree : Obligations.CanonicalCodesArePrefixFree := by
  refine fun len code h => ⟨fun x => ?_, fun x => canon_absent h,
    fun x y hx hy hne hprefix => hne (codePrefix_eq h hx hy hprefix)⟩
  by_cases hx : tget len x = 0
  · rw [canon_absent h hx]
    exact Nat.two_pow_pos _
  · exact canon_fits h hx

end Sys2Proof.Machine
end

section
/-! O48: the path of renormalization from ordered bounds (rule R314). -/

namespace Sys2Proof.Machine

theorem headroom_quarter {low high : Word} (h : Headroom low high) : low.toNat + quarter ≤ high.toNat := by
  rw [Headroom, half, quarter, arcPrecision] at h
  rw [quarter, arcPrecision]
  omega

/-- Settles O48: the interval doubles with every case, so 32 of them are enough, and the path ends in headroom. -/
theorem renormalizationRestoresHeadroom : Obligations.RenormalizationRestoresHeadroom := by
  intro low high h
  have hend : Headroom (pathBounds (renormPath arcPrecision low high) (low, high)).1
      (pathBounds (renormPath arcPrecision low high) (low, high)).2 := path_headroom (b := (low, high)) h
  refine ⟨renormPath_ends h ?_, fun cs hcs => (pathBounds_range h hcs).1, hend, headroom_quarter hend⟩
  exact Nat.le_mul_of_pos_right _ (by omega)

end Sys2Proof.Machine
end

section
/-! O10, O27: what a command stores in `BSMEM`. A command that answers a next state has put a list of bits at the write
cursor, has set the cursor to a byte boundary, or has left both alone. -/

namespace Sys2Proof.Machine

/-! ## What the session commands can answer -/

theorem narrow_faults {s : State} (x : Sym) (h : s.total = 0) : narrow x s = .error (.fault .divisorNotPositive) :=
  if_neg fun hpos => totalCount_pos_iff.1 hpos h

/-- `AC.ENC` raised an error, left a single-symbol session as it was, or encoded a present symbol along a path without
an error. -/
theorem acEnc_next {s t : State} {x : Sym} (hc : s.config.wf) (h : exec (.acEnc x) s = .next t) :
    (∃ e, t = raiseError e s) ∨ (s.acSingle = true ∧ t = s) ∨
      (s.acSingle = false ∧ s.acState = .enc ∧ s.present x = true ∧
        pathError s.capBits (s.symbolPath x) s.acPend.toNat s.bsWpos.toNat = none ∧ t = s.encoded x) := by
  by_cases hgate : s.mode = .arithmetic ∧ s.acState = .enc
  · obtain ⟨hmode, henc⟩ := hgate
    cases hx : s.present x with
    | false =>
      rw [exec_acEnc, if_pos ⟨hmode, henc⟩, if_neg (Bool.eq_false_iff.1 hx)] at h
      cases h
      exact .inl ⟨_, rfl⟩
    | true =>
      cases hsingle : s.acSingle with
      | true =>
        cases (acEnc_single hmode henc hx hsingle).symm.trans h
        exact .inr (.inl ⟨rfl, rfl⟩)
      | false =>
        by_cases htotal : s.total = 0
        · rw [exec_acEnc, if_pos ⟨hmode, henc⟩, if_pos hx, if_neg (Bool.eq_false_iff.1 hsingle), narrow_faults x htotal]
            at h
          cases h
        · have hexec := (acEnc_encodes hc hmode henc hx hsingle htotal).symm.trans h
          cases herr : pathError s.capBits (s.symbolPath x) s.acPend.toNat s.bsWpos.toNat with
          | none =>
            rw [herr] at hexec
            cases hexec
            exact .inr (.inr ⟨rfl, henc, rfl, rfl, rfl⟩)
          | some e =>
            rw [herr] at hexec
            cases hexec
            exact .inl ⟨e, rfl⟩
  · rw [exec_acEnc, if_neg hgate] at h
    cases h
    exact .inl ⟨_, rfl⟩

/-- `AC.EFIN` raised an error, or closed the session: a single-symbol one, or a normal one whose last bits fit. -/
theorem acEfin_next {s t : State} (hc : s.config.wf) (h : exec .acEfin s = .next t) :
    (∃ e, t = raiseError e s) ∨ (s.acSingle = true ∧ t = { s with acState := .idle }) ∨
      (s.acSingle = false ∧ s.bsWpos.toNat + 2 + s.acPend.toNat ≤ s.capBits ∧ t = s.closed) := by
  by_cases hgate : s.mode = .arithmetic ∧ s.acState = .enc
  · obtain ⟨hmode, henc⟩ := hgate
    obtain hsingle | hmany := Bool.eq_false_or_eq_true s.acSingle
    · cases (acEfin_single hmode henc hsingle).symm.trans h
      exact .inr (.inl ⟨hsingle, rfl⟩)
    · by_cases hpend : s.acPend.toNat = countMax
      · cases (acEfin_overflows hmode henc hmany hpend).symm.trans h
        exact .inl ⟨_, rfl⟩
      · have hexec := (acEfin_closes hc hmode henc hmany hpend).symm.trans h
        split at hexec
        · next hfit =>
          cases hexec
          exact .inr (.inr ⟨hmany, hfit, rfl⟩)
        · cases hexec
          exact .inl ⟨_, rfl⟩
  · rw [exec_acEfin, if_neg hgate] at h
    cases h
    exact .inl ⟨_, rfl⟩

/-- `AC.DEC` raised an error, gave the symbol of a single-symbol session, or decoded the symbol whose interval holds
the value. -/
theorem acDec_next {s t : State} (hlimit : s.bsRlimit.toNat ≤ s.capBits) (hpos : s.bsRpos.toNat ≤ s.bsRlimit.toNat)
    (h : exec .acDec s = .next t) :
    (∃ e, t = raiseError e s) ∨ (s.acSingle = true ∧ t = s.setResult (s.acSym.setWidth 32)) ∨
      (s.acSingle = false ∧ s.acState = .dec ∧ ∃ x, s.symbolAt s.decodedValue = some x ∧ t = s.decoded x) := by
  by_cases hgate : s.mode = .arithmetic ∧ s.acState = .dec
  · obtain ⟨hmode, hdec⟩ := hgate
    cases hsingle : s.acSingle with
    | true =>
      cases (acDec_single hmode hdec hsingle).symm.trans h
      exact .inr (.inl ⟨rfl, rfl⟩)
    | false =>
      by_cases hrange : 0 < s.acRange
      · by_cases hvalue : s.decodedValue < 0 ∨ s.totalCount ≤ s.decodedValue
        · cases (acDecFindsTheSymbol.2.2.1 s hmode hdec hsingle hrange hvalue).symm.trans h
          exact .inl ⟨_, rfl⟩
        · obtain ⟨hv, hlt⟩ : 0 ≤ s.decodedValue ∧ s.decodedValue < s.totalCount := by omega
          cases hfound : s.symbolAt s.decodedValue with
          | none =>
            rw [exec_acDec, if_pos ⟨hmode, hdec⟩, if_neg (Bool.eq_false_iff.1 hsingle), codeValue_ok hrange, ok_bind,
              decide_eq_true hv, decide_eq_true hlt, Bool.and_true, guardRaise_true, ok_bind, hfound] at h
            cases h
          | some x =>
            cases (acDec_decodes hlimit hpos hmode hdec hsingle hrange hv hlt hfound).symm.trans h
            exact .inr (.inr ⟨rfl, hdec, x, rfl, rfl⟩)
      · rw [exec_acDec, if_pos ⟨hmode, hdec⟩, if_neg (Bool.eq_false_iff.1 hsingle), codeValue, if_neg hrange] at h
        cases h
  · rw [exec_acDec, if_neg hgate] at h
    cases h
    exact .inl ⟨_, rfl⟩

/-! ## The bits a command puts -/

/-- `t` has the writer's state of `s` with the bits `bs` put at the cursor, where they fit. -/
def State.Puts (s t : State) (bs : List Bool) : Prop :=
  s.bsWpos.toNat + bs.length ≤ s.capBits ∧ t.bsmem = (s.put bs).bsmem ∧ t.bsWpos = (s.put bs).bsWpos

theorem puts_nil {s t : State} (hw : s.bsWpos.toNat ≤ s.capBits) (hmem : t.bsmem = s.bsmem)
    (hpos : t.bsWpos = s.bsWpos) : s.Puts t [] := by
  rw [State.Puts, put_nil]
  exact ⟨hw, hmem, hpos⟩

theorem puts_bsWpos {s t : State} {bs : List Bool} (hc : s.config.wf) (h : s.Puts t bs) :
    t.bsWpos.toNat = s.bsWpos.toNat + bs.length := by
  obtain ⟨hfit, -, hpos⟩ := h
  rw [hpos, put_bsWpos hc hfit]

/-- A writer that raised no error has put as many bits as `storedBits` says. -/
theorem writer_puts {i : Instr} {s t : State} (hs : Placed s) (hi : storesBits i = true) (h : exec i s = .next t) :
    (∃ e, t = raiseError e s) ∨ ∃ bs, bs.length = storedBits i s ∧ s.Puts t bs := by
  cases i with
  | bsWr n =>
    rw [exec_bsWr n hs.config] at h
    split at h
    · next hfit =>
      cases h
      exact .inr ⟨_, bitsOf_length _ n, by rwa [bitsOf_length], rfl, rfl⟩
    · cases h
      exact .inl ⟨_, rfl⟩
  | hufEnc x =>
    rw [exec_hufEnc] at h
    split_ifs at h with hmode hvalid hx
    · rw [writeBits_eq _ _ hs.config] at h
      split at h
      · next hfit =>
        cases h
        exact .inr ⟨_, bitsOf_length _ _, by rwa [bitsOf_length], rfl, rfl⟩
      · cases h
        exact .inl ⟨_, rfl⟩
    all_goals
      cases h
      exact .inl ⟨_, rfl⟩
  | acEnc x =>
    obtain hraise | ⟨hsingle, rfl⟩ | ⟨hmany, -, -, hfit, rfl⟩ := acEnc_next hs.config h
    · exact .inl hraise
    · exact .inr ⟨[], (if_pos hsingle).symm, puts_nil hs.wpos rfl rfl⟩
    · obtain ⟨hroom, -, -⟩ := encoded_exact hs.config hs.wpos hfit
      exact .inr ⟨_, (if_neg (Bool.eq_false_iff.1 hmany)).symm, hroom, rfl, rfl⟩
  | acEfin =>
    obtain hraise | ⟨hsingle, rfl⟩ | ⟨hmany, hfit, rfl⟩ := acEfin_next hs.config h
    · exact .inl hraise
    · exact .inr ⟨[], (if_pos hsingle).symm, puts_nil hs.wpos rfl rfl⟩
    · have hlength := finalBits_length s.acLow s.acPend.toNat
      rw [Nat.add_assoc, ← hlength] at hfit
      exact .inr ⟨_, hlength.trans (if_neg (Bool.eq_false_iff.1 hmany)).symm, hfit, rfl, rfl⟩
  | _ => cases hi

theorem exec_keeps_bsmem {i : Instr} {s t : State} (hi : storesBits i = false) (h : exec i s = .next t) :
    t.bsmem = s.bsmem := by
  obtain hframe | ⟨e, rfl⟩ := exec_frame h
  · rw [hframe]
    cases i with
    | bsWr | hufEnc | acEnc | acEfin => cases hi
    | _ => rfl
  · rfl

/-- Settles O10: a writer's bytes are those of its list of bits, from the cursor on. -/
theorem writersStoreOnlyAtTheCursor : Obligations.WritersStoreOnlyAtTheCursor := by
  refine ⟨fun i s t a hi h => by rw [exec_keeps_bsmem hi h], fun i s t hs hi hclear h herr => ?_⟩
  obtain ⟨e, rfl⟩ | ⟨bs, hlength, hputs⟩ := writer_puts hs hi h
  · cases herr
  · have hpos := puts_bsWpos hs.config hputs
    obtain ⟨-, hmem, -⟩ := hputs
    rw [← hlength, hmem, put_bsmem]
    refine ⟨hpos, fun a ha => putList_read hs.memory _ a bs ha, fun q hq => ?_⟩
    rw [putList_bit bs _ q hs.memory, if_pos hq]

/-- Every command puts bits at the cursor, or none, or sets the cursor to a byte boundary. -/
theorem exec_puts {i : Instr} {s t : State} (hs : Placed s) (h : exec i s = .next t) :
    (∃ bs, s.Puts t bs) ∨ (t.bsmem = s.bsmem ∧ t.bsWpos.toNat % 8 = 0 ∧ t.bsWpos.toNat ≤ s.capBits) := by
  have hkept : t.bsmem = s.bsmem → t.bsWpos = s.bsWpos → ∃ bs, s.Puts t bs :=
    fun hmem hpos => ⟨[], puts_nil hs.wpos hmem hpos⟩
  cases i with
  | bsWr | hufEnc | acEnc | acEfin =>
    obtain ⟨e, rfl⟩ | ⟨bs, -, hputs⟩ := writer_puts hs rfl h
    · exact .inl (hkept rfl rfl)
    · exact .inl ⟨bs, hputs⟩
  | ctlReset | bsWinit =>
    cases h
    exact .inr ⟨rfl, rfl, Nat.zero_le _⟩
  | bsFlush =>
    obtain ⟨p, r, hexec, hpos, -⟩ := bsCursorCommandResults.2.1 s hs
    cases hexec.symm.trans h
    refine .inr ⟨rfl, ?_, hpos.trans_le (padToByte_le_capBits hs.wpos)⟩
    rw [hpos, Nat.mul_mod_right]
  | _ =>
    obtain hframe | ⟨e, rfl⟩ := exec_frame h
    · exact .inl (hkept (by rw [hframe]; rfl) (by rw [hframe]; rfl))
    · exact .inl (hkept rfl rfl)

/-- Bits put over a clean tail leave one: the rest of a byte they start is 0, and of one started before it was. -/
theorem cleanTail_of_puts {s t : State} {bs : List Bool} (hs : Placed s) (hclean : CleanTail s) (h : s.Puts t bs) :
    CleanTail t := by
  have hpos := puts_bsWpos hs.config h
  obtain ⟨-, hmem, -⟩ := h
  intro q hpartial hbyte hq
  rw [hpos] at hpartial hbyte hq
  rw [hmem, put_bsmem, putList_bit bs _ q hs.memory, if_neg (by omega), if_neg (by omega)]
  split
  · rfl
  · exact hclean q (by omega) (by omega) (by omega)

/-- Settles O27: a command puts bits, which keep the tail clean, or leaves no partial byte. -/
theorem commandsKeepTheTailClean : Obligations.CommandsKeepTheTailClean := by
  intro i s t hs hclean h
  obtain ⟨bs, hputs⟩ | ⟨-, hboundary, -⟩ := exec_puts hs h
  · exact cleanTail_of_puts hs hclean hputs
  · exact fun q hpartial => absurd hboundary hpartial

end Sys2Proof.Machine
end

section
/-! O55 to O58: what every step keeps. A step is the host's turn or the engine's, and the engine's turn adds a raised
error, a command's answer, and the end of `BUSY`; each invariant is shown of these. -/

namespace Sys2Proof.Machine

/-- What holds after the host's turn, a raised error and a command's answer, and is kept by the end of `BUSY`, holds
after the step. -/
theorem step_keeps {P : State → Prop} {s t : State} (h : step s = .next t) (hs : P s)
    (hhost : ∀ u, hostTurn s = .next u → P u) (hillegal : s.err = false → P (raiseError .illegalCmd s))
    (hexec : ∀ i u, s.err = false ∨ acceptedUnderError i = true → exec i s = .next u → P u)
    (hend : ∀ u, P u → P (endCommand u)) : P t := by
  cases hturn : s.engineTurn with
  | false => exact hhost t (step_host hturn ▸ h)
  | true =>
    obtain ⟨-, hclear, rfl⟩ | ⟨-, -, rfl⟩ | ⟨i, u, -, haccepted, hu, rfl⟩ := engineStep_cases (step_engine hturn ▸ h)
    · exact hend _ (hillegal hclear)
    · exact hend _ hs
    · exact hend _ (hexec i u haccepted hu)

/-! ## The cursors and `BSMEM` (rules R39 to R41, R80) -/

/-- The walk takes no bit past the limit. -/
theorem decodeWalk_within (s : State) : ∀ fuel l v : Nat,
    Yields (decodeWalk s fuel l v) fun found => s.bsRpos.toNat + found.2 ≤ s.bsRlimit.toNat
  | 0, _, _ => .error _
  | fuel + 1, l, v => by
    by_cases hroom : s.bsRpos.toNat + l < s.bsRlimit.toNat
    · refine .after fun _ => .after fun b => ?_
      dsimp only
      split
      · exact .ok hroom
      · exact decodeWalk_within s fuel (l + 1) _
    · rw [decodeWalk, decide_eq_false hroom, guardRaise_false, error_bind]
      exact .error _

theorem hufDec_within {s t : State} (hs : Placed s) (h : exec .hufDec s = .next t) :
    t.bsRpos.toNat ≤ s.bsRlimit.toNat := by
  rw [exec_hufDec] at h
  split_ifs at h
  · obtain hends | ⟨e, -, rfl⟩ := conclude_next_iff.1 h
    · obtain ⟨found, hwalk, htake⟩ := bind_ok_iff.1 hends
      cases htake
      have hroom := decodeWalk_within s _ _ _ found hwalk
      exact (cursor_add_toNat hs.config (hroom.trans hs.rlimit)).trans_le hroom
    · exact hs.rpos
  all_goals
    cases h
    exact hs.rpos

theorem acDinit_within {s t : State} (hs : Placed s) (h : exec .acDinit s = .next t) :
    t.bsRpos.toNat ≤ s.bsRlimit.toNat := by
  rw [exec_acDinit] at h
  obtain hends | ⟨e, -, rfl⟩ := conclude_next_iff.1 h
  · obtain ⟨u, hopen, hload⟩ := bind_ok_iff.1 hends
    have hu := openSession_frame .dec s u hopen
    split_ifs at hload
    · cases hload
      rw [hu]
      exact hs.rpos
    · rw [hu] at hload
      obtain ⟨c, p, hloaded, -, hp⟩ := loadCode_thirtyTwo (s := frameOf .acEinit s u) hs.rlimit hs.rpos
      cases hloaded.symm.trans hload
      exact hp.trans_le (Nat.min_le_right _ _)
  · exact hs.rpos

theorem acDec_within {s t : State} (hs : Placed s) (h : exec .acDec s = .next t) :
    t.bsRpos.toNat ≤ s.bsRlimit.toNat := by
  obtain ⟨e, rfl⟩ | ⟨-, rfl⟩ | ⟨-, -, x, -, rfl⟩ := acDec_next hs.rlimit hs.rpos h
  · exact hs.rpos
  · exact hs.rpos
  · exact (min_cursor_toNat _).trans_le (Nat.min_le_right _ _)

theorem bsRd_within {n : Nat} {s t : State} (hs : Placed s) (h : exec (.bsRd n) s = .next t) :
    t.bsRpos.toNat ≤ s.bsRlimit.toNat := by
  rw [exec_bsRd n hs.rlimit] at h
  split_ifs at h with hfit
  · cases h
    exact (cursor_add_toNat hs.config (hfit.trans hs.rlimit)).trans_le hfit
  · cases h
    exact hs.rpos

/-- No command moves the read cursor past the limit. -/
theorem exec_rpos_within {i : Instr} {s t : State} (hs : Placed s) (h : exec i s = .next t) :
    t.bsRpos.toNat ≤ s.bsRlimit.toNat := by
  cases i with
  | bsRd n => exact bsRd_within hs h
  | hufDec => exact hufDec_within hs h
  | acDinit => exact acDinit_within hs h
  | acDec => exact acDec_within hs h
  | ctlReset | bsRinit =>
    cases h
    exact Nat.zero_le _
  | _ =>
    obtain hframe | ⟨e, rfl⟩ := exec_frame h
    · rw [hframe]
      exact hs.rpos
    · exact hs.rpos

theorem exec_keeps_config {i : Instr} {s t : State} (h : exec i s = .next t) : t.config = s.config := by
  obtain hframe | ⟨e, rfl⟩ := exec_frame h
  · rw [hframe]
    cases i <;> rfl
  · rfl

/-- The reader's and the host's side of `Placed`, which the writer leaves alone. -/
structure ReaderPlaced (s : State) : Prop where
  rpos : s.bsRpos.toNat ≤ s.bsRlimit.toNat
  rlimit : s.bsRlimit.toNat ≤ s.capBits
  rlimitBytes : s.bsRlimit.toNat % 8 = 0
  rlen : s.bsRlen.toNat ≤ s.config.bsCap

theorem readerPlaced_of_rpos {s t : State} (hs : Placed s) (hconfig : t.config = s.config)
    (hrpos : t.bsRpos.toNat ≤ s.bsRlimit.toNat) (hrlimit : t.bsRlimit = s.bsRlimit) (hrlen : t.bsRlen = s.bsRlen) :
    ReaderPlaced t := by
  have hcap : t.capBits = s.capBits := congrArg Config.capBits hconfig
  exact ⟨hrlimit ▸ hrpos, hrlimit ▸ hcap ▸ hs.rlimit, hrlimit ▸ hs.rlimitBytes, hrlen ▸ hconfig ▸ hs.rlen⟩

theorem exec_keeps_reader {i : Instr} {s t : State} (hs : Placed s) (h : exec i s = .next t) : ReaderPlaced t := by
  have hrpos := exec_rpos_within hs h
  have hconfig := exec_keeps_config h
  cases i with
  | ctlReset =>
    cases h
    exact ⟨le_rfl, Nat.zero_le _, rfl, Nat.zero_le _⟩
  | bsRinit =>
    obtain ⟨l, hexec, hl⟩ := bsCursorCommandResults.2.2.1 s hs
    cases hexec.symm.trans h
    refine ⟨Nat.zero_le _, hl.trans_le (Nat.mul_le_mul_left 8 hs.rlen), ?_, hs.rlen⟩
    rw [hl, Nat.mul_mod_right]
  | _ =>
    obtain hframe | ⟨e, rfl⟩ := exec_frame h
    · exact readerPlaced_of_rpos hs hconfig hrpos (by rw [hframe]; rfl) (by rw [hframe]; rfl)
    · exact readerPlaced_of_rpos hs rfl hrpos rfl rfl

theorem exec_keeps_placed {i : Instr} {s t : State} (hs : Placed s) (h : exec i s = .next t) : Placed t := by
  have hconfig := exec_keeps_config h
  have hcap : t.capBits = s.capBits := congrArg Config.capBits hconfig
  obtain ⟨hrpos, hrlimit, hbytes, hrlen⟩ := exec_keeps_reader hs h
  have hplaced : t.bsmem.wf → t.bsmem.below s.config.bsCap → t.bsWpos.toNat ≤ s.capBits → Placed t :=
    fun hwf hbelow hw => ⟨hconfig ▸ hs.config, hwf, hconfig ▸ hbelow, hcap ▸ hw, hrpos, hrlimit, hbytes, hrlen⟩
  obtain ⟨bs, hputs⟩ | ⟨hmem, -, hw⟩ := exec_puts hs h
  · have hpos := puts_bsWpos hs.config hputs
    obtain ⟨hfit, hmem, -⟩ := hputs
    rw [hmem] at hplaced
    exact hplaced (putList_wf bs _ hs.memory) (putList_below bs hfit hs.below) (hpos.trans_le hfit)
  · rw [hmem] at hplaced
    exact hplaced hs.memory hs.below hw

/-- A host write stores in `BSMEM` inside the window only, and in `BS_RLEN` no more than the capacity. -/
theorem hostWrite_stores (off : Nat) (w : Word) (s : State) :
    ((hostWrite off w s).bsmem = s.bsmem ∨
      ∃ a v, a < s.config.bsCap ∧ (hostWrite off w s).bsmem = s.bsmem.write a v) ∧
    ((hostWrite off w s).bsRlen = s.bsRlen ∨ (hostWrite off w s).bsRlen = clampLength s.config w) := by
  unfold hostWrite
  split
  case h_4 =>
    split
    · exact ⟨.inl rfl, .inl rfl⟩
    · exact ⟨.inl rfl, .inr rfl⟩
  case h_6 =>
    split
    · exact ⟨.inl rfl, .inl rfl⟩
    · unfold State.windowWrite
      split
      · next hin => exact ⟨.inr ⟨_, _, hin, rfl⟩, .inl rfl⟩
      · exact ⟨.inl rfl, .inl rfl⟩
  case h_7 | h_8 => exact ⟨.inl rfl, .inl rfl⟩
  all_goals split <;> exact ⟨.inl rfl, .inl rfl⟩

theorem clampLength_toNat {c : Config} (hc : c.wf) (w : Word) : (clampLength c w).toNat = min w.toNat c.bsCap :=
  Nat.mod_eq_of_lt (by have := w.isLt; omega)

theorem hostTurn_stores {s t : State} (h : hostTurn s = .next t) :
    (t.bsmem = s.bsmem ∨ ∃ a v, a < s.config.bsCap ∧ t.bsmem = s.bsmem.write a v) ∧
    (t.bsRlen = s.bsRlen ∨ ∃ w, t.bsRlen = clampLength s.config w) := by
  obtain ⟨-, rfl⟩ | ⟨_, _, v, ops, off, -, -, rfl⟩ | ⟨_, _, ops, off, -, -, rfl⟩ | ⟨ops, -, rfl⟩ | ⟨ops, -, rfl⟩ :=
    hostTurn_cases h
  · exact ⟨.inl rfl, .inl rfl⟩
  · obtain ⟨hmem, hlen⟩ := hostWrite_stores off v (s.countAccess.withScript ops)
    simp only [withScript_bsmem, withScript_config, withScript_bsRlen, countAccess_bsmem, countAccess_config,
      countAccess_bsRlen] at hmem hlen
    exact ⟨hmem, hlen.imp_right fun h => ⟨v, h⟩⟩
  · rw [hostRead_frame, countAccess_eq]
    exact ⟨.inl rfl, .inl rfl⟩
  · rw [countAccess_eq]
    split <;> exact ⟨.inl rfl, .inl rfl⟩
  · rw [countAccess_eq]
    exact ⟨.inl rfl, .inl rfl⟩

theorem hostTurn_keeps_placed {s t : State} (hs : Placed s) (h : hostTurn s = .next t) : Placed t := by
  obtain ⟨hmem, hlen⟩ := hostTurn_stores h
  have hmemory : t.bsmem.wf ∧ t.bsmem.below s.config.bsCap := by
    obtain hsame | ⟨a, v, ha, hwrite⟩ := hmem
    · rw [hsame]
      exact ⟨hs.memory, hs.below⟩
    · rw [hwrite]
      exact ⟨write_wf a v hs.memory, write_below v ha hs.below⟩
  have hrlen : t.bsRlen.toNat ≤ s.config.bsCap := by
    obtain hsame | ⟨w, hclamp⟩ := hlen
    · rw [hsame]
      exact hs.rlen
    · rw [hclamp, clampLength_toNat hs.config]
      exact Nat.min_le_right _ _
  obtain ⟨hwf, hbelow⟩ := hmemory
  rw [hostTurn_frame h]
  exact ⟨hs.config, hwf, hbelow, hs.wpos, hs.rpos, hs.rlimit, hs.rlimitBytes, hrlen⟩

/-- Settles O55: the writer's and the reader's side of every command, and what the host's writes store. -/
theorem stepKeepsEverythingPlaced : Obligations.StepKeepsEverythingPlaced := fun _ _ hs h =>
  step_keeps h hs (fun _ => hostTurn_keeps_placed hs)
    (fun _ => ⟨hs.config, hs.memory, hs.below, hs.wpos, hs.rpos, hs.rlimit, hs.rlimitBytes, hs.rlen⟩)
    (fun _ _ _ => exec_keeps_placed hs)
    fun _ hu => ⟨hu.config, hu.memory, hu.below, hu.wpos, hu.rpos, hu.rlimit, hu.rlimitBytes, hu.rlen⟩

/-! ## The counts (rules R30 to R33) -/

theorem countsAgree_of_zero {s : State} (hfreq : ∀ x, tget s.freq x = 0) (htotal : s.total = 0)
    (hcum : ∀ x, tget s.cum x = 0) (hnsym : s.ftNsym = 0) : CountsAgree s := by
  have hsum : sumCounts s.freq = 0 := (sumCounts_eq_zero_iff s.freq).2 hfreq
  refine ⟨by rw [htotal, hsum]; rfl, fun _ x => ?_, fun _ => ?_⟩
  · rw [hcum x, Nat.eq_zero_of_le_zero ((sumUpTo_le s.freq x).trans_eq hsum)]
    rfl
  · have hnone : nonzeroCounts s.freq = 0 := by
      rw [nonzeroCounts, countNonzero_eq]
      exact List.countP_eq_zero.2 fun x _ => by simp [hfreq x]
    rw [hnsym, hnone]
    rfl

/-- While `CUM_VALID` = 0 only the total is asked for. -/
theorem countsAgree_of_total {s : State} (htotal : s.total.toNat = sumCounts s.freq) (hstale : s.cumValid = false) :
    CountsAgree s :=
  ⟨htotal, fun hvalid => absurd (hvalid.symm.trans hstale) (by decide),
    fun hvalid => absurd (hvalid.symm.trans hstale) (by decide)⟩

theorem countSymbol_counts {s : State} (hs : CountsAgree s) {x : Sym} (hfit : (tget s.freq x).toNat ≠ 2 ^ 32 - 1) :
    CountsAgree (s.countSymbol x) := by
  refine countsAgree_of_total ?_ rfl
  have hsum := sumCounts_tset s.freq x (tget s.freq x + 1)
  have hone : (tget s.freq x + 1).toNat = (tget s.freq x).toNat + 1 := by
    rw [← countSymbol_same s x, countSymbol_same_toNat hfit]
  rw [countSymbol_total hs, hs.total]
  show _ = sumCounts (tset s.freq x (tget s.freq x + 1))
  omega

theorem loadCount_counts {s : State} (hs : CountsAgree s) (x : Sym) : CountsAgree (s.loadCount x) := by
  refine countsAgree_of_total ?_ rfl
  have hsum := sumCounts_tset s.freq x s.arg0
  have htotal := loadCount_total hs x
  rw [hs.total] at htotal
  exact Nat.add_right_cancel (htotal.trans hsum.symm)

theorem exec_keeps_counts {i : Instr} {s t : State} (hs : CountsAgree s) (h : exec i s = .next t) :
    CountsAgree t := by
  have hraised : ∀ e, CountsAgree (raiseError e s) := fun _ => ⟨hs.total, hs.cum, hs.nsym⟩
  cases i with
  | ctlReset =>
    cases h
    exact countsAgree_of_zero (fun x => tget_replicate 0 x) rfl (fun x => tget_replicate 0 x) rfl
  | ftClr =>
    rw [exec_ftClr] at h
    split at h
    · cases h
      exact countsAgree_of_zero (fun x => tget_tfill 0 x) rfl (fun x => tget_tfill 0 x) rfl
    · cases h
      exact hraised _
  | ftAcc x =>
    rw [exec_ftAcc] at h
    split_ifs at h with hidle hfit
    · cases h
      exact countSymbol_counts hs hfit
    all_goals
      cases h
      exact hraised _
  | ftLd x =>
    rw [exec_ftLd] at h
    split at h
    · cases h
      exact loadCount_counts hs x
    · cases h
      exact hraised _
  | ftCum =>
    cases h
    exact ⟨hs.total, fun _ => cumTable_toNat s.freq, fun _ => nsym_toNat s.freq⟩
  | _ =>
    obtain hframe | ⟨e, rfl⟩ := exec_frame h
    · rw [hframe]
      exact ⟨hs.total, hs.cum, hs.nsym⟩
    · exact hraised e

theorem hostTurn_keeps_counts {s t : State} (hs : CountsAgree s) (h : hostTurn s = .next t) : CountsAgree t := by
  rw [hostTurn_frame h]
  exact ⟨hs.total, hs.cum, hs.nsym⟩

/-- Settles O56: the five commands that write the tables keep the sums; the host writes none of them. -/
theorem stepKeepsTheCountsAgreed : Obligations.StepKeepsTheCountsAgreed := fun _ _ hs h =>
  step_keeps h hs (fun _ => hostTurn_keeps_counts hs) (fun _ => ⟨hs.total, hs.cum, hs.nsym⟩)
    (fun _ _ _ => exec_keeps_counts hs) fun _ hu => ⟨hu.total, hu.cum, hu.nsym⟩

/-! ## The code table (rules R35, R36) -/

theorem withCodes_codes {s : State} {code : Table CodeWord} (h : canon s.len = some code) :
    CodesAgree (s.withCodes code) :=
  ⟨fun _ => h, fun _ => nonzeroLengths_toNat s.len, fun _ => maxLength_toNat s.len⟩

theorem codesAgree_of_invalid {s : State} (h : s.ctValid = false) : CodesAgree s := by
  have hnever : s.ctValid ≠ true := Bool.eq_false_iff.1 h
  exact ⟨fun hvalid => absurd hvalid hnever, fun hvalid => absurd hvalid hnever, fun hvalid => absurd hvalid hnever⟩

theorem exec_keeps_codes {i : Instr} {s t : State} (hs : CodesAgree s) (h : exec i s = .next t) : CodesAgree t := by
  have hraised : ∀ e, CodesAgree (raiseError e s) := fun _ => ⟨hs.codes, hs.nsym, hs.maxlen⟩
  cases i with
  | ctlReset =>
    cases h
    exact codesAgree_of_invalid rfl
  | hufBuild =>
    rw [exec_hufBuild] at h
    split at h
    · cases h
      exact withCodes_codes (s := { s with len := buildLengths s.freq }) (canon_buildLengths s.freq)
    · cases h
      exact hraised _
  | hufLdlen x n =>
    rw [exec_hufLdlen] at h
    split at h
    · cases h
      exact codesAgree_of_invalid rfl
    · cases h
      exact hraised _
  | hufCanon =>
    rw [exec_hufCanon] at h
    split at h
    · cases hcanon : canon s.len with
      | none =>
        rw [hcanon] at h
        cases h
        exact hraised _
      | some code =>
        rw [hcanon] at h
        cases h
        exact withCodes_codes hcanon
    · cases h
      exact hraised _
  | _ =>
    obtain hframe | ⟨e, rfl⟩ := exec_frame h
    · rw [hframe]
      exact ⟨hs.codes, hs.nsym, hs.maxlen⟩
    · exact hraised e

theorem hostTurn_keeps_codes {s t : State} (hs : CodesAgree s) (h : hostTurn s = .next t) : CodesAgree t := by
  rw [hostTurn_frame h]
  exact ⟨hs.codes, hs.nsym, hs.maxlen⟩

/-- Settles O57: `HUF.BUILD` and `HUF.CANON` store what `Canon` gives; what else writes the table makes it invalid. -/
theorem stepKeepsTheCodesAgreed : Obligations.StepKeepsTheCodesAgreed := fun _ _ hs h =>
  step_keeps h hs (fun _ => hostTurn_keeps_codes hs) (fun _ => ⟨hs.codes, hs.nsym, hs.maxlen⟩)
    (fun _ _ _ => exec_keeps_codes hs) fun _ hu => ⟨hu.codes, hu.nsym, hu.maxlen⟩

/-! ## The error latch (rules R23, R420) -/

theorem raiseError_latch {e : ErrCode} (he : e ≠ .none) (s : State) : ErrorLatch (raiseError e s) :=
  iff_of_true rfl he

theorem errorLatch_of_clear {s : State} (herr : s.err = false) (hcode : s.errCode = .none) : ErrorLatch s :=
  iff_of_false (Bool.eq_false_iff.1 herr) (not_not_intro hcode)

theorem frameOf_errCode {i : Instr} (hi : acceptedUnderError i = false) (s t : State) :
    (frameOf i s t).errCode = s.errCode := by
  cases i with
  | ctlReset | ctlClrerr => cases hi
  | _ => rfl

/-- The commands accepted under an error clear the latch. -/
theorem exec_accepted_clears {i : Instr} {s t : State} (hi : acceptedUnderError i = true) (h : exec i s = .next t) :
    t.err = false ∧ t.errCode = .none := by
  obtain rfl | rfl := acceptedUnderError_iff.1 hi <;>
    cases h <;> exact ⟨rfl, rfl⟩

theorem exec_keeps_latch {i : Instr} {s t : State} (hs : ErrorLatch s)
    (haccepted : s.err = false ∨ acceptedUnderError i = true) (h : exec i s = .next t) : ErrorLatch t := by
  cases hi : acceptedUnderError i with
  | true =>
    obtain ⟨herr, hcode⟩ := exec_accepted_clears hi h
    exact errorLatch_of_clear herr hcode
  | false =>
    have hclear : s.err = false := haccepted.resolve_right (Bool.eq_false_iff.1 hi)
    cases herr : t.err with
    | true =>
      obtain ⟨e, he, rfl⟩ := exec_raises hclear h herr
      exact raiseError_latch he s
    | false =>
      obtain hframe | ⟨e, rfl⟩ := exec_frame h
      · refine errorLatch_of_clear herr ?_
        rw [hframe, frameOf_errCode hi]
        by_contra hcode
        exact Bool.eq_false_iff.1 hclear (hs.2 hcode)
      · cases herr

theorem hostTurn_keeps_latch {s t : State} (hs : ErrorLatch s) (h : hostTurn s = .next t) : ErrorLatch t := by
  rw [hostTurn_frame h]
  exact hs

/-- Settles O58: what raises an error names it, and what clears `ERR` clears the code with it. -/
theorem stepKeepsTheErrorLatch : Obligations.StepKeepsTheErrorLatch := fun _ _ hs h =>
  step_keeps h hs (fun _ => hostTurn_keeps_latch hs) (fun _ => raiseError_latch (by decide) _)
    (fun _ _ => exec_keeps_latch hs) fun _ => id

end Sys2Proof.Machine
end

section
/-! O59: what every step keeps of an open session. A command either opens one on the full interval, follows a path of
renormalization, which ends in headroom and keeps the code value between the bounds, or writes nothing a session
rests on. -/

namespace Sys2Proof.Machine

/-! ## The start of a session (rules R303, R306, R310, R311) -/

/-- Every gate and model check of a session's start is open. -/
structure CanOpen (s : State) : Prop where
  mode : s.mode = .arithmetic
  idle : s.acState = .idle
  cumValid : s.cumValid = true
  totalLow : 1 ≤ s.total.toNat
  totalHigh : s.total.toNat ≤ quarter

/-- Either both commands that open a session raise an error, or every gate is open. -/
theorem sessionStarts_raise_or_open (s : State) :
    (∃ e, Raises .acEinit s e ∧ Raises .acDinit s e) ∨ CanOpen s := by
  by_cases hgate : s.mode ≠ .arithmetic ∨ s.acState ≠ .idle ∨ s.cumValid = false
  · exact .inl ⟨_, sessionStarts_raise hgate⟩
  · simp only [not_or, not_not, Bool.not_eq_false] at hgate
    obtain ⟨hmode, hidle, hvalid⟩ := hgate
    obtain ⟨hempty, hlarge⟩ := sessionStarts_raise_on_total hmode hidle hvalid
    by_cases htotal : s.total = 0
    · exact .inl ⟨_, hempty htotal⟩
    · by_cases hfits : s.total.toNat ≤ quarter
      · have hlow : s.total.toNat ≠ 0 := fun h => htotal (BitVec.eq_of_toNat_eq h)
        exact .inr ⟨hmode, hidle, hvalid, Nat.one_le_iff_ne_zero.2 hlow, hfits⟩
      · exact .inl ⟨_, hlarge (Nat.lt_of_not_le hfits)⟩

theorem le_full (c : Word) : c.toNat ≤ (0xFFFFFFFF : Word).toNat := by bv_omega

/-- A session opened on the full interval is in order, whatever its code value. -/
theorem opened_session {s : State} (hs : CanOpen s) (a : AcState) {x : Sym} (c p : Word)
    (hlone : s.ftNsym.toNat = 1 → ∀ y, tget s.freq y ≠ 0 ↔ y = x) (hmany : s.ftNsym.toNat ≠ 1 → x = 0) :
    OpenSession { s.opened a x with acCode := c, bsRpos := p } where
  mode := hs.mode
  cumValid := hs.cumValid
  totalLow := hs.totalLow
  totalHigh := hs.totalHigh
  single := (singleModel_eq s).symm
  symbol := by
    show if decide (s.ftNsym.toNat = 1) = true then s.present x = true else x = 0
    split
    · next hone => exact present_iff.2 ((hlone (of_decide_eq_true hone) x).2 rfl)
    · next hne => exact hmany fun hone => hne (decide_eq_true hone)
  headroom := fun _ => headroom_full
  code := fun _ _ => ⟨Nat.zero_le _, le_full c⟩

/-! ## Inside a session: the path keeps headroom and the code value (rules R309, R314) -/

theorem symbolAt_has {s : State} {v : Int} {x : Sym} (h : s.symbolAt v = some x) :
    s.present x = true ∧ s.cumLow x ≤ v ∧ v < s.cumHigh x := by
  simpa [and_assoc] using findSym_has h

/-- Narrowing to the symbol whose interval holds the value keeps the code value between the bounds. -/
theorem narrowed_of_decodedValue {s : State} (hs : CountsAgree s) (hvalid : s.cumValid = true) {x : Sym}
    (hx : s.present x = true) (hrange : s.totalCount ≤ s.acRange) (hlow : s.cumLow x ≤ s.decodedValue)
    (hhigh : s.decodedValue < s.cumHigh x) : Inside (s.narrowed x) s.acCode.toNat := by
  obtain ⟨hboundLow, hboundHigh, -⟩ := narrowed_inner hs hvalid hx hrange
  obtain ⟨hzero, -, htop, hne⟩ := interval_bounds hs hvalid x
  have htotal : 0 < s.totalCount := by have := hne hx; omega
  rw [State.decodedValue, Int.le_ediv_iff_mul_le (by omega), Int.mul_comm] at hlow
  rw [State.decodedValue, Int.ediv_lt_iff_lt_mul (by omega), Int.mul_comm (s.cumHigh x)] at hhigh
  have hbelow : s.acRange * s.cumLow x / s.totalCount < s.acCode.toNat - s.acLow.toNat + 1 := by
    rw [Int.ediv_lt_iff_lt_mul htotal]
    omega
  have habove : (s.acCode.toNat : Int) - s.acLow.toNat + 1 ≤ s.acRange * s.cumHigh x / s.totalCount := by
    rw [Int.le_ediv_iff_mul_le htotal]
    omega
  rw [Inside, hboundLow, hboundHigh, State.scaled, State.scaled]
  omega

/-- A path keeps the code value between the bounds, whatever the stream. -/
theorem pathCode_inside (m : Memory) (limit fuel : Nat) : ∀ {b : Word × Word} {p : Nat} {code : Word},
    b.1.toNat ≤ b.2.toNat → Inside b code.toNat →
    Inside (pathBounds (renormPath fuel b.1 b.2) b) (pathCode m limit (renormPath fuel b.1 b.2) p code).toNat := by
  induction fuel with
  | zero => exact fun _ hin => hin
  | succ fuel ih =>
    intro b p code hordered hin
    cases hcase : renormCase b.1 b.2 with
    | none =>
      rw [renormPath_end hcase]
      exact hin
    | some c =>
      obtain ⟨hoffset, -, hlow, hhigh⟩ := bounds_toNat hordered hcase
      have hshift := shift_adjust_toNat (b := zeroFilled m limit p) hordered hcase hin
      have hbit := Bool.toNat_le (zeroFilled m limit p)
      rw [renormPath_step hcase, pathCode_cons]
      refine ih (b := c.bounds b.1 b.2) (by omega) ?_
      rw [Inside] at hin ⊢
      omega

section
variable {s : State} (hcounts : CountsAgree s) (hopen : OpenSession s) (hmany : s.acSingle = false)
include hcounts hopen hmany

/-- The bounds of an open normal session leave a range above its total, so narrowing keeps them in order. -/
theorem session_narrowed_ordered {x : Sym} (hx : s.present x = true) :
    s.totalCount ≤ s.acRange ∧ (s.narrowed x).1.toNat ≤ (s.narrowed x).2.toNat := by
  have hrange := headroom_range (hopen.headroom hmany)
  have htotal : s.totalCount ≤ (quarter : Int) := Int.ofNat_le.2 hopen.totalHigh
  obtain ⟨-, hordered, -⟩ := narrowing_keeps hcounts hopen.cumValid hopen.totalHigh hx (s.acLow, s.acHigh)
    (hopen.headroom hmany)
  exact ⟨htotal.trans hrange.le, hordered⟩

theorem encoded_session (henc : s.acState = .enc) {x : Sym} (hx : s.present x = true) : OpenSession (s.encoded x) := by
  obtain ⟨-, hordered⟩ := session_narrowed_ordered hcounts hopen hmany hx
  exact ⟨hopen.mode, hopen.cumValid, hopen.totalLow, hopen.totalHigh, hopen.single, hopen.symbol,
    fun _ => path_headroom hordered, fun _ hdec => absurd (henc.symm.trans hdec) (by decide)⟩

theorem decoded_session {x : Sym} (hfound : s.symbolAt s.decodedValue = some x) : OpenSession (s.decoded x) := by
  obtain ⟨hx, hlow, hhigh⟩ := symbolAt_has hfound
  obtain ⟨hrange, hordered⟩ := session_narrowed_ordered hcounts hopen hmany hx
  have hin := narrowed_of_decodedValue hcounts hopen.cumValid hx hrange hlow hhigh
  obtain ⟨hcodeLow, hcodeHigh⟩ :=
    pathCode_inside s.bsmem s.bsRlimit.toNat arcPrecision (p := s.bsRpos.toNat) hordered hin
  exact ⟨hopen.mode, hopen.cumValid, hopen.totalLow, hopen.totalHigh, hopen.single, hopen.symbol,
    fun _ => path_headroom hordered, fun _ _ => ⟨Int.ofNat_le.1 hcodeLow, Int.ofNat_le.1 hcodeHigh⟩⟩

end

/-! ## The commands (rules R38, R314) -/

theorem sessionOk_of_idle {s : State} (h : s.acState = .idle) : SessionOk s := fun hopen => absurd h hopen

/-- The part of the state that a session rests on. -/
def State.sessionPart (s : State) : (Mode × AcState × Bool × Sym) × (Word × Word × Word) ×
    (Bool × DWord × BitVec 9 × Table Word) :=
  ((s.mode, s.acState, s.acSingle, s.acSym), (s.acLow, s.acHigh, s.acCode), (s.cumValid, s.total, s.ftNsym, s.freq))

theorem sessionOk_congr {s t : State} (hs : SessionOk s) (h : t.sessionPart = s.sessionPart) : SessionOk t := by
  cases s
  cases t
  cases h
  intro hopen
  obtain ⟨hmode, hvalid, hlow, hhigh, hsingle, hsymbol, hroom, hcode⟩ := hs hopen
  exact ⟨hmode, hvalid, hlow, hhigh, hsingle, hsymbol, hroom, hcode⟩

theorem raiseError_keeps_session {s : State} (hs : SessionOk s) (e : ErrCode) : SessionOk (raiseError e s) :=
  sessionOk_congr hs rfl

/-- A command that a session locks out raises in it, and opens none. -/
theorem locked_keeps_session {i : Instr} {s t : State} (hs : SessionOk s)
    (hlocked : s.acState ≠ .idle → Raises i s .badState) (hframe : ∀ u, (frameOf i s u).acState = s.acState)
    (h : exec i s = .next t) : SessionOk t := by
  by_cases hidle : s.acState = .idle
  · obtain hend | ⟨e, rfl⟩ := exec_frame h
    · rw [hend]
      exact sessionOk_of_idle ((hframe t).trans hidle)
    · exact raiseError_keeps_session hs e
  · cases (hlocked hidle).symm.trans h
    exact raiseError_keeps_session hs _

theorem acEinit_keeps_session {s t : State} (hcounts : CountsAgree s) (hs : SessionOk s)
    (h : exec .acEinit s = .next t) : SessionOk t := by
  obtain ⟨e, hraise, -⟩ | hcan := sessionStarts_raise_or_open s
  · cases hraise.symm.trans h
    exact raiseError_keeps_session hs e
  · obtain ⟨x, hexec, hlone, hmany⟩ := acEinitOpensASession.1 s hcounts hcan.mode hcan.idle hcan.cumValid hcan.totalLow
      hcan.totalHigh
    cases hexec.symm.trans h
    exact fun _ => opened_session hcan .enc 0 s.bsRpos hlone hmany

theorem acDinit_keeps_session {s t : State} (hplaced : Placed s) (hcounts : CountsAgree s) (hs : SessionOk s)
    (h : exec .acDinit s = .next t) : SessionOk t := by
  obtain ⟨e, -, hraise⟩ | hcan := sessionStarts_raise_or_open s
  · cases hraise.symm.trans h
    exact raiseError_keeps_session hs e
  · obtain ⟨x, c, p, hexec, hlone, hmany⟩ := acDinit_loads hplaced.rlimit hplaced.rpos hcounts hcan.mode hcan.idle
      hcan.cumValid hcan.totalLow hcan.totalHigh
    cases hexec.symm.trans h
    exact fun _ => opened_session hcan .dec c p (fun hone => (hlone hone).1) fun hne => (hmany hne).1

theorem acEnc_keeps_session {s t : State} {x : Sym} (hplaced : Placed s) (hcounts : CountsAgree s) (hs : SessionOk s)
    (h : exec (.acEnc x) s = .next t) : SessionOk t := by
  obtain ⟨e, rfl⟩ | ⟨-, rfl⟩ | ⟨hmany, henc, hx, -, rfl⟩ := acEnc_next hplaced.config h
  · exact raiseError_keeps_session hs e
  · exact hs
  · exact fun hopen => encoded_session hcounts (hs hopen) hmany henc hx

theorem acDec_keeps_session {s t : State} (hplaced : Placed s) (hcounts : CountsAgree s) (hs : SessionOk s)
    (h : exec .acDec s = .next t) : SessionOk t := by
  obtain ⟨e, rfl⟩ | ⟨-, rfl⟩ | ⟨hmany, -, x, hfound, rfl⟩ := acDec_next hplaced.rlimit hplaced.rpos h
  · exact raiseError_keeps_session hs e
  · exact sessionOk_congr hs rfl
  · exact fun hopen => decoded_session hcounts (hs hopen) hmany hfound

theorem acEfin_keeps_session {s t : State} (hplaced : Placed s) (hs : SessionOk s) (h : exec .acEfin s = .next t) :
    SessionOk t := by
  obtain ⟨e, rfl⟩ | ⟨-, rfl⟩ | ⟨-, -, rfl⟩ := acEfin_next hplaced.config h
  · exact raiseError_keeps_session hs e
  · exact sessionOk_of_idle rfl
  · exact sessionOk_of_idle rfl

theorem acDfin_keeps_session {s t : State} (hs : SessionOk s) (h : exec .acDfin s = .next t) : SessionOk t := by
  rw [exec_acDfin] at h
  split at h
  · cases h
    exact sessionOk_of_idle rfl
  · cases h
    exact raiseError_keeps_session hs _

theorem ftCum_keeps_session {s t : State} (hcounts : CountsAgree s) (hs : SessionOk s) (h : exec .ftCum s = .next t) :
    SessionOk t := by
  intro hopen
  have hopen' : s.acState ≠ .idle := by
    cases h
    exact hopen
  cases (exec_ftCum_of_valid hcounts (hs hopen').cumValid).symm.trans h
  exact hs hopen'

theorem exec_keeps_session {i : Instr} {s t : State} (hplaced : Placed s) (hcounts : CountsAgree s) (hs : SessionOk s)
    (h : exec i s = .next t) : SessionOk t := by
  cases i with
  | ctlReset =>
    cases h
    exact sessionOk_of_idle rfl
  | ctrMode tag => exact locked_keeps_session hs (ctrMode_raises_in_session · tag) (fun _ => rfl) h
  | ftClr =>
    exact locked_keeps_session hs (fun hopen => (countCommands_raise_in_session hopen 0).1) (fun _ => rfl) h
  | ftAcc x =>
    exact locked_keeps_session hs (fun hopen => (countCommands_raise_in_session hopen x).2.1) (fun _ => rfl) h
  | ftLd x =>
    exact locked_keeps_session hs (fun hopen => (countCommands_raise_in_session hopen x).2.2) (fun _ => rfl) h
  | ftCum => exact ftCum_keeps_session hcounts hs h
  | acEinit => exact acEinit_keeps_session hcounts hs h
  | acDinit => exact acDinit_keeps_session hplaced hcounts hs h
  | acEnc x => exact acEnc_keeps_session hplaced hcounts hs h
  | acDec => exact acDec_keeps_session hplaced hcounts hs h
  | acEfin => exact acEfin_keeps_session hplaced hs h
  | acDfin => exact acDfin_keeps_session hs h
  | _ =>
    obtain hframe | ⟨e, rfl⟩ := exec_frame h
    · rw [hframe]
      exact sessionOk_congr hs rfl
    · exact raiseError_keeps_session hs e

theorem hostTurn_keeps_session {s t : State} (hs : SessionOk s) (h : hostTurn s = .next t) : SessionOk t := by
  rw [hostTurn_frame h]
  exact sessionOk_congr hs rfl

/-- Settles O59: the session commands one by one; the others are locked out of a session or write none of its state. -/
theorem stepKeepsTheSession : Obligations.StepKeepsTheSession := fun _ _ hplaced hcounts hs h =>
  step_keeps h hs (fun _ => hostTurn_keeps_session hs) (fun _ => raiseError_keeps_session hs _)
    (fun _ _ _ => exec_keeps_session hplaced hcounts hs) fun _ hu => sessionOk_congr hu rfl

end Sys2Proof.Machine
end

section
/-! O60, O19: no command faults where the invariants hold, so a pending command's turn always ends it. -/

namespace Sys2Proof.Machine

/-! ## Every command answers -/

/-- The outcome is a next state. -/
def Answers (o : Host.Outcome State Fault Refusal) : Prop := ∃ t, o = .next t

theorem Answers.next (t : State) : Answers (.next t) := ⟨t, rfl⟩

theorem Answers.ite {c : Prop} [Decidable c] {o o' : Host.Outcome State Fault Refusal} (h : c → Answers o)
    (h' : ¬c → Answers o') : Answers (if c then o else o') := by
  split
  · next hc => exact h hc
  · next hc => exact h' hc

theorem Raises.answers {i : Instr} {s : State} {e : ErrCode} (h : Raises i s e) : Answers (exec i s) := ⟨_, h⟩

theorem hufEnc_answers {s : State} (hs : Placed s) (x : Sym) : Answers (exec (.hufEnc x) s) := by
  rw [exec_hufEnc, writeBits_eq _ _ hs.config]
  refine .ite (fun _ => .ite (fun _ => .ite (fun _ => ?_) fun _ => .next _) fun _ => .next _) fun _ => .next _
  split
  · exact .next _
  · exact .next _

/-- A code stands at the read cursor, or the walk raises. -/
theorem hufDec_answers {s : State} (hs : Placed s) (hcodes : CodesAgree s) : Answers (exec .hufDec s) := by
  obtain ⟨hgate, -, hdec⟩ := hufDecFindsTheSymbol
  by_cases hclosed : s.mode ≠ .huffman ∨ s.ctValid = false
  · exact (hgate s hclosed).answers
  · simp only [not_or, not_not, Bool.not_eq_false] at hclosed
    obtain ⟨hfound, hnone⟩ := hdec s hs hcodes hclosed.1 hclosed.2
    by_cases hnext : ∃ x, tget s.len x ≠ 0 ∧ s.bsRpos.toNat + (tget s.len x).toNat ≤ s.bsRlimit.toNat ∧
        streamValue s.bsmem s.bsRpos.toNat (tget s.len x).toNat = (tget s.code x).toNat
    · obtain ⟨x, hx, hfit, hcode⟩ := hnext
      obtain ⟨p, r, hexec, -⟩ := hfound x hx hfit hcode
      exact ⟨_, hexec⟩
    · obtain ⟨hcorrupt, hshort⟩ := hnone fun x hx hfit hcode => hnext ⟨x, hx, hfit, hcode⟩
      obtain hlt | hle := Nat.lt_or_ge s.bsRlimit.toNat (s.bsRpos.toNat + maxLength s.len)
      · exact (hshort hlt).answers
      · exact (hcorrupt hle).answers

theorem sessionStarts_answer {s : State} (hs : Placed s) (hcounts : CountsAgree s) :
    Answers (exec .acEinit s) ∧ Answers (exec .acDinit s) := by
  obtain ⟨e, heinit, hdinit⟩ | hcan := sessionStarts_raise_or_open s
  · exact ⟨heinit.answers, hdinit.answers⟩
  · obtain ⟨x, heinit, -⟩ := acEinitOpensASession.1 s hcounts hcan.mode hcan.idle hcan.cumValid hcan.totalLow
      hcan.totalHigh
    obtain ⟨y, c, p, hdinit, -⟩ := acDinit_loads hs.rlimit hs.rpos hcounts hcan.mode hcan.idle hcan.cumValid
      hcan.totalLow hcan.totalHigh
    exact ⟨⟨_, heinit⟩, ⟨_, hdinit⟩⟩

theorem acEnc_answers {s : State} (hs : Placed s) (hsession : SessionOk s) (x : Sym) :
    Answers (exec (.acEnc x) s) := by
  by_cases hgate : s.mode = .arithmetic ∧ s.acState = .enc
  · obtain ⟨hmode, henc⟩ := hgate
    have hopen := hsession (by rw [henc]; decide)
    have htotal : s.total ≠ 0 := totalCount_pos_iff.1 (Int.natCast_pos.2 hopen.totalLow)
    obtain hx | habsent := Bool.eq_false_or_eq_true (s.present x)
    · obtain hsingle | hmany := Bool.eq_false_or_eq_true s.acSingle
      · exact ⟨_, acEnc_single hmode henc hx hsingle⟩
      · exact ⟨_, acEnc_encodes hs.config hmode henc hx hmany htotal⟩
    · exact (acEncFollowsThePath.2.2.1 s x hmode henc habsent).answers
  · exact (encodeCommands_raise hgate x).1.answers

theorem acEfin_answers {s : State} (hs : Placed s) : Answers (exec .acEfin s) := by
  by_cases hgate : s.mode = .arithmetic ∧ s.acState = .enc
  · obtain ⟨hmode, henc⟩ := hgate
    obtain hsingle | hmany := Bool.eq_false_or_eq_true s.acSingle
    · exact ⟨_, acEfin_single hmode henc hsingle⟩
    · by_cases hpend : s.acPend.toNat = countMax
      · exact (acEfin_overflows hmode henc hmany hpend).answers
      · exact ⟨_, acEfin_closes hs.config hmode henc hmany hpend⟩
  · exact (encodeCommands_raise hgate 0).2.answers

theorem acDec_answers {s : State} (hs : Placed s) (hcounts : CountsAgree s) (hsession : SessionOk s) :
    Answers (exec .acDec s) := by
  by_cases hgate : s.mode = .arithmetic ∧ s.acState = .dec
  · obtain ⟨hmode, hdec⟩ := hgate
    obtain hsingle | hmany := Bool.eq_false_or_eq_true s.acSingle
    · exact ⟨_, acDec_single hmode hdec hsingle⟩
    · obtain ⟨x, p, r, -, -, -, hexec⟩ :=
        acDecFindsTheSymbol.1 s hs hcounts (hsession (by rw [hdec]; decide)) hdec hmany
      exact ⟨_, hexec⟩
  · exact (decodeCommands_raise hgate).1.answers

theorem exec_answers {s : State} (hs : Inv s) (i : Instr) : Answers (exec i s) := by
  obtain ⟨hplaced, hcounts, hcodes, -, hsession⟩ := hs
  cases i with
  | nop | ctlReset | ctlClrerr | bsWinit | bsFlush | bsRinit | ftRd | ftCum => exact .next _
  | ctrMode tag => exact exec_ctrMode tag s ▸ .ite (fun _ => .next _) fun _ => .next _
  | bsWr n => exact ⟨_, exec_bsWr n hplaced.config⟩
  | bsRd n => exact ⟨_, exec_bsRd n hplaced.rlimit⟩
  | ftClr => exact exec_ftClr s ▸ .ite (fun _ => .next _) fun _ => .next _
  | ftAcc x => exact exec_ftAcc x s ▸ .ite (fun _ => .ite (fun _ => .next _) fun _ => .next _) fun _ => .next _
  | ftLd x => exact exec_ftLd x s ▸ .ite (fun _ => .next _) fun _ => .next _
  | ftCrd x => exact exec_ftCrd x s ▸ .ite (fun _ => .next _) fun _ => .next _
  | hufBuild => exact exec_hufBuild s ▸ .ite (fun _ => .next _) fun _ => .next _
  | hufLdlen x n => exact exec_hufLdlen x n s ▸ .ite (fun _ => .next _) fun _ => .next _
  | hufCanon => exact exec_hufCanon s ▸ .ite (fun _ => .next _) fun _ => .next _
  | hufRdlen x => exact exec_hufRdlen x s ▸ .ite (fun _ => .next _) fun _ => .next _
  | hufRdcode x k =>
    exact exec_hufRdcode x k s ▸ .ite (fun _ => .ite (fun _ => .next _) fun _ => .next _) fun _ => .next _
  | hufEnc x => exact hufEnc_answers hplaced x
  | hufDec => exact hufDec_answers hplaced hcodes
  | acEinit => exact (sessionStarts_answer hplaced hcounts).1
  | acEnc x => exact acEnc_answers hplaced hsession x
  | acEfin => exact acEfin_answers hplaced
  | acDinit => exact (sessionStarts_answer hplaced hcounts).2
  | acDec => exact acDec_answers hplaced hcounts hsession
  | acDfin => exact exec_acDfin s ▸ .ite (fun _ => .next _) fun _ => .next _

/-- Settles O60: a fault of the step is one of a command, and every command answers. -/
theorem invariantStatesAreSafe : Obligations.InvariantStatesAreSafe := by
  intro s hs f hfault
  obtain ⟨i, -, hexec⟩ := engineStep_fault (step_fault hfault).2
  obtain ⟨t, hnext⟩ := exec_answers hs i
  cases hnext.symm.trans hexec

/-! ## The end of a pending command (rules R358, R490) -/

theorem engineStep_answers {s : State} (hs : Inv s) : Answers (engineStep s) := by
  unfold engineStep
  split
  · exact .next _
  · next i _ =>
    obtain ⟨t, hexec⟩ := exec_answers hs i
    exact .ite (fun _ => .next _) fun _ => ⟨endCommand t, by rw [hexec]; rfl⟩

theorem step_keeps_inv {s t : State} (hs : Inv s) (h : step s = .next t) : Inv t :=
  ⟨stepKeepsEverythingPlaced s t hs.placed h, stepKeepsTheCountsAgreed s t hs.counts h,
    stepKeepsTheCodesAgreed s t hs.codes h, stepKeepsTheErrorLatch s t hs.latch h,
    stepKeepsTheSession s t hs.placed hs.counts hs.session h⟩

/-- While `BUSY` = 1 a host write keeps the command pending and its delay as it is. -/
theorem hostWrite_keeps_pending {s : State} (off : Nat) (w : Word) (hbusy : s.busy = true) :
    (hostWrite off w s).busy = true ∧ (hostWrite off w s).host = s.host := by
  unfold hostWrite
  split
  case h_1 => split <;> exact ⟨hbusy, rfl⟩
  case h_7 | h_8 => exact ⟨hbusy, rfl⟩
  all_goals
    rw [if_pos hbusy]
    exact ⟨hbusy, rfl⟩

/-- While `BUSY` = 1 a host access keeps the command pending and takes one off its delay. -/
theorem hostTurn_counts_down {s t : State} (hbusy : s.busy = true) (hscript : s.host.script ≠ [])
    (h : hostTurn s = .next t) : t.busy = true ∧ t.host.wait = s.host.wait - 1 := by
  have hcount : ∀ ops, (s.countAccess.withScript ops).busy = true ∧
      (s.countAccess.withScript ops).host.wait = s.host.wait - 1 := fun ops => by
    rw [withScript_busy, countAccess_busy, withScript_host, countAccess_host_busy s hbusy]
    exact ⟨hbusy, rfl⟩
  obtain ⟨hend, -⟩ | ⟨_, _, v, ops, off, -, -, rfl⟩ | ⟨_, _, ops, off, -, -, rfl⟩ | ⟨ops, -, rfl⟩ | ⟨ops, -, rfl⟩ :=
    hostTurn_cases h
  · exact absurd hend hscript
  · obtain ⟨hpending, hwait⟩ := hcount ops
    obtain ⟨hpending', hhost⟩ := hostWrite_keeps_pending off v hpending
    exact ⟨hpending', by rw [hhost, hwait]⟩
  · rw [hostRead_frame]
    exact hcount ops
  · rw [if_pos hbusy, countAccess_busy, countAccess_host_busy s hbusy]
    exact ⟨hbusy, rfl⟩
  · exact hcount (if s.err then [] else ops)

theorem run_one {s t : State} (h : step s = .next t) : core.run 1 s = .next t := by
  simp only [Host.Core.run, core, h]

theorem run_succ {s t : State} (k : Nat) (h : step s = .next t) : core.run (k + 1) s = core.run k t := by
  simp only [Host.Core.run, core, h]

theorem run_one_refused {s : State} {r : Refusal} (h : step s = .refused r) : core.run 1 s = .refused r := by
  simp only [Host.Core.run, core, h]

/-- After `k` steps the pending command has ended, or one of them was an access the model refuses. -/
def Ended (k : Nat) (s : State) : Prop :=
  (∃ t, core.run k s = .next t ∧ t.busy = false) ∨ ∃ r, core.run k s = .refused r

theorem engineTurn_ends {s : State} (hs : Inv s) (hturn : s.engineTurn = true) : Ended 1 s := by
  obtain ⟨t, h⟩ := engineStep_answers hs
  exact .inl ⟨t, run_one ((step_engine hturn).trans h), engineStep_idle h⟩

theorem ended_succ {s t : State} {k : Nat} (h : step s = .next t) (ht : Ended k t) : Ended (k + 1) s := by
  rw [Ended, run_succ k h]
  exact ht

/-- By induction on the delay: the engine's turn ends the command, and before it each host access brings it nearer, or
is refused. -/
theorem ends_after_delay (n : Nat) : ∀ {s : State}, Inv s → s.busy = true → s.host.wait = n →
    ∃ k, k ≤ n + 1 ∧ Ended k s := by
  induction n with
  | zero => exact fun hs hbusy hwait => ⟨1, le_rfl, engineTurn_ends hs (engineTurn_iff.2 ⟨hbusy, .inl hwait⟩)⟩
  | succ n ih =>
    intro s hs hbusy hwait
    cases hturn : s.engineTurn with
    | true => exact ⟨1, by omega, engineTurn_ends hs hturn⟩
    | false =>
      have hscript : s.host.script ≠ [] := fun hend =>
        Bool.eq_false_iff.1 hturn (engineTurn_iff.2 ⟨hbusy, .inr hend⟩)
      cases h : step s with
      | next t =>
        obtain ⟨hbusy', hwait'⟩ := hostTurn_counts_down hbusy hscript (step_host hturn ▸ h)
        obtain ⟨k, hk, hend⟩ := ih (step_keeps_inv hs h) hbusy' (by omega)
        exact ⟨k + 1, by omega, ended_succ h hend⟩
      | fault f => exact absurd h (invariantStatesAreSafe s hs f)
      | refused r => exact ⟨1, by omega, .inr ⟨r, run_one_refused h⟩⟩

/-- Settles O19: the pending command ends one step after its delay, at the latest. -/
theorem acceptedCommandsFinish : Obligations.AcceptedCommandsFinish :=
  fun _ hs hbusy => ends_after_delay _ hs hbusy rfl

end Sys2Proof.Machine
end

section
/-! O44: the Huffman coder's round trip (rules R257, R258, R389). A message writes its symbols' codes one after the
other; read from the start, the stream goes on with the code of each symbol in turn. -/

namespace Sys2Proof.Machine

/-- The codes of a message under a code table, in stream order. -/
def codeBits (len : Table Byte) (code : Table CodeWord) : List Sym → List Bool
  | [] => []
  | x :: ms => bitsOf (tget code x).toNat (tget len x).toNat ++ codeBits len code ms

theorem codeBits_length (len : Table Byte) (code : Table CodeWord) (ms : List Sym) :
    (codeBits len code ms).length = (ms.map fun x => (tget len x).toNat).sum := by
  induction ms with
  | nil => rfl
  | cons x ms ih => rw [codeBits, List.length_append, bitsOf_length, ih, List.map_cons, List.sum_cons]

/-- `HUF.ENC` of each symbol of a message that fits puts its codes at the cursor. -/
theorem runCommands_hufEnc (ms : List Sym) (is : List Instr) : ∀ {s : State}, s.config.wf → s.mode = .huffman →
    s.ctValid = true → (∀ x ∈ ms, tget s.len x ≠ 0) → s.bsWpos.toNat + (codeBits s.len s.code ms).length ≤ s.capBits →
    runCommands (ms.map .hufEnc ++ is) s = runCommands is (s.put (codeBits s.len s.code ms)) := by
  induction ms with
  | nil =>
    intro s _ _ _ _ _
    rw [codeBits, put_nil]
    rfl
  | cons x ms ih =>
    intro s hc hmode hvalid hall hfit
    obtain ⟨hx, hms⟩ := List.forall_mem_cons.1 hall
    rw [codeBits, List.length_append] at hfit
    have hfirst : s.bsWpos.toNat + (bitsOf (tget s.code x).toNat (tget s.len x).toNat).length ≤ s.capBits := by omega
    have hexec := hufEnc_writes hc hmode hvalid hx
    rw [if_pos (by rwa [bitsOf_length] at hfirst)] at hexec
    have hmore : (s.put (bitsOf (tget s.code x).toNat (tget s.len x).toNat)).bsWpos.toNat
        + (codeBits s.len s.code ms).length ≤ s.capBits := by
      rw [put_bsWpos hc hfirst]
      omega
    have hrest := ih (s := s.put (bitsOf (tget s.code x).toNat (tget s.len x).toNat)) hc hmode hvalid hms hmore
    rw [List.map_cons, List.cons_append, runCommands_cons _ hexec, hrest]
    exact congrArg (runCommands is) (put_append _ _ hc hfirst)

/-- `HUF.DEC` where the code of `x` stands at the read cursor. -/
theorem hufDec_takes {s : State} (hlimit : s.bsRlimit.toNat ≤ s.capBits) (hcodes : CodesAgree s)
    (hmode : s.mode = .huffman) (hvalid : s.ctValid = true) {x : Sym} (hx : tget s.len x ≠ 0)
    (hfit : s.bsRpos.toNat + (tget s.len x).toNat ≤ s.bsRlimit.toNat) (hnext : s.nextIs x) :
    exec .hufDec s = .next (s.takeSymbol x (tget s.len x).toNat) := by
  rw [exec_hufDec, if_pos hmode, if_pos hvalid,
    decodeWalk_nextIs hlimit (hcodes.codes hvalid) (hcodes.maxlen hvalid) hx hfit hnext, ok_bind, conclude_ok]

/-- As many `HUF.DEC` as the message has symbols return it, where the stream carries its codes. -/
theorem runResults_hufDec (ms : List Sym) : ∀ {s : State}, s.config.wf → s.bsRlimit.toNat ≤ s.capBits →
    CodesAgree s → s.mode = .huffman → s.ctValid = true → (∀ x ∈ ms, tget s.len x ≠ 0) →
    Carries s.bsmem s.bsRlimit.toNat s.bsRpos.toNat (codeBits s.len s.code ms) →
    ∃ u, runResults (List.replicate ms.length .hufDec) s = some (ms.map fun x => x.setWidth 32, u) ∧ u.err = s.err := by
  induction ms with
  | nil => exact fun {s} _ _ _ _ _ _ _ => ⟨s, rfl, rfl⟩
  | cons x ms ih =>
    intro s hc hlimit hcodes hmode hvalid hall hbits
    obtain ⟨hx, hms⟩ := List.forall_mem_cons.1 hall
    obtain ⟨⟨hroom, hfirst⟩, hrest⟩ := carries_append hbits
    rw [bitsOf_length] at hroom hrest
    have hfits := (canonicalCodesArePrefixFree _ _ (hcodes.codes hvalid)).1 x
    have hnext : s.nextIs x := (streamValue_of_holds hfirst).trans (Nat.mod_eq_of_lt hfits)
    have hexec := hufDec_takes hlimit hcodes hmode hvalid hx hroom hnext
    rw [← cursor_add_toNat hc (hroom.trans hlimit)] at hrest
    obtain ⟨u, hrun, herr⟩ := ih (s := s.takeSymbol x (tget s.len x).toNat) hc hlimit
      ⟨hcodes.codes, hcodes.nsym, hcodes.maxlen⟩ hmode hvalid hms hrest
    refine ⟨u, ?_, herr⟩
    rw [List.length_cons, List.replicate_succ, runResults, hexec]
    simp only [hrun, Option.map_some]
    rfl

/-- `s` padded to a byte, with its length in bytes as the result (rule R155). -/
def State.flushed (s : State) : State :=
  { s with
    bsWpos := BitVec.ofNat 32 (padToByte s.bsWpos.toNat)
    res := BitVec.ofNat 32 (padToByte s.bsWpos.toNat / 8)
    resHi := 0 }

theorem exec_bsFlush_flushed (s : State) : exec .bsFlush s = .next s.flushed := rfl

theorem exec_bsRinit_rewound (s : State) : exec .bsRinit { s with bsRlen := s.res } = .next s.rewound := rfl

theorem flushed_rewound_bsRlimit {s : State} (hc : s.config.wf) (hw : s.bsWpos.toNat ≤ s.capBits) :
    s.flushed.rewound.bsRlimit.toNat = padToByte s.bsWpos.toNat := by
  obtain ⟨_, _, hflush, hrinit, -, hlimit, -⟩ := flush_rinit hc hw
  cases hflush
  cases hrinit
  exact hlimit

theorem runResults_bsRinit {t u : State} {is : List Instr} {rs : List Word}
    (h : runResults is t.rewound = some (rs, u)) :
    runResults (.bsRinit :: is) { t with bsRlen := t.res } = some (t.res :: rs, u) := by
  rw [runResults, exec_bsRinit_rewound]
  simp only [h, Option.map_some]
  rfl

/-- Settles O44: the codes lie in the memory from position 0 on, where the reads follow them. -/
theorem huffmanRoundTrip : Obligations.HuffmanRoundTrip := by
  intro s ms hs hcodes hmode hvalid hall hsum
  rw [← codeBits_length s.len s.code] at hsum
  have hfit : 0 + (codeBits s.len s.code ms).length ≤ s.capBits := by rwa [Nat.zero_add]
  have henc := runCommands_hufEnc ms [.bsFlush] (s := { s with bsWpos := 0 }) hs.config hmode hvalid hall hfit
  have hwpos := (put_bsWpos (s := { s with bsWpos := 0 }) hs.config hfit).trans (Nat.zero_add _)
  have hlimit := (flushed_rewound_bsRlimit (s := State.put { s with bsWpos := 0 } (codeBits s.len s.code ms)) hs.config
    (hwpos.trans_le hsum)).trans (congrArg padToByte hwpos)
  have hbits := carries_putList_zero hs.memory (codeBits s.len s.code ms)
  rw [← hlimit] at hbits
  obtain ⟨u, hrun, herr⟩ := runResults_hufDec ms
    (s := (State.put { s with bsWpos := 0 } (codeBits s.len s.code ms)).flushed.rewound) hs.config
    (hlimit.trans_le (padToByte_le_capBits hsum)) ⟨hcodes.codes, hcodes.nsym, hcodes.maxlen⟩ hmode hvalid hall hbits
  have hwrite := ((runCommands_cons (ms.map .hufEnc ++ [.bsFlush]) (exec_bsWinit s)).trans henc).trans
    (runCommands_cons [] (exec_bsFlush_flushed _))
  exact ⟨_, _, u, hwrite, rfl, runResults_bsRinit hrun, rfl, herr⟩

end Sys2Proof.Machine
end

section
/-! O53, O36, O32, O5, O20: the decoder's path, `HUF.BUILD`, the running sums, the engine's turn, and power-on. -/

namespace Sys2Proof.Machine

/-! ## The decoder's path (rule R312) -/

/-- A symbol fills the low byte of `RES`. -/
theorem symbol_setWidth_inj {x y : Sym} (h : x.setWidth 32 = y.setWidth 32) : x = y := by
  bv_omega

/-- Narrowing sees the model and the bounds alone. -/
theorem narrowed_congr {s s' : State} (hfreq : s.freq = s'.freq) (hcum : s.cum = s'.cum) (htotal : s.total = s'.total)
    (hlow : s.acLow = s'.acLow) (hhigh : s.acHigh = s'.acHigh) (x : Sym) : s.narrowed x = s'.narrowed x := by
  simp only [State.narrowed, State.scaled, State.acRange, State.cumLow, State.cumHigh, State.totalCount, hfreq, hcum,
    htotal, hlow, hhigh]

/-- Settles O53: both commands end at the bounds of the symbol's path, which starts at the same narrowed bounds. -/
theorem decoderTakesTheEncodersPath : Obligations.DecoderTakesTheEncodersPath := by
  intro s t s' t' x hs hs' hfreq hcum htotal hlow hhigh hmany hmany' _ _ henc herr hdec herr' hres
  have hnotsingle := Bool.eq_false_iff.1 hmany
  have hnotsingle' := Bool.eq_false_iff.1 hmany'
  obtain ⟨e, rfl⟩ | ⟨hsingle, -⟩ | ⟨-, -, -, -, rfl⟩ := acEnc_next hs.config henc
  · cases herr
  · exact absurd hsingle hnotsingle
  obtain ⟨e, rfl⟩ | ⟨hsingle, -⟩ | ⟨-, -, y, -, rfl⟩ := acDec_next hs'.rlimit hs'.rpos hdec
  · cases herr'
  · exact absurd hsingle hnotsingle'
  obtain rfl : y = x := symbol_setWidth_inj hres
  have hnarrowed := narrowed_congr hfreq hcum htotal hlow hhigh y
  have hpath : s.symbolPath y = s'.symbolPath y := by rw [State.symbolPath, State.symbolPath, hnarrowed]
  constructor
  · show (pathBounds (s.symbolPath y) (s.narrowed y)).1 = (pathBounds (s'.symbolPath y) (s'.narrowed y)).1
    rw [hpath, hnarrowed]
  · show (pathBounds (s.symbolPath y) (s.narrowed y)).2 = (pathBounds (s'.symbolPath y) (s'.narrowed y)).2
    rw [hpath, hnarrowed]

/-! ## `HUF.BUILD` of a lone symbol (rules R250 to R252) -/

/-- The only symbol with a length takes the first code of the table. -/
theorem canon_lone {len : Table Byte} {code : Table CodeWord} (h : canon len = some code) {x : Sym}
    (hlone : ∀ y, tget len y ≠ 0 ↔ y = x) : tget code x = 0 := by
  have hmem : ((tget len x).toNat, x) ∈ codeOrder len := mem_codeOrder.2 ⟨rfl, (hlone x).2 rfl⟩
  have hpos : 0 < (codeOrder len).length := List.length_pos_of_mem hmem
  have hfirst : (codeOrder len)[0].2 = x := (hlone _).1 (mem_codeOrder.1 (List.getElem_mem hpos)).2
  have hshare := canon_share h hpos
  rw [hfirst] at hshare
  have hzero : (tget code x).toNat * 2 ^ (255 - (codeOrder len)[0].1) = 0 := hshare
  exact BitVec.eq_of_toNat_eq ((Nat.mul_eq_zero.1 hzero).resolve_right (Nat.two_pow_pos _).ne')

/-- One symbol alone with a count is a count of symbols of 1. -/
theorem nonzeroCounts_lone {freq : Table Word} {x : Sym} (hlone : ∀ y, tget freq y ≠ 0 ↔ y = x) :
    nonzeroCounts freq = 1 := by
  have hsame : ∀ y ∈ allSyms, (tget freq y != 0) = true ↔ (y == x) = true := fun y _ => by
    rw [bne_iff_ne, beq_iff_eq]
    exact hlone y
  rw [nonzeroCounts, countNonzero_eq, List.countP_congr hsame]
  exact List.count_eq_one_of_mem allSyms_nodup (mem_allSyms x)

/-- The tree of a lone symbol is its leaf, at depth 1. -/
theorem buildLengths_lone {freq : Table Word} {x : Sym} (hlone : ∀ y, tget freq y ≠ 0 ↔ y = x) :
    (tget (buildLengths freq) x).toNat = 1 := by
  have hone := nonzeroCounts_lone hlone
  obtain ⟨n, htree⟩ := symbolDepths_lone hone
  have hleaves : n.leaves.length = 1 := by
    rw [← depths_leaves n 1, ← htree, (symbolDepths_symbols freq).length_eq, ← List.countP_eq_length_filter,
      ← countNonzero_eq]
    exact hone
  obtain ⟨p, hp, rfl⟩ := List.mem_map.1 (mem_symbolDepths.2 ((hlone x).2 rfl))
  obtain ⟨hlow, hhigh⟩ := depths_range n 1 p (htree ▸ hp)
  rw [buildLengths_of_mem hp]
  omega

/-- Settles O36: the command's equation; `Canon` accepts every built table. -/
theorem hufBuildStoresTheCanonicalTable : Obligations.HufBuildStoresTheCanonicalTable := by
  refine ⟨fun s hmode => ⟨_, (exec_hufBuild s).trans (if_pos hmode), rfl, rfl, canon_buildLengths s.freq,
    nonzeroLengths_toNat _, maxLength_toNat _, rfl, fun x => buildLengths_zero_iff, fun x hlone =>
      ⟨buildLengths_lone hlone, canon_lone (canon_buildLengths s.freq) fun y => ?_⟩⟩,
    fun s hmode => (exec_hufBuild s).trans (if_neg hmode), rfl⟩
  exact (not_congr buildLengths_zero_iff).trans (hlone y)

/-! ## The running sums (rule R207) -/

/-- Settles O32: `CUM` holds the running sums, which grow by a symbol's count at that symbol. -/
theorem runningSumsFollowTheCounts : Obligations.RunningSumsFollowTheCounts := by
  intro s hs hvalid
  have hcum := hs.cum hvalid
  refine ⟨fun x y hxy => ?_, BitVec.eq_of_toNat_eq ?_, ?_, fun x y hxy => ?_⟩
  · rw [hcum, hcum]
    exact sumUpTo_mono s.freq hxy
  · rw [hcum, hs.total, sumUpTo_last]
  · rw [← BitVec.toNat_inj, ← BitVec.toNat_inj, hcum, sumUpTo_first]
    rfl
  · have hnext := sumUpTo_next s.freq hxy
    rw [← BitVec.toNat_inj, ← BitVec.toNat_inj, hcum, hcum, hnext, Nat.add_eq_left]
    rfl

/-! ## The engine's turn (rule R350) -/

/-- Settles O5: the turn of an accepted command runs it and clears `BUSY`. -/
theorem stepRunsTheLatchedCommand : Obligations.StepRunsTheLatchedCommand := by
  intro s i hruns haccepted
  have hstep := step_of_runs hruns (haccepted.imp_right acceptedUnderError_iff.2)
  exact ⟨hstep, fun t hexec => by rw [hstep, hexec]; rfl⟩

/-! ## Power-on (rules R470, R471) -/

theorem powerOn_inv {c : Config} {m : Memory} (hc : c.wf) (hm : m.wf) (hbelow : m.below c.bsCap) :
    Inv (State.powerOn c m) where
  placed := ⟨hc, hm, hbelow, Nat.zero_le _, Nat.zero_le _, Nat.zero_le _, rfl, Nat.zero_le _⟩
  counts := countsAgree_of_zero (tget_replicate 0) rfl (tget_replicate 0) rfl
  codes := codesAgree_of_invalid rfl
  latch := errorLatch_of_clear rfl rfl
  session := sessionOk_of_idle rfl

theorem powerOn_statusWord (c : Config) (m : Memory) : (State.powerOn c m).statusWord = 0x00000200 := by
  show (engineReset (State.powerOn c m)).statusWord = _
  exact engineReset_statusWord _

/-- Settles O20: every register and table entry is 0 or its reset value, which the invariants hold of. -/
theorem powerOnState : Obligations.PowerOnState := by
  refine ⟨powerOn_inv (by decide) ⟨.nil, nofun⟩ nofun, rfl, fun c m hc hm hbelow => ⟨powerOn_inv hc hm hbelow,
    powerOn_statusWord c m,
    rfl, rfl, rfl, rfl, rfl, rfl, rfl, rfl, rfl, rfl, rfl, rfl, rfl, fun x => ?_, rfl, rfl, rfl, rfl, rfl, rfl, rfl⟩⟩
  exact ⟨tget_replicate 0 x, tget_replicate 0 x, tget_replicate 0 x, tget_replicate 0 x⟩

end Sys2Proof.Machine
end

section
/-! O15, O16, O17: the registers as the host sees them while `BUSY` = 0, and the fields of `STATUS`. -/

namespace Sys2Proof.Machine

/-! ## Writes (rules R84, R41, R357) -/

/-- While `BUSY` = 0 the window write stores the low byte inside `BS_CAP` and moves on. -/
theorem hostWrite_window_idle {s : State} (hidle : s.busy = false) (w : Word) :
    hostWrite 0x34 w s = { s with
      bsmem := if s.memAddr.toNat < s.config.bsCap then s.bsmem.write s.memAddr.toNat (BitVec.ofNat 8 w.toNat)
        else s.bsmem
      memAddr := s.memAddr + 1 } := by
  have hwindow : hostWrite 0x34 w s = s.windowWrite w := if_neg (Bool.eq_false_iff.1 hidle)
  rw [hwindow, State.windowWrite, show w.setWidth 8 = BitVec.ofNat 8 w.toNat from rfl]
  split <;> rfl

/-- What the memory reads after the window write. -/
theorem windowWrite_stores {m : Memory} (hm : m.wf) (cap p : Nat) (v : Byte) :
    (if p < cap then m.write p v else m).wf ∧
      ∀ a, (if p < cap then m.write p v else m).read a = if a = p ∧ a < cap then v else m.read a := by
  by_cases hin : p < cap
  · rw [if_pos hin]
    refine ⟨write_wf p v hm, fun a => ?_⟩
    by_cases ha : a = p
    · rw [ha, if_pos ⟨rfl, hin⟩, read_write_same m p v hm.1]
    · rw [if_neg fun h => ha h.1, read_write_other m v ha]
  · rw [if_neg hin]
    exact ⟨hm, fun a => (if_neg fun ⟨he, ha⟩ => hin (he ▸ ha)).symm⟩

/-- Settles O15: each writable register's equation while `BUSY` = 0. -/
theorem writesWhileIdle : Obligations.WritesWhileIdle := by
  intro s w hidle
  have hnot : ¬s.busy = true := Bool.eq_false_iff.1 hidle
  exact ⟨if_neg hnot, if_neg hnot, hostWrite_status w s, fun hc => ⟨_, if_neg hnot, clampLength_toNat hc w⟩,
    fun hm => ⟨_, hostWrite_window_idle hidle w, windowWrite_stores hm s.config.bsCap s.memAddr.toNat _⟩,
    fun _ => hostWrite_ignored w s⟩

/-! ## Reads (rules R21, R83, R88) -/

theorem regAt_offset (r : Reg) : regAt r.offset = some r := by
  cases r <;> rfl

/-- No register lies from 0x64 on (rule R21). -/
theorem regAt_reserved {off : Nat} (hoff : 0x64 ≤ off) : regAt off = none := by
  have hlast : ∀ r ∈ Reg.all, r.offset ≤ 0x60 := by decide
  refine List.find?_eq_none.2 fun r hr hfound => ?_
  have := hlast r hr
  have : r.offset = off := beq_iff_eq.1 hfound
  omega

/-- While `BUSY` = 0 a register other than `MEMDATA` reads its value, with no side effect. -/
theorem hostRead_idle {s : State} (hidle : s.busy = false) {r : Reg} (hr : r ≠ .memData) :
    hostRead r.offset s = (s.regValue r, s) := by
  have hnot : ¬s.busy = true := Bool.eq_false_iff.1 hidle
  unfold hostRead
  rw [regAt_offset]
  cases r with
  | id | status => rfl
  | memData => exact absurd rfl hr
  | _ => exact if_neg hnot

/-- While `BUSY` = 0 `MEMDATA` reads the window's byte and moves on. -/
theorem hostRead_window_idle {s : State} (hidle : s.busy = false) :
    hostRead 0x34 s = (s.windowByte.setWidth 32, s.nextWindow) :=
  if_neg (Bool.eq_false_iff.1 hidle)

theorem hostRead_reserved_idle {s : State} (hidle : s.busy = false) {off : Nat} (hoff : 0x64 ≤ off) :
    hostRead off s = (0, s) := by
  unfold hostRead
  rw [regAt_reserved hoff]
  exact if_neg (Bool.eq_false_iff.1 hidle)

/-- The two halves of `TOTAL`. -/
theorem total_halves (v : DWord) : v.extractLsb' 32 32 ++ v.extractLsb' 0 32 = v := by
  rw [BitVec.extractLsb'_append_extractLsb'_eq_extractLsb' (by rfl)]
  simp

/-- Settles O16: the register's value at each offset; the window's byte by its bound. -/
theorem readsWhileIdle : Obligations.ReadsWhileIdle := by
  intro s hidle
  have hread : ∀ r : Reg, r ≠ .memData → hostRead r.offset s = (s.regValue r, s) := fun _ => hostRead_idle hidle
  have hwindow := hostRead_window_idle hidle
  have hlow : hostRead 0x3C s = (s.total.extractLsb' 0 32, s) := hread .totalLo (by decide)
  have hhigh : hostRead 0x40 s = (s.total.extractLsb' 32 32, s) := hread .totalHi (by decide)
  have hcap : hostRead 0x38 s = (BitVec.ofNat 32 s.config.bsCap, s) := hread .bsCapr (by decide)
  refine ⟨hread .id (by decide), hread .cmd (by decide), hread .arg0 (by decide), hread .res (by decide),
    hread .resHi (by decide), hread .status (by decide), hread .errCmd (by decide), hread .errPos (by decide),
    hread .bsWpos (by decide), hread .bsRpos (by decide), hread .bsRlimit (by decide), hread .bsRlen (by decide),
    hread .memAddr (by decide), fun hin => ?_, fun hout => ?_, fun hc => ⟨?_, congrArg Prod.snd hcap⟩,
    ⟨?_, congrArg Prod.snd hlow, congrArg Prod.snd hhigh⟩, hread .ftNsym (by decide), hread .hufNsym (by decide),
    hread .hufMaxlen (by decide), hread .acLow (by decide), hread .acHigh (by decide), hread .acCode (by decide),
    hread .acPend (by decide), hread .acSym (by decide), fun off hoff _ => hostRead_reserved_idle hidle hoff⟩
  · rw [hwindow, State.windowByte, if_pos hin]
    rfl
  · rw [hwindow, State.windowByte, if_neg (Nat.not_lt.2 hout)]
    rfl
  · obtain ⟨-, hmax⟩ := hc
    rw [hcap]
    exact Nat.mod_eq_of_lt (by omega)
  · rw [hhigh, hlow]
    exact total_halves s.total

/-! ## The fields of `STATUS` (rules R23, R420) -/

/-- The flags of one bit. -/
theorem statusWord_flags (s : State) :
    s.statusWord.getLsbD 1 = s.err ∧ s.statusWord.getLsbD 2 = s.lost ∧ s.statusWord.getLsbD 3 = false ∧
    s.statusWord.getLsbD 8 = s.mode.bits.getLsbD 0 ∧ s.statusWord.getLsbD 9 = s.cumValid ∧
    s.statusWord.getLsbD 10 = s.ctValid ∧ s.statusWord.getLsbD 13 = s.acSingle := by
  simp only [State.statusWord, BitVec.getLsbD_append, BitVec.getLsbD_ofBool]
  simp

theorem statusWord_errCode (s : State) : s.statusWord.extractLsb' 4 4 = s.errCode.bits := by
  refine BitVec.eq_of_getLsbD_eq fun k hk => ?_
  simp only [State.statusWord, BitVec.getLsbD_extractLsb', BitVec.getLsbD_append, BitVec.getLsbD_ofBool]
  simp [hk]

theorem statusWord_acState (s : State) : s.statusWord.extractLsb' 11 2 = s.acState.bits := by
  refine BitVec.eq_of_getLsbD_eq fun k hk => ?_
  simp only [State.statusWord, BitVec.getLsbD_extractLsb', BitVec.getLsbD_append, BitVec.getLsbD_ofBool]
  obtain rfl | rfl : k = 0 ∨ k = 1 := by omega
  · simp
  · simp

theorem statusWord_high (s : State) {k : Nat} (hk : 14 ≤ k) : s.statusWord.getLsbD k = false := by
  obtain ⟨j, rfl⟩ := Nat.exists_eq_add_of_le' hk
  simp only [State.statusWord, BitVec.getLsbD_append, BitVec.getLsbD_ofBool]
  simp

/-- Settles O17: each field is its part of the word, and the codes are numbered in the table's order. -/
theorem statusFields : Obligations.StatusFields := by
  refine ⟨fun s => ?_, rfl⟩
  obtain ⟨herr, hlost, hzero, hmode, hcum, hct, hsingle⟩ := statusWord_flags s
  refine ⟨statusWord_bit_zero s, herr, hlost, hzero, statusWord_errCode s, ?_, hcum, hct, ?_, hsingle,
    fun _ => statusWord_high s⟩
  · rw [hmode]
    cases s.mode <;> decide
  · rw [statusWord_acState]
    cases s.acState <;> rfl

end Sys2Proof.Machine
end

section
/-! O11: what can change each flag of `STATUS` (rule R28). A step is a host's turn, a raised error, or a command inside
its frame, so a flag's events are read off these three. -/

namespace Sys2Proof.Machine

/-! ## A step's events -/

/-- A step is a host's turn, or an engine's turn that discards, raises, or runs a command inside its frame. -/
theorem step_events {s t : State} (h : step s = .next t) :
    (s.engineTurn = false ∧ hostTurn s = .next t) ∨
    (engineStep s = .next t ∧ (t = endCommand s ∨ (s.err = false ∧ ∃ e, t = endCommand (raiseError e s)) ∨
      ∃ i u, Runs s i ∧ exec i s = .next u ∧ u = frameOf i s u ∧ t = endCommand u)) := by
  cases hturn : s.engineTurn with
  | false => exact .inl ⟨rfl, step_host hturn ▸ h⟩
  | true =>
    rw [step_engine hturn] at h
    refine .inr ⟨h, ?_⟩
    obtain ⟨-, hclear, rfl⟩ | ⟨-, -, rfl⟩ | ⟨i, u, hdecode, haccepted, hu, rfl⟩ := engineStep_cases h
    · exact .inr (.inl ⟨hclear, _, rfl⟩)
    · exact .inl rfl
    · obtain hframe | ⟨e, rfl⟩ := exec_frame hu
      · exact .inr (.inr ⟨i, u, runs_of_engineTurn hturn hdecode, hu, hframe, rfl⟩)
      · refine .inr (.inl ⟨haccepted.resolve_right fun hi => ?_, e, rfl⟩)
        obtain ⟨hcleared, -⟩ := exec_accepted_clears hi hu
        cases hcleared

/-- A part of the state that the host's turn, an error and the end of `BUSY` keep is as before, or has changed by the
event `P`, where every command's frame keeps it or is that event. -/
theorem step_part {α : Type} {f : State → α} {P : Prop} {s t : State} (h : step s = .next t)
    (hhost : hostTurn s = .next t → f t = f s) (hraise : ∀ e, f (raiseError e s) = f s)
    (hframe : ∀ i u, Runs s i → f (frameOf i s u) = f s ∨ P) (hend : ∀ u, f (endCommand u) = f u) :
    f t = f s ∨ P := by
  obtain ⟨-, hturn⟩ | ⟨-, rfl | ⟨-, e, rfl⟩ | ⟨i, u, hruns, -, hu, rfl⟩⟩ := step_events h
  · exact .inl (hhost hturn)
  · exact .inl (hend s)
  · exact .inl ((hend _).trans (hraise e))
  · rw [hend, hu]
    exact hframe i u hruns

/-! ## The host's writes -/

/-- An access the model does not refuse is an aligned word of the register space. -/
theorem accessOffset_ok {c : Config} {size : AccessSize} {addr off : Nat} (h : accessOffset c size addr = .ok off) :
    size = .word ∧ addr = c.eceBase + off ∧ off < 256 ∧ off % 4 = 0 := by
  unfold accessOffset at h
  split at h
  · cases h
  · next hinside =>
    split at h
    · next hshape =>
      cases h
      exact ⟨hshape.1, by omega, by omega, hshape.2⟩
    · cases h

/-- A host's turn that is no write keeps `BUSY` and `LOST`. -/
theorem hostTurn_writes_or_keeps {s t : State} (hturn : s.engineTurn = false) (h : hostTurn s = .next t) :
    (t.busy = s.busy ∧ t.lost = s.lost) ∨
      ∃ off w ops, HostWrites s off w ∧ t = hostWrite off w (s.countAccess.withScript ops) := by
  obtain ⟨-, rfl⟩ | ⟨_, _, w, ops, off, hscript, haccess, rfl⟩ | ⟨_, _, ops, off, -, -, rfl⟩ | ⟨ops, -, rfl⟩ |
    ⟨ops, -, rfl⟩ := hostTurn_cases h
  · exact .inl ⟨rfl, rfl⟩
  · obtain ⟨rfl, rfl, hoff, halign⟩ := accessOffset_ok haccess
    have hnot : ¬(s.busy = true ∧ (s.host.wait = 0 ∨ s.host.script = [])) :=
      mt engineTurn_iff.2 (Bool.eq_false_iff.1 hturn)
    exact .inr ⟨off, w, ops, ⟨hnot, hoff, halign, ops, hscript⟩, rfl⟩
  · rw [hostRead_frame]
    exact .inl ⟨countAccess_busy s, countAccess_lost s⟩
  · split
    · exact .inl ⟨countAccess_busy s, countAccess_lost s⟩
    · exact .inl ⟨rfl, rfl⟩
  · exact .inl ⟨countAccess_busy s, countAccess_lost s⟩

/-- A host write changes `BUSY` only to set it, at `CMD` (rule R351). -/
theorem hostWrite_busy (off : Nat) (w : Word) (s : State) :
    (hostWrite off w s).busy = s.busy ∨ (off = 0x04 ∧ (hostWrite off w s).busy = true) := by
  unfold hostWrite
  split
  case h_2 hreg =>
    split
    · exact .inl rfl
    · exact .inr ⟨(offset_of_regAt hreg).symm, rfl⟩
  case h_6 =>
    split
    · exact .inl rfl
    · unfold State.windowWrite
      split <;> exact .inl rfl
  case h_7 | h_8 => exact .inl rfl
  all_goals split <;> exact .inl rfl

/-- A host write sets `LOST` only while `BUSY` = 1, and clears it only at `STATUS`, by bit 2 (rule R357). -/
theorem hostWrite_lost (off : Nat) (w : Word) (s : State) :
    (hostWrite off w s).lost = s.lost ∨ (s.busy = true ∧ (hostWrite off w s).lost = true) ∨
      (off = 0x14 ∧ w.getLsbD 2 = true ∧ (hostWrite off w s).lost = false) := by
  unfold hostWrite
  split
  case h_1 hreg =>
    split
    · next hbit => exact .inr (.inr ⟨(offset_of_regAt hreg).symm, hbit, rfl⟩)
    · exact .inl rfl
  case h_6 =>
    split
    · next hbusy => exact .inr (.inl ⟨hbusy, rfl⟩)
    · unfold State.windowWrite
      split <;> exact .inl rfl
  case h_7 | h_8 => exact .inl rfl
  all_goals
    split
    · next hbusy => exact .inr (.inl ⟨hbusy, rfl⟩)
    · exact .inl rfl

/-! ## `BUSY` and `LOST` -/

theorem busy_set {s t : State} (h : step s = .next t) (hidle : s.busy = false) (hbusy : t.busy = true) :
    ∃ w, HostWrites s 0x04 w := by
  obtain ⟨hturn, hhost⟩ | ⟨hengine, -⟩ := step_events h
  · obtain ⟨hkept, -⟩ | ⟨off, w, ops, hwrite, rfl⟩ := hostTurn_writes_or_keeps hturn hhost
    · cases (hkept.trans hidle).symm.trans hbusy
    · obtain hkept | ⟨rfl, -⟩ := hostWrite_busy off w (s.countAccess.withScript ops)
      · rw [withScript_busy, countAccess_busy] at hkept
        cases (hkept.trans hidle).symm.trans hbusy
      · exact ⟨w, hwrite⟩
  · cases (engineStep_idle hengine).symm.trans hbusy

theorem busy_cleared {s t : State} (h : step s = .next t) (hbusy : s.busy = true) (hidle : t.busy = false) :
    engineStep s = .next t := by
  obtain ⟨hturn, hhost⟩ | ⟨hengine, -⟩ := step_events h
  · obtain ⟨hkept, -⟩ | ⟨off, w, ops, -, rfl⟩ := hostTurn_writes_or_keeps hturn hhost
    · cases (hkept.trans hbusy).symm.trans hidle
    · have hpending : (s.countAccess.withScript ops).busy = true := (countAccess_busy s).trans hbusy
      obtain ⟨hkept, -⟩ := hostWrite_keeps_pending off w hpending
      cases hkept.symm.trans hidle
  · exact hengine

/-- `LOST` is as before, set by a discarded write, or cleared by a W1C write or `CTL.RESET`. -/
theorem lost_changes {s t : State} (h : step s = .next t) : t.lost = s.lost ∨
    (t.lost = true ∧ s.busy = true ∧ ∃ off w, HostWrites s off w) ∨
    (t.lost = false ∧ ((∃ w, HostWrites s 0x14 w ∧ w.getLsbD 2 = true) ∨ Runs s .ctlReset)) := by
  obtain ⟨hturn, hhost⟩ | ⟨-, rfl | ⟨-, e, rfl⟩ | ⟨i, u, hruns, hu, hframe, rfl⟩⟩ := step_events h
  · obtain ⟨-, hkept⟩ | ⟨off, w, ops, hwrite, rfl⟩ := hostTurn_writes_or_keeps hturn hhost
    · exact .inl hkept
    · obtain hkept | ⟨hbusy, hset⟩ | ⟨rfl, hbit, hclear⟩ := hostWrite_lost off w (s.countAccess.withScript ops)
      · exact .inl (hkept.trans (countAccess_lost s))
      · exact .inr (.inl ⟨hset, (countAccess_busy s).symm.trans hbusy, off, w, hwrite⟩)
      · exact .inr (.inr ⟨hclear, .inl ⟨w, hwrite, hbit⟩⟩)
  · exact .inl rfl
  · exact .inl rfl
  · cases i with
    | ctlReset =>
      cases hu
      exact .inr (.inr ⟨rfl, .inr hruns⟩)
    | _ =>
      rw [hframe]
      exact .inl rfl

/-! ## `ERR` and `ERRCODE` -/

/-- `ERR` and `ERRCODE` stand, or change by an error, which sets `ERR`, or by `CTL.CLRERR` or `CTL.RESET`. -/
theorem latch_changes {s t : State} (h : step s = .next t) :
    (t.err = s.err ∧ t.errCode = s.errCode) ∨ (s.err = false ∧ t.err = true) ∨ Runs s .ctlClrerr ∨
      Runs s .ctlReset := by
  obtain ⟨-, hhost⟩ | ⟨-, rfl | ⟨hclear, e, rfl⟩ | ⟨i, u, hruns, -, hframe, rfl⟩⟩ := step_events h
  · rw [hostTurn_frame hhost]
    exact .inl ⟨rfl, rfl⟩
  · exact .inl ⟨rfl, rfl⟩
  · exact .inr (.inl ⟨hclear, rfl⟩)
  · cases i with
    | ctlReset => exact .inr (.inr (.inr hruns))
    | ctlClrerr => exact .inr (.inr (.inl hruns))
    | _ =>
      rw [hframe]
      exact .inl ⟨rfl, rfl⟩

/-- `ERR` is set by an error of the engine's turn alone. -/
theorem err_set {s t : State} (h : step s = .next t) (hclear : s.err = false) (herr : t.err = true) :
    t.errCode ≠ .none ∧ engineStep s = .next t := by
  obtain ⟨-, hhost⟩ | ⟨hengine, -⟩ := step_events h
  · rw [hostTurn_frame hhost] at herr
    cases hclear.symm.trans herr
  · obtain ⟨e, he, rfl⟩ := engineStep_raises hclear hengine herr
    exact ⟨he, hengine⟩

/-! ## The flags of the commands (rules R24, R35 to R38) -/

theorem mode_changes {s t : State} (h : step s = .next t) :
    t.mode = s.mode ∨ (∃ tag, Runs s (.ctrMode tag)) ∨ Runs s .ctlReset := by
  refine step_part h (fun hhost => by rw [hostTurn_frame hhost]) (fun _ => rfl) (fun i u hruns => ?_) fun _ => rfl
  cases i with
  | ctrMode tag => exact .inr (.inl ⟨tag, hruns⟩)
  | ctlReset => exact .inr (.inr hruns)
  | _ => exact .inl rfl

theorem cumValid_changes {s t : State} (h : step s = .next t) : t.cumValid = s.cumValid ∨
    Runs s .ftClr ∨ Runs s .ftCum ∨ (∃ x, Runs s (.ftAcc x)) ∨ (∃ x, Runs s (.ftLd x)) ∨ Runs s .ctlReset := by
  refine step_part h (fun hhost => by rw [hostTurn_frame hhost]) (fun _ => rfl) (fun i u hruns => ?_) fun _ => rfl
  cases i with
  | ftClr => exact .inr (.inl hruns)
  | ftCum => exact .inr (.inr (.inl hruns))
  | ftAcc x => exact .inr (.inr (.inr (.inl ⟨x, hruns⟩)))
  | ftLd x => exact .inr (.inr (.inr (.inr (.inl ⟨x, hruns⟩))))
  | ctlReset => exact .inr (.inr (.inr (.inr (.inr hruns))))
  | _ => exact .inl rfl

theorem ctValid_changes {s t : State} (h : step s = .next t) : t.ctValid = s.ctValid ∨
    Runs s .hufBuild ∨ Runs s .hufCanon ∨ (∃ x n, Runs s (.hufLdlen x n)) ∨ Runs s .ctlReset := by
  refine step_part h (fun hhost => by rw [hostTurn_frame hhost]) (fun _ => rfl) (fun i u hruns => ?_) fun _ => rfl
  cases i with
  | hufBuild => exact .inr (.inl hruns)
  | hufCanon => exact .inr (.inr (.inl hruns))
  | hufLdlen x n => exact .inr (.inr (.inr (.inl ⟨x, n, hruns⟩)))
  | ctlReset => exact .inr (.inr (.inr (.inr hruns)))
  | _ => exact .inl rfl

/-- `AC_STATE` and `AC_SINGLE`, as one part of the state. -/
def State.sessionFlags (s : State) : AcState × Bool := (s.acState, s.acSingle)

theorem sessionFlags_changes {s t : State} (h : step s = .next t) :
    t.sessionFlags = s.sessionFlags ∨ (∃ i, isAcCommand i ∧ Runs s i) ∨ Runs s .ctlReset := by
  refine step_part h (fun hhost => by rw [hostTurn_frame hhost]; rfl) (fun _ => rfl) (fun i u hruns => ?_) fun _ => rfl
  cases i with
  | acEinit | acEfin | acDinit | acDfin => exact .inr (.inl ⟨_, by simp [isAcCommand], hruns⟩)
  | ctlReset => exact .inr (.inr hruns)
  | _ => exact .inl rfl

/-- Settles O11: each flag's changes, one lemma a flag. -/
theorem flagsChangeOnlyByTheirWriters : Obligations.FlagsChangeOnlyByTheirWriters := by
  intro s t h
  refine ⟨busy_set h, busy_cleared h, fun herr hclear => ?_, err_set h, fun hcode => ?_, fun hlost hset => ?_,
    fun hlost hclear => ?_, fun hmode => (mode_changes h).resolve_left (Ne.symm hmode),
    fun hcum => (cumValid_changes h).resolve_left (Ne.symm hcum),
    fun hct => (ctValid_changes h).resolve_left (Ne.symm hct),
    fun hsession => (sessionFlags_changes h).resolve_left fun hkept => ?_⟩
  · obtain ⟨hkept, -⟩ | ⟨hclear', -⟩ | hruns := latch_changes h
    · cases (hkept.trans herr).symm.trans hclear
    · cases hclear'.symm.trans herr
    · exact hruns
  · obtain ⟨-, hkept⟩ | ⟨hclear, herr⟩ | hruns := latch_changes h
    · exact absurd hkept.symm hcode
    · exact .inl (by rw [hclear, herr]; decide)
    · exact .inr hruns
  · obtain hkept | ⟨-, hevent⟩ | ⟨hclear, -⟩ := lost_changes h
    · cases (hkept.trans hlost).symm.trans hset
    · exact hevent
    · cases hclear.symm.trans hset
  · obtain hkept | ⟨hset, -⟩ | ⟨-, hevent⟩ := lost_changes h
    · cases (hkept.trans hlost).symm.trans hclear
    · cases hset.symm.trans hclear
    · exact hevent
  · obtain ⟨hstate, hsingle⟩ := Prod.ext_iff.1 hkept
    exact hsession.elim (absurd hstate.symm) (absurd hsingle.symm)

end Sys2Proof.Machine
end
